-- ==== Sys2Proof/Word.lean ====
section
/-! DEFINITION. The plain data words of the block: bytes, byte strings, the 18-bit checksum value and
time (00_scope.md rules R8 to R10). -/

namespace Sys2Proof

/-- A byte, `u8` (rule R9). -/
abbrev Byte := BitVec 8

/-- A finite sequence of bytes, index 0 first (rule R9). -/
abbrev Bytes := List Byte

/-- An 18-bit checksum value (rules R6, R100). -/
abbrev U18 := BitVec 18

/-- A count of ticks since 1970-01-01T00:00:00 UTC, an unbounded integer (rule R10). -/
abbrev Time := Int

end Sys2Proof
end

