-- ==== Sys2Proof/Config.lean ====
section
/-! DEFINITION. The named parameters of 00_scope.md rule R7 with their defaults, and the values the spec
leaves open altogether (opaque: nothing can be proved of them). -/

namespace Sys2Proof

/-- The parameters of rule R7 (log 4), but for three: PROFILE_ID and PROFILE_LEN are operands of RESET, which
samples them, and SCHEMA_LOOKUP is `Config.schemaLookup`. -/
structure Params where
  /-- CRC_POLY, the x^18 term implicit (rule R100). -/
  crcPoly : BitVec 18
  /-- CRC_XOROUT (rule R100). -/
  crcXorOut : BitVec 18
  /-- B64_ALPHABET, entry `v` the character of value `v` (rule R75). -/
  alphabet : List (BitVec 8)
  /-- BYPASS (rule R77). -/
  bypass : List (BitVec 8)
  /-- WS, the whitespace set (rule R7). -/
  ws : List (BitVec 8)
  /-- NL, the byte that ends a line (rule R78). -/
  nl : BitVec 8
  /-- ACC_MAX (rule R204). -/
  accMax : Nat
  /-- CHUNK_MAX; `none` is unbounded (rule R201). -/
  chunkMax : Option Nat
  /-- TPS, ticks per second (rule R10). -/
  tps : Nat
  /-- PFX_TQ (rule R86). -/
  pfxTq : List (BitVec 8)
  /-- PFX_TR (rule R86). -/
  pfxTr : List (BitVec 8)
  /-- PFX_PS (rule R86). -/
  pfxPs : List (BitVec 8)
  /-- INT_W, the two's complement width of an INT (rule R10). -/
  intW : Nat
  /-- JSON_MAX_DEPTH (rule R81). -/
  jsonMaxDepth : Nat
  /-- CRC_SPAN_PAD: whether the checksum also covers the framing pad (rule R105, 90_conflicts.md C3). -/
  crcSpanPad : Bool
  /-- MQ_DEPTH; `none` is unbounded (rules R24, R272). -/
  mqDepth : Option Nat
deriving DecidableEq, Repr

/-- The base64url alphabet of rule R75: `A`-`Z`, `a`-`z`, `0`-`9`, `-`, `_`. -/
def Config.base64url : List (BitVec 8) :=
  ((List.range 26).map fun v => BitVec.ofNat 8 (0x41 + v)) ++
  ((List.range 26).map fun v => BitVec.ofNat 8 (0x61 + v)) ++
  ((List.range 10).map fun v => BitVec.ofNat 8 (0x30 + v)) ++ [0x2D, 0x5F]

/-- The defaults of rule R7. -/
def Params.default : Params where
  crcPoly := 0x0BEA7
  crcXorOut := 0
  alphabet := Config.base64url
  bypass := [0x7E, 0x7E, 0x7E]
  ws := [0x09, 0x0A, 0x0B, 0x0C, 0x0D, 0x20]
  nl := 0x0A
  accMax := 32768
  chunkMax := none
  tps := 1000
  pfxTq := [0x54, 0x51]
  pfxTr := [0x54, 0x52]
  pfxPs := [0x50, 0x53]
  intW := 64
  jsonMaxDepth := 64
  crcSpanPad := false
  mqDepth := none

/-- PFX_PUBLISH, the empty byte string: a constant of rule R6, not a parameter. -/
def Config.pfxPublish : Bytes := []

/-- INTERVAL, 5 seconds (rule R6). -/
def Config.intervalSeconds : Int := 5

/-- GRACE, 1 second (rule R6). -/
def Config.graceSeconds : Int := 1

/-- MS_PER_S (rule R6). -/
def Config.msPerSecond : Int := 1000

/-- SCHEMA_LOOKUP (rule R207): the external registry, an arbitrary total pure function; the empty byte
string means "not found" (log 8). -/
opaque Config.schemaLookup : List (BitVec 8) → List (BitVec 8)

/-- The framing pad that CRC_SPAN_PAD = true adds to the span, of the bytes that stand before the checksum field:
the spec specifies it no further (90_conflicts.md C3), so it is free (log 16). -/
opaque Config.framingPad : List (BitVec 8) → List (BitVec 8)

/-- The value S.LINE_T holds after the n-th RESET instruction: left unspecified by rule R260, so free
(log 2). -/
opaque Config.unspecifiedLineT : Nat → Int

/-- The value of field number `k` of S.TS.PEND after the n-th RESET instruction: left unspecified by rule
R260, so free (log 3). -/
opaque Config.unspecifiedPend : (n k : Nat) → Int

end Sys2Proof
end

