-- ==== Sys2Proof/Machine/Operands.lean ====
section
/-! DEFINITION. The operand forms every rule uses: character classes (00_scope.md rule R13), whitespace
stripping (R9), the INT range (R10), the base64url characters (30_encoding.md rule R75), and what a legal
set of parameters is (R7, 70_reset_and_hazards.md rule R261). -/

namespace Sys2Proof

/-- ASCII text as bytes (rule R9). -/
def ascii (s : String) : Bytes := s.toList.map fun ch => BitVec.ofNat 8 ch.toNat

/-- Membership in WORD, the 63 bytes `[A-Za-z0-9_]` (rule R13). -/
def isWord (b : Byte) : Bool :=
  (0x41 ≤ b && b ≤ 0x5A) || (0x61 ≤ b && b ≤ 0x7A) || (0x30 ≤ b && b ≤ 0x39) || b == 0x5F

/-- Membership in B64URL, WORD plus `-` (rule R13). -/
def isB64Url (b : Byte) : Bool := isWord b || b == 0x2D

/-- Membership in OPENERS (rule R13). -/
def isOpener (b : Byte) : Bool := b == 0x22 || b == 0x7B || b == 0x5B

/-- Membership in CLOSERS (rule R13). -/
def isCloser (b : Byte) : Bool := b == 0x22 || b == 0x7D || b == 0x5D

/-- A decimal digit. -/
def isDigit (b : Byte) : Bool := 0x30 ≤ b && b ≤ 0x39

/-- Membership in WS (rule R7). -/
def Params.isWs (c : Params) (b : Byte) : Bool := c.ws.contains b

/-- `rstrip_WS` (rule R9), for any class of bytes. -/
def rstripBy (p : Byte → Bool) (b : Bytes) : Bytes := (b.reverse.dropWhile p).reverse

/-- `strip_WS` (rule R9), for any class of bytes. -/
def stripBy (p : Byte → Bool) (b : Bytes) : Bytes := rstripBy p (b.dropWhile p)

/-- The INT range of rule R10: `-2^(INT_W-1) <= v < 2^(INT_W-1)`. -/
def Params.inInt (c : Params) (v : Int) : Bool :=
  decide (-(2 ^ (c.intW - 1) : Int) ≤ v) && decide (v < (2 ^ (c.intW - 1) : Int))

/-- `B64_ALPHABET[v]` (rule R75). -/
def Params.b64Char (c : Params) (v : BitVec 6) : Byte := c.alphabet.getD v.toNat 0

/-- `val(c)`, the index of a byte in the alphabet (rule R76). -/
def Params.b64Val (c : Params) (b : Byte) : BitVec 6 := BitVec.ofNat 6 (c.alphabet.idxOf b)

/-- The prefixes of the four registered variants, in the order of rule R86. -/
def Params.registeredPrefixes (c : Params) : List Bytes :=
  [Config.pfxPublish, c.pfxTq, c.pfxTr, c.pfxPs]

/-- The framing pad the checksum covers beside prefix and payload, `before` being the bytes before the checksum
field: none with CRC_SPAN_PAD = false (rule R105); DESIGN CHOICE, a free value with true (log 16). -/
def Params.pad (c : Params) (before : Bytes) : Bytes :=
  if c.crcSpanPad then Config.framingPad before else []

/-- Whether a queue of the given length can take one more element (MQ_DEPTH, rules R24, R272). -/
def Params.queueHasRoom (c : Params) (length : Nat) : Bool := c.mqDepth.all fun d => decide (length < d)

/-- An element is appended to a queue. DESIGN CHOICE: in a queue of finite depth an element that finds it full is
dropped, without an event; a departure from the spec, which gives no policy (U8; log 16). -/
def Params.pushQueue {α : Type} (c : Params) (q : List α) (a : α) : List α :=
  if c.queueHasRoom q.length then q ++ [a] else q

/-- What must be in place before the rules hold (rules R7, R13, R261 (1) and (2), decisions D7, D8, D17).
The clauses on WS and NL beyond those rules are DEDUCED: the framing rules need them (log 22). -/
def Params.legal (c : Params) : Bool :=
  -- B64_ALPHABET is the 64 bytes of B64URL, each once (R13, R75)
  (c.alphabet.length == 64 && decide c.alphabet.Nodup && c.alphabet.all isB64Url) &&
  -- BYPASS is three bytes, none in B64URL, none in WS (D7)
  (c.bypass.length == 3 && c.bypass.all fun b => !isB64Url b && !c.isWs b && b != c.nl) &&
  -- WS holds the separator a transmitter emits and no byte of B64URL, OPENERS, CLOSERS (log 22)
  (c.isWs 0x20 && c.ws.all fun b => !isB64Url b && !isOpener b && !isCloser b) &&
  -- NL is a control byte, so no emitted payload, checksum or separator holds it (R83, log 22)
  decide (c.nl < 0x20) &&
  -- the positive parameters (R7, R261)
  (decide (1 ≤ c.accMax) && decide (1 ≤ c.tps) && decide (1 ≤ c.intW) && decide (1 ≤ c.jsonMaxDepth) &&
    c.chunkMax != some 0 && c.mqDepth != some 0) &&
  -- the four prefixes: word characters, pairwise different (R7)
  (c.registeredPrefixes.all (·.all isWord) && decide c.registeredPrefixes.Nodup)

end Sys2Proof
end

