-- ==== Sys2Proof/Syntax.lean ====
section
/-! DEFINITION. The value types of the block (10_state.md rules R31, R32, 42_payload.md rule R140), the
samples of its inputs, and `Instr`: one constructor for each of the 38 rows of spec/opcode_table.json. -/

namespace Sys2Proof

/-- A Line (rule R31): the pair (prefix, payload). -/
structure Line where
  pfx : Bytes
  payload : Bytes
deriving DecidableEq, Repr

/-- Publish (rule R87). -/
structure Publish where
  topic : Bytes
  body : Bytes
  msec : Int
  schemaName : Bytes
deriving DecidableEq, Repr

/-- TimeQuery (rule R88). -/
structure TimeQuery where
  yyyymmdd : Int
  hhmmssmmm : Int
  profileId : Int
  profileSeq : Int
deriving DecidableEq, Repr

/-- TimeReply (rule R89). -/
structure TimeReply where
  yyyymmdd : Int
  hhmmssmmm : Int
  rxMsec : Int
  txMsec : Int
  profileId : Int
  profileLen : Int
deriving DecidableEq, Repr

/-- ProfileStart (rule R90). -/
structure ProfileStart where
  profileId : Int
  entryCount : Int
  firmware : Bytes
  version : Bytes
  mode : Bytes
deriving DecidableEq, Repr

/-- A value of the closed variant set (rule R32). -/
inductive Variant where
  | publish (p : Publish)
  | timeQuery (q : TimeQuery)
  | timeReply (r : TimeReply)
  | profileStart (p : ProfileStart)
deriving DecidableEq, Repr

/-- The names of the four registered variants (rule R86). -/
inductive VariantName where
  | publish | timeQuery | timeReply | profileStart
deriving DecidableEq, Repr

/-- The field types of rules R82 to R84. -/
inductive FieldType where
  | int | str | raw
deriving DecidableEq, Repr

/-- A value of one field. -/
inductive FieldValue where
  | int (v : Int)
  | str (b : Bytes)
  | raw (b : Bytes)
deriving DecidableEq, Repr

/-- One field of a descriptor; `dflt = none` marks a required field (rule R140). -/
structure FieldDesc where
  name : String
  ty : FieldType
  dflt : Option FieldValue
deriving DecidableEq, Repr

/-- A variant descriptor (rule R140). -/
structure Descriptor where
  name : VariantName
  pfx : Bytes
  fields : List FieldDesc
deriving DecidableEq, Repr

/-- The verdict of an accepted line (rule R120). -/
inductive Verdict where
  | valid | bypass
deriving DecidableEq, Repr

/-- The result of LINE_PARSE (rule R120). -/
inductive ParseResult where
  | ok (line : Line) (verdict : Verdict)
  | structural
  | cksum (received computed : U18)
deriving DecidableEq, Repr

/-- The result of PL_DEC (rule R142). -/
inductive PlDecResult where
  | known (v : Variant)
  | unknown
  | decodeError
deriving DecidableEq, Repr

/-- What the checksum field of a line holds: its computed checksum, or the bypass token (rule R70). -/
inductive CkForm where
  | value | bypass
deriving DecidableEq, Repr

/-- One sample of the block's inputs: a command on the command port, with its 2-bit code and the operand
lines (an operation reads those its row of rule R91 names), or the RESET input with its operand and the two
configuration inputs RESET samples (log 9). -/
inductive PortInput where
  | command (op : BitVec 2) (data : Bytes) (time : Time) (txEmpty : BitVec 1)
  | reset (t0 : Time) (profileId profileLen : Int)
deriving DecidableEq, Repr

/-- An encoded instruction: a sample of the inputs, the bytes of one wire line without its NL, or the three
bytes of a checksum field. -/
inductive Encoded where
  | port (p : PortInput)
  | line (b : Bytes)
  | ckfield (b : Bytes)
deriving DecidableEq, Repr

/-- The format column of spec/opcode_table.json. -/
inductive Format where
  | cmd | resetInput | line | ckfield | internal
deriving DecidableEq, Repr

/-- The operations of the block, one constructor for each row of spec/opcode_table.json. -/
inductive Instr where
  /-- FEED (R201): a chunk of received bytes and its arrival time. -/
  | feed (data : Bytes) (at_ : Time)
  /-- DRAIN (R210). -/
  | drain
  /-- NEXT_SEND (R211). -/
  | nextSend (now : Time) (txEmpty : Bool)
  /-- RESERVED_OP3 (R92 (g)). -/
  | reservedOp3
  /-- RESET (R260), with the sampled PROFILE_ID and PROFILE_LEN. -/
  | reset (t0 : Time) (profileId profileLen : Int)
  /-- LINE.PUBLISH (R150). -/
  | linePublish (ck : CkForm) (p : Publish)
  /-- LINE.TQ (R151). -/
  | lineTq (ck : CkForm) (q : TimeQuery)
  /-- LINE.TR (R152). -/
  | lineTr (ck : CkForm) (r : TimeReply)
  /-- LINE.PS (R153). -/
  | linePs (ck : CkForm) (p : ProfileStart)
  /-- LINE.UNKNOWN (R233). -/
  | lineUnknown (ck : CkForm) (l : Line)
  /-- CKFIELD.VALUE (R76): the three 6-bit groups, `c0` bits 17:12, `c1` bits 11:6, `c2` bits 5:0. -/
  | ckfieldValue (c0 c1 c2 : BitVec 6)
  /-- CKFIELD.BYPASS (R77). -/
  | ckfieldBypass
  /-- CRC18 (R100). -/
  | crc18 (span : Bytes)
  /-- CK_ENC (R102). -/
  | ckEnc (v : U18)
  /-- CK_DEC (R103). -/
  | ckDec (field : Bytes)
  /-- CK_VERIFY (R104). -/
  | ckVerify (span field : Bytes)
  /-- LINE_PARSE (R120). -/
  | lineParse (l : Bytes)
  /-- LINE_SER (R126). -/
  | lineSer (line : Line)
  /-- PL_ENC (R141). -/
  | plEnc (v : Variant)
  /-- PL_DEC (R142). -/
  | plDec (line : Line)
  /-- SPLIT_ARRAY (R143). -/
  | splitArray (p : Bytes)
  /-- ENC_INT (R144). -/
  | encInt (v : Int)
  /-- DEC_INT (R145). -/
  | decInt (e : Bytes)
  /-- ENC_STR (R146). -/
  | encStr (b : Bytes)
  /-- DEC_STR (R147). -/
  | decStr (e : Bytes)
  /-- ENC_RAW (R148). -/
  | encRaw (b : Bytes)
  /-- DEC_RAW (R149). -/
  | decRaw (e : Bytes)
  /-- MSEC (R171). -/
  | msec (t : Time)
  /-- UTC_PACK (R172). -/
  | utcPack (now : Time)
  /-- TS_HAS (R173). -/
  | tsHas (now : Time)
  /-- TS_GET (R174 to R176). -/
  | tsGet (now : Time)
  /-- TS_ONQ (R178). -/
  | tsOnq (q : TimeQuery) (at_ : Time)
  /-- TS_ONR (R179). -/
  | tsOnr (r : TimeReply) (at_ : Time)
  /-- LINE_PROCESS (R205). -/
  | lineProcess (line : Bytes)
  /-- DISPATCH (R206). -/
  | dispatch (v : Variant)
  /-- SCHEMA_LOOKUP (R207). -/
  | schemaLookup (name : Bytes)
  /-- SCHEMA_RESOLVE (R208). -/
  | schemaResolve (schemaName : Bytes)
  /-- MK_MSG (R209). -/
  | mkMsg (p : Publish)
deriving DecidableEq, Repr

/-- The format column of an instruction's row. -/
def Instr.format : Instr → Format
  | .feed _ _ => .cmd
  | .drain => .cmd
  | .nextSend _ _ => .cmd
  | .reservedOp3 => .cmd
  | .reset _ _ _ => .resetInput
  | .linePublish _ _ => .line
  | .lineTq _ _ => .line
  | .lineTr _ _ => .line
  | .linePs _ _ => .line
  | .lineUnknown _ _ => .line
  | .ckfieldValue _ _ _ => .ckfield
  | .ckfieldBypass => .ckfield
  | .crc18 _ => .internal
  | .ckEnc _ => .internal
  | .ckDec _ => .internal
  | .ckVerify _ _ => .internal
  | .lineParse _ => .internal
  | .lineSer _ => .internal
  | .plEnc _ => .internal
  | .plDec _ => .internal
  | .splitArray _ => .internal
  | .encInt _ => .internal
  | .decInt _ => .internal
  | .encStr _ => .internal
  | .decStr _ => .internal
  | .encRaw _ => .internal
  | .decRaw _ => .internal
  | .msec _ => .internal
  | .utcPack _ => .internal
  | .tsHas _ => .internal
  | .tsGet _ => .internal
  | .tsOnq _ _ => .internal
  | .tsOnr _ _ => .internal
  | .lineProcess _ => .internal
  | .dispatch _ => .internal
  | .schemaLookup _ => .internal
  | .schemaResolve _ => .internal
  | .mkMsg _ => .internal

end Sys2Proof
end

