-- ==== Sys2Proof/Machine/ChecksumCodec.lean ====
section
/-! DEFINITION. The Checksum Codec as functions (40_checksum.md rules R100 to R105, 30_encoding.md rules R74
to R77). -/

namespace Sys2Proof

/-- One shift of the CRC register (rule R100). -/
def crcShift (poly : U18) (r : U18) : U18 :=
  if r.msb then (r <<< 1) ^^^ poly else r <<< 1

/-- One byte enters at bits 17:10 and is shifted through, most significant bit first (rule R100). -/
def crcByte (poly : U18) (r : U18) (b : Byte) : U18 :=
  (crcShift poly)^[8] (r ^^^ (b.zeroExtend 18 <<< 10))

/-- CRC18 (rule R100), CRC_INIT = 0. -/
def crc18 (c : Params) (span : Bytes) : U18 :=
  span.foldl (crcByte c.crcPoly) 0 ^^^ c.crcXorOut

/-- CK_ENC (rule R102): the characters of bits 17:12, 11:6 and 5:0. -/
def ckEnc (c : Params) (v : U18) : Bytes :=
  [c.b64Char (v.extractLsb' 12 6), c.b64Char (v.extractLsb' 6 6), c.b64Char (v.extractLsb' 0 6)]

/-- The 18-bit value of three 6-bit groups (rule R76). -/
def ckAssemble (c0 c1 c2 : BitVec 6) : U18 :=
  (c0.zeroExtend 18 <<< 12) ||| (c1.zeroExtend 18 <<< 6) ||| c2.zeroExtend 18

/-- CK_DEC (rule R103); `none` outside its operand domain, three bytes of B64URL. -/
def ckDec (c : Params) (f : Bytes) : Option U18 :=
  match f with
  | [f0, f1, f2] =>
    if isB64Url f0 && isB64Url f1 && isB64Url f2 then
      some (ckAssemble (c.b64Val f0) (c.b64Val f1) (c.b64Val f2))
    else none
  | _ => none

/-- CK_VERIFY (rule R104): (ok, received, computed); `none` where CK_DEC has no meaning. -/
def ckVerify (c : Params) (span f : Bytes) : Option (Bool × U18 × U18) :=
  (ckDec c f).map fun received =>
    (decide (received = crc18 c span), received, crc18 c span)

/-- The span of a line whose checksum field stands after `before`: `prefix ++ payload`, with the framing pad where
CRC_SPAN_PAD asks for it (rule R105; log 16). Transmitter and receiver use the same span. -/
def Params.span (c : Params) (before : Bytes) (l : Line) : Bytes := l.pfx ++ l.payload ++ c.pad before

/-- The three bytes a checksum field of each form holds for a line whose bytes before it are `before` (rules R76,
R77). -/
def ckFieldOf (c : Params) (ck : CkForm) (before : Bytes) (l : Line) : Bytes :=
  match ck with
  | .value => ckEnc c (crc18 c (c.span before l))
  | .bypass => c.bypass

end Sys2Proof
end

