-- ==== Sys2Proof/Machine/FramerCodec.lean ====
section
/-! DEFINITION. The Line Framer as functions: LINE_PARSE in its five steps (41_framer.md rules R120 to R125)
and LINE_SER (rule R126). -/

namespace Sys2Proof

/-- Step 1 (rule R121): what stands before the checksum field, and the field; `none` for Struct. -/
def splitCkField (c : Params) (l : Bytes) : Option (Bytes × Bytes) :=
  let t := rstripBy c.isWs l
  if t.length < 3 then none
  else
    let ck := t.drop (t.length - 3)
    if ck = c.bypass || ck.all isB64Url then some (t.take (t.length - 3), ck) else none

/-- Alternative A of step 3 (rule R123): opener and closer of the same kind. -/
def structuredShape (q : Bytes) : Bool :=
  decide (2 ≤ q.length) &&
    ((q.head? == some 0x22 && q.getLast? == some 0x22) ||
     (q.head? == some 0x7B && q.getLast? == some 0x7D) ||
     (q.head? == some 0x5B && q.getLast? == some 0x5D))

/-- A run that begins and ends with a WS byte and holds exactly one token between (rules R123, R124). -/
def paddedToken (c : Params) (r : Bytes) : Bool :=
  r.head?.any c.isWs && r.getLast?.any c.isWs &&
    decide (1 ≤ (stripBy c.isWs r).length) && (stripBy c.isWs r).all fun b => !c.isWs b

/-- Steps 2 to 4 (rules R122 to R124): prefix and payload of the bytes before the checksum field. -/
def splitLine (c : Params) (b : Bytes) : Option Line :=
  let lead := b.dropWhile c.isWs
  let p := lead.takeWhile isWord
  let r := lead.dropWhile isWord
  if structuredShape (stripBy c.isWs r) then some ⟨p, stripBy c.isWs r⟩
  else if paddedToken c r then some ⟨p, stripBy c.isWs r⟩
  else if decide (3 ≤ b.length) && paddedToken c b then some ⟨[], stripBy c.isWs b⟩
  else none

/-- Step 5 (rule R125): the verdict on a line whose checksum field `ck` stands after `before`. -/
def lineVerdict (c : Params) (before : Bytes) (line : Line) (ck : Bytes) : ParseResult :=
  if ck = c.bypass then .ok line .bypass
  else
    match ckVerify c (c.span before line) ck with
    | none => .structural
    | some (true, _, _) => .ok line .valid
    | some (false, received, computed) => .cksum received computed

/-- LINE_PARSE (rule R120): the five steps in order. -/
def lineParse (c : Params) (l : Bytes) : ParseResult :=
  match splitCkField c l with
  | none => .structural
  | some (b, ck) =>
    match splitLine c b with
    | none => .structural
    | some line => lineVerdict c b line ck

/-- The separator before (after) a payload: one space unless it begins (ends) with a quote, brace or bracket
(rule R126). -/
def sepUnless (delim : Byte → Bool) (edge : Option Byte) : Bytes :=
  if edge.any delim then [] else [0x20]

/-- What LINE_SER emits before the checksum field (rule R126). -/
def framedBytes (l : Line) : Bytes :=
  l.pfx ++ sepUnless isOpener l.payload.head? ++ l.payload ++ sepUnless isCloser l.payload.getLast?

/-- LINE_SER for a line that keeps the Line invariant (rule R126), with the checksum field given. -/
def frameLine (l : Line) (ckf : Bytes) : Bytes := framedBytes l ++ ckf

/-- LINE_SER (rule R126); `none` for CONTRACT, a prefix with a byte outside WORD. -/
def lineSer (c : Params) (l : Line) : Option Bytes :=
  if l.pfx.all isWord then some (frameLine l (ckFieldOf c .value (framedBytes l) l)) else none

end Sys2Proof
end

