-- ==== Sys2Proof/Machine/Json.lean ====
section
/-! DEFINITION. The JSON recognizer of 30_encoding.md rules R80 and R81, as a machine that reads one byte
at a time and keeps a stack of open arrays and objects, and SPLIT_ARRAY (42_payload.md rule R143), which
runs it over a payload and collects the elements of the outer array. -/

namespace Sys2Proof

/-- `jws` of rule R80. -/
def isJws (b : Byte) : Bool := b == 0x20 || b == 0x09 || b == 0x0A || b == 0x0D

/-- The value of a hexadecimal digit, either case (rule R80). -/
def hexVal (b : Byte) : Option (BitVec 4) :=
  if 0x30 ≤ b && b ≤ 0x39 then some ((b - 0x30).truncate 4)
  else if 0x61 ≤ b && b ≤ 0x66 then some ((b - 0x61 + 10).truncate 4)
  else if 0x41 ≤ b && b ≤ 0x46 then some ((b - 0x41 + 10).truncate 4)
  else none

/-- What is open around the current position. -/
inductive JCtx where
  | arr | obj
deriving DecidableEq, Repr

/-- Where the recognizer stands in the grammar of rule R80; `key` marks a member name. -/
inductive JMode where
  /-- a value must come -/
  | value
  /-- just inside `[`: a value or `]` -/
  | valueOrEnd
  /-- just inside an opening brace: a member or the closing brace -/
  | keyOrEnd
  /-- a member must come -/
  | key
  /-- the colon after a member name must come -/
  | colon
  /-- a value has ended -/
  | after
  /-- inside a string -/
  | str (key : Bool)
  /-- after a backslash in a string -/
  | esc (key : Bool)
  /-- `left` hexadecimal digits of a `\u` escape still to come -/
  | hex (key : Bool) (left : Nat)
  /-- the rest of a literal still to come -/
  | lit (rest : Bytes)
  /-- after the `-` of a number -/
  | numMinus
  /-- after a leading `0` -/
  | numZero
  /-- in the digits of the integer part -/
  | numInt
  /-- after the point -/
  | numDot
  /-- in the digits of the fraction -/
  | numFrac
  /-- after `e` or `E` -/
  | numE
  /-- after the sign of the exponent -/
  | numESign
  /-- in the digits of the exponent -/
  | numExp
deriving DecidableEq, Repr

/-- A configuration of the recognizer; the stack has the innermost context first. -/
structure JState where
  mode : JMode
  stack : List JCtx
deriving DecidableEq, Repr

/-- A value may end here. -/
def JMode.complete : JMode → Bool
  | .after => true
  | .numZero => true
  | .numInt => true
  | .numFrac => true
  | .numExp => true
  | _ => false

/-- Opens an array or object, within the depth bound of rule R81. -/
def jOpen (maxDepth : Nat) (stack : List JCtx) (ctx : JCtx) (mode : JMode) : Option JState :=
  if stack.length < maxDepth then some ⟨mode, ctx :: stack⟩ else none

/-- Closes the innermost array or object, which must be of the stated kind. -/
def jClose (stack : List JCtx) (ctx : JCtx) : Option JState :=
  match stack with
  | [] => none
  | top :: rest => if top = ctx then some ⟨.after, rest⟩ else none

/-- The byte after which a value begins (rule R80, `value`). -/
def jBegin (maxDepth : Nat) (stack : List JCtx) (b : Byte) : Option JState :=
  if b = 0x22 then some ⟨.str false, stack⟩
  else if b = 0x7B then jOpen maxDepth stack .obj .keyOrEnd
  else if b = 0x5B then jOpen maxDepth stack .arr .valueOrEnd
  else if b = 0x2D then some ⟨.numMinus, stack⟩
  else if b = 0x30 then some ⟨.numZero, stack⟩
  else if isDigit b then some ⟨.numInt, stack⟩
  else if b = 0x74 then some ⟨.lit [0x72, 0x75, 0x65], stack⟩
  else if b = 0x66 then some ⟨.lit [0x61, 0x6C, 0x73, 0x65], stack⟩
  else if b = 0x6E then some ⟨.lit [0x75, 0x6C, 0x6C], stack⟩
  else none

/-- The byte after a complete value: whitespace, a comma, or the closer of the innermost context. -/
def jAfter (stack : List JCtx) (b : Byte) : Option JState :=
  if isJws b then some ⟨.after, stack⟩
  else if b = 0x2C then
    match stack with
    | [] => none
    | .arr :: _ => some ⟨.value, stack⟩
    | .obj :: _ => some ⟨.key, stack⟩
  else if b = 0x5D then jClose stack .arr
  else if b = 0x7D then jClose stack .obj
  else none

/-- One byte of the recognizer (rules R80, R81); `none` is outside the grammar. -/
def jStep (maxDepth : Nat) (st : JState) (b : Byte) : Option JState :=
  match st.mode with
  | .value => if isJws b then some st else jBegin maxDepth st.stack b
  | .valueOrEnd =>
    if isJws b then some st
    else if b = 0x5D then jClose st.stack .arr
    else jBegin maxDepth st.stack b
  | .keyOrEnd =>
    if isJws b then some st
    else if b = 0x22 then some ⟨.str true, st.stack⟩
    else if b = 0x7D then jClose st.stack .obj
    else none
  | .key =>
    if isJws b then some st
    else if b = 0x22 then some ⟨.str true, st.stack⟩
    else none
  | .colon =>
    if isJws b then some st
    else if b = 0x3A then some ⟨.value, st.stack⟩
    else none
  | .after => jAfter st.stack b
  | .str key =>
    if b = 0x22 then some ⟨if key then .colon else .after, st.stack⟩
    else if b = 0x5C then some ⟨.esc key, st.stack⟩
    else if b < 0x20 then none
    else some st
  | .esc key =>
    if b = 0x75 then some ⟨.hex key 4, st.stack⟩
    else if b ∈ [0x22, 0x5C, 0x2F, 0x62, 0x66, 0x6E, 0x72, 0x74] then some ⟨.str key, st.stack⟩
    else none
  | .hex key left =>
    if (hexVal b).isSome then
      some ⟨if left ≤ 1 then .str key else .hex key (left - 1), st.stack⟩
    else none
  | .lit rest =>
    match rest with
    | [] => none
    | x :: xs => if b = x then some ⟨if xs = [] then .after else .lit xs, st.stack⟩ else none
  | .numMinus =>
    if b = 0x30 then some ⟨.numZero, st.stack⟩
    else if isDigit b then some ⟨.numInt, st.stack⟩
    else none
  | .numZero =>
    if b = 0x2E then some ⟨.numDot, st.stack⟩
    else if b = 0x65 || b = 0x45 then some ⟨.numE, st.stack⟩
    else jAfter st.stack b
  | .numInt =>
    if isDigit b then some st
    else if b = 0x2E then some ⟨.numDot, st.stack⟩
    else if b = 0x65 || b = 0x45 then some ⟨.numE, st.stack⟩
    else jAfter st.stack b
  | .numDot => if isDigit b then some ⟨.numFrac, st.stack⟩ else none
  | .numFrac =>
    if isDigit b then some st
    else if b = 0x65 || b = 0x45 then some ⟨.numE, st.stack⟩
    else jAfter st.stack b
  | .numE =>
    if b = 0x2B || b = 0x2D then some ⟨.numESign, st.stack⟩
    else if isDigit b then some ⟨.numExp, st.stack⟩
    else none
  | .numESign => if isDigit b then some ⟨.numExp, st.stack⟩ else none
  | .numExp => if isDigit b then some st else jAfter st.stack b

/-- The recognizer over a byte string. -/
def jRun (maxDepth : Nat) : JState → Bytes → Option JState
  | st, [] => some st
  | st, b :: bs => (jStep maxDepth st b).bind fun st' => jRun maxDepth st' bs

/-- `b` is one JSON value without surrounding whitespace that may stand as an element of a payload array:
its own arrays and objects open at depth 2 and more (rules R80, R81, R84). -/
def Params.isElement (c : Params) (b : Bytes) : Bool :=
  match jRun (c.jsonMaxDepth - 1) ⟨.value, []⟩ b with
  | none => false
  | some st =>
    st.stack == [] && st.mode.complete &&
      (b.head?.all fun x => !isJws x) && (b.getLast?.all fun x => !isJws x)

/-- The splitter: the recognizer, the bytes since the last separator of the outer array, and the elements
found. -/
structure SplitState where
  js : JState
  cur : Bytes
  els : List Bytes
deriving DecidableEq, Repr

/-- One byte of SPLIT_ARRAY (rule R143). At depth 1 a comma outside a string, and the closing bracket, end an
element; outside the outer array only whitespace may stand. -/
def splitStep (maxDepth : Nat) (st : SplitState) (b : Byte) : Option SplitState :=
  if st.js.stack = [] && !isJws b && b != 0x5B then none
  else
    match jStep maxDepth st.js b with
    | none => none
    | some js =>
      if st.js.stack = [] then some { st with js := js }
      else if st.js.stack = [.arr] && js.mode = .value && b = 0x2C then
        some ⟨js, [], st.els ++ [stripBy isJws st.cur]⟩
      else if js.stack = [] then
        if st.js.mode = .valueOrEnd then some ⟨js, [], st.els⟩
        else some ⟨js, [], st.els ++ [stripBy isJws st.cur]⟩
      else some ⟨js, st.cur ++ [b], st.els⟩

/-- SPLIT_ARRAY over a byte string, from a given configuration. -/
def splitRun (maxDepth : Nat) : SplitState → Bytes → Option SplitState
  | st, [] => some st
  | st, b :: bs => (splitStep maxDepth st b).bind fun st' => splitRun maxDepth st' bs

/-- SPLIT_ARRAY (rule R143): the elements of a payload of the form `jws array jws`, `none` for Error. -/
def splitArray (c : Params) (p : Bytes) : Option (List Bytes) :=
  match splitRun c.jsonMaxDepth ⟨⟨.value, []⟩, [], []⟩ p with
  | none => none
  | some st => if st.js = ⟨.after, []⟩ then some st.els else none

end Sys2Proof
end

