-- ==== Sys2Proof/Machine/FieldCodec.lean ====
section
/-! DEFINITION. The field codecs ENC_INT, DEC_INT, ENC_STR, DEC_STR, ENC_RAW and DEC_RAW (42_payload.md rules
R144 to R149, 30_encoding.md rules R82 to R84). -/

namespace Sys2Proof

/-- The byte of a decimal digit below ten. -/
def digitByte (d : Nat) : Byte := BitVec.ofNat 8 (0x30 + d)

/-- Decimal digits, most significant first, at most `fuel` of them. -/
def decimalAux : Nat → Nat → Bytes
  | 0, _ => []
  | fuel + 1, n =>
    if n < 10 then [digitByte n] else decimalAux fuel (n / 10) ++ [digitByte (n % 10)]

/-- The shortest decimal text of a natural number (rule R82); a number has no more decimal digits than
binary ones. -/
def decimal (n : Nat) : Bytes := decimalAux (Nat.log2 n + 1) n

/-- ENC_INT (rule R144). -/
def encInt (v : Int) : Bytes :=
  if v < 0 then 0x2D :: decimal v.natAbs else decimal v.natAbs

/-- The number a run of decimal digits stands for. -/
def decimalValue (ds : Bytes) : Nat := ds.foldl (fun n d => 10 * n + (d.toNat - 0x30)) 0

/-- `"0" | DIGIT1-9 DIGIT*` (rule R82). -/
def decNat (ds : Bytes) : Option Nat :=
  match ds with
  | [] => none
  | d :: rest =>
    if !ds.all isDigit then none
    else if d = 0x30 && rest != [] then none
    else some (decimalValue ds)

/-- DEC_INT (rule R145): the whole element, within the INT range; `none` for Error. -/
def decInt (c : Params) (e : Bytes) : Option Int :=
  let v : Option Int :=
    match e with
    | [] => none
    | s :: ds => if s = 0x2D then (decNat ds).map fun n => -(n : Int) else (decNat e).map fun n => (n : Int)
  v.bind fun v => if c.inInt v then some v else none

/-- A lower-case hexadecimal digit (rule R83). -/
def hexDigit (v : BitVec 4) : Byte :=
  if v < 10 then 0x30 + v.zeroExtend 8 else 0x61 + (v.zeroExtend 8 - 10)

/-- The bytes ENC_STR emits for one byte of the value (rule R146). -/
def encStrByte (b : Byte) : Bytes :=
  if b = 0x22 then [0x5C, 0x22]
  else if b = 0x5C then [0x5C, 0x5C]
  else if b = 0x08 then [0x5C, 0x62]
  else if b = 0x09 then [0x5C, 0x74]
  else if b = 0x0A then [0x5C, 0x6E]
  else if b = 0x0C then [0x5C, 0x66]
  else if b = 0x0D then [0x5C, 0x72]
  else if b < 0x20 then
    [0x5C, 0x75, 0x30, 0x30, hexDigit (b.extractLsb' 4 4), hexDigit (b.extractLsb' 0 4)]
  else [b]

/-- ENC_STR (rule R146). -/
def encStr (s : Bytes) : Bytes := [0x22] ++ s.flatMap encStrByte ++ [0x22]

/-- The UTF-8 bytes of a code point below 0x10000 (rule R147). -/
def utf8Bmp (x : BitVec 16) : Bytes :=
  if x < 0x80 then [x.truncate 8]
  else if x < 0x800 then
    [0xC0 ||| (x.extractLsb' 6 5).zeroExtend 8, 0x80 ||| (x.extractLsb' 0 6).zeroExtend 8]
  else
    [0xE0 ||| (x.extractLsb' 12 4).zeroExtend 8, 0x80 ||| (x.extractLsb' 6 6).zeroExtend 8,
      0x80 ||| (x.extractLsb' 0 6).zeroExtend 8]

/-- The code point of a surrogate pair (rule R83). -/
def surrogatePair (hi lo : BitVec 16) : BitVec 21 :=
  0x10000 + ((hi - 0xD800).zeroExtend 21 <<< 10) + (lo - 0xDC00).zeroExtend 21

/-- The four UTF-8 bytes of a code point from 0x10000 up (rule R147). -/
def utf8Supplementary (x : BitVec 21) : Bytes :=
  [0xF0 ||| (x.extractLsb' 18 3).zeroExtend 8, 0x80 ||| (x.extractLsb' 12 6).zeroExtend 8,
    0x80 ||| (x.extractLsb' 6 6).zeroExtend 8, 0x80 ||| (x.extractLsb' 0 6).zeroExtend 8]

/-- A high surrogate, 0xD800 to 0xDBFF. -/
def isHighSurrogate (x : BitVec 16) : Bool := 0xD800 ≤ x && x ≤ 0xDBFF

/-- A low surrogate, 0xDC00 to 0xDFFF. -/
def isLowSurrogate (x : BitVec 16) : Bool := 0xDC00 ≤ x && x ≤ 0xDFFF

/-- Where DEC_STR stands between the quotes; `hi` is a high surrogate that waits for its low one. -/
inductive StrMode where
  | plain
  | esc
  | hex (left : Nat) (acc : BitVec 16) (hi : Option (BitVec 16))
  | lowBackslash (hi : BitVec 16)
  | lowU (hi : BitVec 16)
deriving DecidableEq, Repr

/-- A complete `\u` escape (rule R147). -/
def strCodePoint (x : BitVec 16) (hi : Option (BitVec 16)) : Option (StrMode × Bytes) :=
  match hi with
  | some h => if isLowSurrogate x then some (.plain, utf8Supplementary (surrogatePair h x)) else none
  | none =>
    if isHighSurrogate x then some (.lowBackslash x, [])
    else if isLowSurrogate x then none
    else some (.plain, utf8Bmp x)

/-- One byte of DEC_STR: the next mode and the bytes of the value it yields (rule R147). -/
def strStep (m : StrMode) (b : Byte) : Option (StrMode × Bytes) :=
  match m with
  | .plain => if b = 0x5C then some (.esc, []) else some (.plain, [b])
  | .esc =>
    if b = 0x22 then some (.plain, [0x22])
    else if b = 0x5C then some (.plain, [0x5C])
    else if b = 0x2F then some (.plain, [0x2F])
    else if b = 0x62 then some (.plain, [0x08])
    else if b = 0x66 then some (.plain, [0x0C])
    else if b = 0x6E then some (.plain, [0x0A])
    else if b = 0x72 then some (.plain, [0x0D])
    else if b = 0x74 then some (.plain, [0x09])
    else if b = 0x75 then some (.hex 4 0 none, [])
    else none
  | .hex left acc hi =>
    match hexVal b with
    | none => none
    | some d =>
      if left ≤ 1 then strCodePoint ((acc <<< 4) ||| d.zeroExtend 16) hi
      else some (.hex (left - 1) ((acc <<< 4) ||| d.zeroExtend 16) hi, [])
  | .lowBackslash hi => if b = 0x5C then some (.lowU hi, []) else none
  | .lowU hi => if b = 0x75 then some (.hex 4 0 (some hi), []) else none

/-- DEC_STR over the bytes between the quotes; they must end outside an escape. -/
def strRun : StrMode → Bytes → Option Bytes
  | m, [] => if m = .plain then some [] else none
  | m, b :: bs => (strStep m b).bind fun r => (strRun r.1 bs).map fun tail => r.2 ++ tail

/-- DEC_STR (rule R147); `none` for Error. -/
def decStr (e : Bytes) : Option Bytes :=
  match e with
  | [] => none
  | q :: rest => if q = 0x22 then strRun .plain rest.dropLast else none

/-- ENC_RAW (rule R148). -/
def encRaw (b : Bytes) : Bytes := b

/-- DEC_RAW (rule R149). -/
def decRaw (e : Bytes) : Bytes := e

/-- ENC of a field's type (rule R141). -/
def encField : FieldValue → Bytes
  | .int v => encInt v
  | .str b => encStr b
  | .raw b => encRaw b

/-- DEC of a field's type (rule R142); `none` for a wrong field type. -/
def decField (c : Params) (ty : FieldType) (e : Bytes) : Option FieldValue :=
  match ty with
  | .int => (decInt c e).map .int
  | .str => (decStr e).map .str
  | .raw => some (.raw (decRaw e))

end Sys2Proof
end

