-- ==== Sys2Proof/Machine/PayloadCodec.lean ====
section
/-! DEFINITION. The Payload Registry: the four descriptors (30_encoding.md rules R86 to R90, 42_payload.md
rule R140) and the generic encoder and decoder over them (rules R141, R142). -/

namespace Sys2Proof

/-- The Publish descriptor (rule R87). -/
def publishDescriptor : Descriptor where
  name := .publish
  pfx := Config.pfxPublish
  fields := [⟨"topic", .str, none⟩, ⟨"body", .raw, none⟩, ⟨"msec", .int, some (.int 0)⟩,
    ⟨"schema_name", .str, some (.str [])⟩]

/-- The TimeQuery descriptor (rule R88). -/
def timeQueryDescriptor (c : Params) : Descriptor where
  name := .timeQuery
  pfx := c.pfxTq
  fields := [⟨"yyyymmdd", .int, none⟩, ⟨"hhmmssmmm", .int, none⟩, ⟨"profile_id", .int, some (.int 0)⟩,
    ⟨"profile_seq", .int, some (.int 0)⟩]

/-- The TimeReply descriptor (rule R89). -/
def timeReplyDescriptor (c : Params) : Descriptor where
  name := .timeReply
  pfx := c.pfxTr
  fields := [⟨"yyyymmdd", .int, none⟩, ⟨"hhmmssmmm", .int, none⟩, ⟨"rx_msec", .int, some (.int 0)⟩,
    ⟨"tx_msec", .int, some (.int 0)⟩, ⟨"profile_id", .int, some (.int 0)⟩,
    ⟨"profile_len", .int, some (.int 0)⟩]

/-- The ProfileStart descriptor (rule R90). -/
def profileStartDescriptor (c : Params) : Descriptor where
  name := .profileStart
  pfx := c.pfxPs
  fields := [⟨"profile_id", .int, none⟩, ⟨"entry_count", .int, none⟩, ⟨"firmware", .str, some (.str [])⟩,
    ⟨"version", .str, some (.str [])⟩, ⟨"mode", .str, some (.str [])⟩]

/-- REG (rules R86, R140). -/
def registry (c : Params) : List Descriptor :=
  [publishDescriptor, timeQueryDescriptor c, timeReplyDescriptor c, profileStartDescriptor c]

/-- The descriptor whose prefix equals the given one, whole (rule R142). -/
def findDescriptor (c : Params) (pfx : Bytes) : Option Descriptor :=
  (registry c).find? fun d => d.pfx == pfx

/-- The descriptor of a variant value (rule R140). -/
def Variant.descriptor (c : Params) : Variant → Descriptor
  | .publish _ => publishDescriptor
  | .timeQuery _ => timeQueryDescriptor c
  | .timeReply _ => timeReplyDescriptor c
  | .profileStart _ => profileStartDescriptor c

/-- The field values of a variant value in declaration order. -/
def Variant.values : Variant → List FieldValue
  | .publish p => [.str p.topic, .raw p.body, .int p.msec, .str p.schemaName]
  | .timeQuery q => [.int q.yyyymmdd, .int q.hhmmssmmm, .int q.profileId, .int q.profileSeq]
  | .timeReply r =>
    [.int r.yyyymmdd, .int r.hhmmssmmm, .int r.rxMsec, .int r.txMsec, .int r.profileId, .int r.profileLen]
  | .profileStart p =>
    [.int p.profileId, .int p.entryCount, .str p.firmware, .str p.version, .str p.mode]

/-- The variant value with the given field values in declaration order. -/
def variantOfValues (name : VariantName) (vs : List FieldValue) : Option Variant :=
  match name, vs with
  | .publish, [.str t, .raw b, .int m, .str n] => some (.publish ⟨t, b, m, n⟩)
  | .timeQuery, [.int d, .int t, .int i, .int s] => some (.timeQuery ⟨d, t, i, s⟩)
  | .timeReply, [.int d, .int t, .int rx, .int tx, .int i, .int l] => some (.timeReply ⟨d, t, rx, tx, i, l⟩)
  | .profileStart, [.int i, .int n, .str f, .str v, .str m] => some (.profileStart ⟨i, n, f, v, m⟩)
  | _, _ => none

/-- The field has a default and holds it (rule R141). -/
def holdsDefault (fv : FieldDesc × FieldValue) : Bool := fv.1.dflt == some fv.2

/-- The values that are written: all but the maximal trailing run of defaults (rule R141). -/
def writtenValues (fields : List FieldDesc) (vs : List FieldValue) : List FieldValue :=
  (((fields.zip vs).reverse.dropWhile holdsDefault).reverse).map Prod.snd

/-- `join(parts, ",")` (rule R141). -/
def joinComma (parts : List Bytes) : Bytes := [0x2C].intercalate parts

/-- The payload of an array of encoded fields (rules R79, R141). -/
def arrayPayload (parts : List Bytes) : Bytes := [0x5B] ++ joinComma parts ++ [0x5D]

/-- PL_ENC (rule R141). -/
def plEnc (c : Params) (v : Variant) : Line :=
  ⟨(v.descriptor c).pfx, arrayPayload ((writtenValues (v.descriptor c).fields v.values).map encField)⟩

/-- The field values of the elements of a payload array, absent trailing fields at their defaults; `none` for
wrong arity or a wrong field type (rule R142). -/
def decFields (c : Params) : List FieldDesc → List Bytes → Option (List FieldValue)
  | [], [] => some []
  | [], _ :: _ => none
  | f :: fs, [] =>
    match f.dflt with
    | none => none
    | some v => (decFields c fs []).map fun vs => v :: vs
  | f :: fs, e :: es =>
    match decField c f.ty e with
    | none => none
    | some v => (decFields c fs es).map fun vs => v :: vs

/-- PL_DEC (rule R142). -/
def plDec (c : Params) (l : Line) : PlDecResult :=
  match findDescriptor c l.pfx with
  | none => .unknown
  | some d =>
    match splitArray c l.payload with
    | none => .decodeError
    | some els =>
      match (decFields c d.fields els).bind (variantOfValues d.name) with
      | none => .decodeError
      | some v => .known v

/-- Every INT field of a variant value is in the INT range (rules R10, R32). -/
def Variant.inRange (c : Params) (v : Variant) : Bool :=
  v.values.all fun fv =>
    match fv with
    | .int n => c.inInt n
    | .str _ => true
    | .raw _ => true

/-- Every RAW field of a variant value meets the contract of rule R84: one JSON value, no NL. -/
def Variant.rawContract (c : Params) (v : Variant) : Bool :=
  v.values.all fun fv =>
    match fv with
    | .raw b => c.isElement b && b.all fun x => x != c.nl
    | .str _ => true
    | .int _ => true

end Sys2Proof
end

