-- ==== Sys2Proof/Machine/TimeCodec.lean ====
section
/-! DEFINITION. The arithmetic of the Time Synchronizer: the schedule constants, MSEC and UTC_PACK
(43_timesync.md rules R170 to R172). `/` and `%` on Int with a positive divisor are the floor division and
remainder of 00_scope.md rule R10. -/

namespace Sys2Proof

/-- INTERVAL_T (rule R170). -/
def Params.intervalT (c : Params) : Int := Config.intervalSeconds * c.tps

/-- GRACE_T (rule R170). -/
def Params.graceT (c : Params) : Int := Config.graceSeconds * c.tps

/-- `round_half_even(num / den)` for `den > 0` (rule R10). -/
def roundHalfEven (num : Int) (den : Int) : Int :=
  let q := num / den
  let r := num % den
  if 2 * r < den then q
  else if den < 2 * r then q + 1
  else if q % 2 = 0 then q else q + 1

/-- MSEC (rule R171): the elapsed-time mark of `t` for a session that started at `start`. -/
def msecMark (c : Params) (start t : Time) : Int :=
  roundHalfEven ((t - start) * Config.msPerSecond) c.tps

/-- The operand range of UTC_PACK (rule R172): from the epoch to the end of 9999-12-31. -/
def Params.inCalendar (c : Params) (now : Time) : Bool :=
  decide (0 ≤ now) && decide (now < 253402300800 * (c.tps : Int))

/-- The date of a day number counted from 1970-01-01, as (year, month, day) (rule R172). -/
def civilFromDays (days : Int) : Int × Int × Int :=
  let z := days + 719468
  let era := z / 146097
  let doe := z - era * 146097
  let yoe := (doe - doe / 1460 + doe / 36524 - doe / 146096) / 365
  let doy := doe - (365 * yoe + yoe / 4 - yoe / 100)
  let mp := (5 * doy + 2) / 153
  let day := doy - (153 * mp + 2) / 5 + 1
  let month := if mp < 10 then mp + 3 else mp - 9
  let year := yoe + era * 400 + (if month ≤ 2 then 1 else 0)
  (year, month, day)

/-- Whole milliseconds since the epoch (rule R172). -/
def msSinceEpoch (c : Params) (now : Time) : Int := (now * Config.msPerSecond) / c.tps

/-- `yyyymmdd` (rule R85). -/
def packDate (ymd : Int × Int × Int) : Int := ymd.1 * 10000 + ymd.2.1 * 100 + ymd.2.2

/-- `hhmmssmmm` of a millisecond of the day (rules R85, R172). -/
def packTimeOfDay (msod : Int) : Int :=
  (msod / 3600000) * 10000000 + (msod % 3600000 / 60000) * 100000 +
    (msod % 60000 / 1000) * 1000 + msod % 1000

/-- UTC_PACK (rule R172) on an operand in its range. -/
def utcPack (c : Params) (now : Time) : Int × Int :=
  let ms := msSinceEpoch c now
  (packDate (civilFromDays (ms / 86400000)), packTimeOfDay (ms % 86400000))

end Sys2Proof
end

