-- ==== Sys2Proof/WellFormed.lean ====
section
/-! DEFINITION. Which instruction terms are well-formed: every operand is of the type and in the domain the
rule of its operation states. The domain checks that depend on the state (MSEC and UTC_PACK ranges) are made
by the operations. -/

namespace Sys2Proof

/-- A chunk within CHUNK_MAX (rule R201). -/
def Params.chunkOk (c : Params) (data : Bytes) : Bool :=
  match c.chunkMax with
  | none => true
  | some m => decide (data.length ≤ m)

/-- A line of an unregistered prefix that LINE_PARSE can yield (rules R31, R72, R123, R233). -/
def Params.unknownLineOk (c : Params) (l : Line) : Bool :=
  l.pfx.all isWord && (findDescriptor c l.pfx).isNone &&
    (structuredShape l.payload ||
      (decide (1 ≤ l.payload.length) && l.payload.all fun b => !c.isWs b)) &&
    l.payload.all fun b => b != c.nl

/-- The operand check of each row of spec/opcode_table.json, for given parameters. -/
def wellFormed (c : Params) : Instr → Bool
  | .feed data _ => c.chunkOk data
  | .drain => true
  | .nextSend _ _ => true
  | .reservedOp3 => true
  | .reset _ profileId profileLen => c.inInt profileId && c.inInt profileLen
  | .linePublish _ p => (Variant.publish p).inRange c && (Variant.publish p).rawContract c
  | .lineTq _ q => (Variant.timeQuery q).inRange c
  | .lineTr _ r => (Variant.timeReply r).inRange c
  | .linePs _ p => (Variant.profileStart p).inRange c
  | .lineUnknown _ l => c.unknownLineOk l
  | .ckfieldValue _ _ _ => true
  | .ckfieldBypass => true
  | .crc18 _ => true
  | .ckEnc _ => true
  | .ckDec f => (ckDec c f).isSome
  | .ckVerify _ f => (ckDec c f).isSome
  | .lineParse _ => true
  | .lineSer l => decide (1 ≤ l.payload.length)
  | .plEnc v => v.inRange c
  | .plDec _ => true
  | .splitArray _ => true
  | .encInt v => c.inInt v
  | .decInt _ => true
  | .encStr _ => true
  | .decStr e => c.isElement e
  | .encRaw _ => true
  | .decRaw _ => true
  | .msec _ => true
  | .utcPack now => c.inCalendar now
  | .tsHas _ => true
  | .tsGet _ => true
  | .tsOnq q _ => (Variant.timeQuery q).inRange c
  | .tsOnr r _ => (Variant.timeReply r).inRange c
  | .lineProcess _ => true
  | .dispatch v => v.inRange c
  | .schemaLookup _ => true
  | .schemaResolve _ => true
  | .mkMsg p => (Variant.publish p).inRange c

end Sys2Proof
end

