-- ==== Sys2Proof/Decode.lean ====
section
/-! DEFINITION. The decoder of the block's three encodings, total and rejecting by name, and after it the
encoder: the command port and the RESET input (30_encoding.md rule R91), the wire line (rules R70 to R90,
41_framer.md), the checksum field (rules R74 to R77). Internal rows have no encoding. -/

namespace Sys2Proof

/-- The command word of rule R91: `op[1:0]` selects the operation; RESET is an input of its own. -/
def decodePort : PortInput → Instr
  | .command op data time txEmpty =>
    if op = 0 then .feed data time
    else if op = 1 then .drain
    else if op = 2 then .nextSend time (txEmpty == 1)
    else .reservedOp3
  | .reset t0 profileId profileLen => .reset t0 profileId profileLen

/-- Why a wire line or a checksum field encodes no instruction (rule R92 (d) to (f)). -/
inductive DecodeReject where
  /-- LINE_PARSE answers Struct (rule R231). -/
  | structural
  /-- the checksum does not match (rule R232) -/
  | cksum (received computed : U18)
  /-- a registered prefix whose payload does not decode (rule R234) -/
  | payload (pfx payload : Bytes)
  /-- neither three bytes of B64URL nor BYPASS (rule R92 (d)) -/
  | ckField
deriving DecidableEq, Repr

/-- What the decoder answers. -/
inductive DecodeResult where
  | ok (i : Instr)
  | reject (why : DecodeReject)
deriving DecidableEq, Repr

/-- The form of the checksum field a verdict tells of (rule R125). -/
def Verdict.form : Verdict → CkForm
  | .valid => .value
  | .bypass => .bypass

/-- The LINE row of a variant value (rules R150 to R153). -/
def lineOfVariant (ck : CkForm) : Variant → Instr
  | .publish p => .linePublish ck p
  | .timeQuery q => .lineTq ck q
  | .timeReply r => .lineTr ck r
  | .profileStart p => .linePs ck p

/-- The instruction a wire line, without its NL, encodes: LINE_PARSE, then PL_DEC (rules R120, R142). -/
def decodeLine (c : Params) (b : Bytes) : DecodeResult :=
  match lineParse c b with
  | .structural => .reject .structural
  | .cksum received computed => .reject (.cksum received computed)
  | .ok l verdict =>
    match plDec c l with
    | .unknown => .ok (.lineUnknown verdict.form l)
    | .decodeError => .reject (.payload l.pfx l.payload)
    | .known v => .ok (lineOfVariant verdict.form v)

/-- The instruction the three bytes of a checksum field encode (rules R74, R76, R77). -/
def decodeCkField (c : Params) (f : Bytes) : DecodeResult :=
  if f = c.bypass then .ok .ckfieldBypass
  else
    match f with
    | [f0, f1, f2] =>
      if isB64Url f0 && isB64Url f1 && isB64Url f2 then
        .ok (.ckfieldValue (c.b64Val f0) (c.b64Val f1) (c.b64Val f2))
      else .reject .ckField
    | _ => .reject .ckField

/-- The decoder of all three encodings. -/
def decode (c : Params) : Encoded → DecodeResult
  | .port p => .ok (decodePort p)
  | .line b => decodeLine c b
  | .ckfield b => decodeCkField c b

/-- The bytes of a line before its checksum field: a structured payload stands without separators, a bare one is
padded on both sides (rules R70, R73). -/
def wireBytes (l : Line) : Bytes :=
  if structuredShape l.payload then l.pfx ++ l.payload else l.pfx ++ [0x20] ++ l.payload ++ [0x20]

/-- The bytes of a line with the given checksum field form (rules R70, R74). -/
def wireLine (c : Params) (ck : CkForm) (l : Line) : Bytes := wireBytes l ++ ckFieldOf c ck (wireBytes l) l

/-- The encoder; `none` for the internal rows, which have no encoding. The operand lines an operation does
not read are zero. -/
def encode (c : Params) : Instr → Option Encoded
  | .feed data at_ => some (.port (.command 0 data at_ 0))
  | .drain => some (.port (.command 1 [] 0 0))
  | .nextSend now txEmpty => some (.port (.command 2 [] now (if txEmpty then 1 else 0)))
  | .reservedOp3 => some (.port (.command 3 [] 0 0))
  | .reset t0 profileId profileLen => some (.port (.reset t0 profileId profileLen))
  | .linePublish ck p => some (.line (wireLine c ck (plEnc c (.publish p))))
  | .lineTq ck q => some (.line (wireLine c ck (plEnc c (.timeQuery q))))
  | .lineTr ck r => some (.line (wireLine c ck (plEnc c (.timeReply r))))
  | .linePs ck p => some (.line (wireLine c ck (plEnc c (.profileStart p))))
  | .lineUnknown ck l => some (.line (wireLine c ck l))
  | .ckfieldValue c0 c1 c2 => some (.ckfield [c.b64Char c0, c.b64Char c1, c.b64Char c2])
  | .ckfieldBypass => some (.ckfield c.bypass)
  | .crc18 _ => none
  | .ckEnc _ => none
  | .ckDec _ => none
  | .ckVerify _ _ => none
  | .lineParse _ => none
  | .lineSer _ => none
  | .plEnc _ => none
  | .plDec _ => none
  | .splitArray _ => none
  | .encInt _ => none
  | .decInt _ => none
  | .encStr _ => none
  | .decStr _ => none
  | .encRaw _ => none
  | .decRaw _ => none
  | .msec _ => none
  | .utcPack _ => none
  | .tsHas _ => none
  | .tsGet _ => none
  | .tsOnq _ _ => none
  | .tsOnr _ _ => none
  | .lineProcess _ => none
  | .dispatch _ => none
  | .schemaLookup _ => none
  | .schemaResolve _ => none
  | .mkMsg _ => none

/-- The sample of the command port whose code is bits 1:0 of a command word, every operand line zero
(rule R91; log 9). -/
def portOfWord (nbits w : Nat) : PortInput :=
  .command (BitVec.ofNat 2 (w % 2 ^ nbits)) [] 0 0

/-- The instruction the decoder reads from a command word of spec/opcode_table.json. -/
def decodeTableWord (nbits w : Nat) : Option Instr :=
  some (decodePort (portOfWord nbits w))

end Sys2Proof
end

