-- ==== Sys2Proof/Machine/State.lean ====
section
/-! DEFINITION. The state of the block (10_state.md), what its operations put out (60_exceptions.md rule
R230), the reasons a step can stop, and the state after RESET (rule R38). -/

namespace Sys2Proof.Machine

open Sys2Proof

/-- IncomingMessage (rule R33). -/
structure IncomingMessage where
  topic : Bytes
  body : Bytes
  schemaData : Bytes
  unixtime : Int
  msec : Int
deriving DecidableEq, Repr

/-- The event classes of rule R230, in the order of their codes. -/
inductive EventClass where
  | struct | cksum | unknown | decode | contract | overflow | unhandled
deriving DecidableEq, Repr

/-- The severities of rule R230. -/
inductive Severity where
  | debug | warning | fault
deriving DecidableEq, Repr

/-- An event record: its class with the information the class carries (rules R230 to R237). Code and severity
are functions of the class (Flags.lean). -/
inductive Event where
  | struct (line : Bytes)
  | cksum (line : Bytes) (received computed : U18)
  | unknown (pfx payload : Bytes)
  | decode (pfx payload : Bytes)
  | contract (pfx : Bytes)
  | overflow (dropped : Nat)
  | unhandled (pfx : Bytes) (v : Variant)
deriving DecidableEq, Repr

/-- The result an operation returns beside its events (rule R200); `none` for the operations without one. -/
inductive Result where
  | none
  | bytes (b : Bytes)
  | messages (ms : List IncomingMessage)
  | message (m : IncomingMessage)
  | value18 (v : U18)
  | verdict (v : Verdict)
  | verify (ok : Bool) (received computed : U18)
  | parse (r : ParseResult)
  | line (l : Line)
  | decoded (r : PlDecResult)
  | elements (els : Option (List Bytes))
  | int (v : Int)
  | intOrError (v : Option Int)
  | bytesOrError (b : Option Bytes)
  | stamp (yyyymmdd hhmmssmmm : Int)
  | bool (b : Bool)
  | payload (v : Option Variant)
deriving DecidableEq, Repr

/-- The output of one operation: its result and its event records in the order emitted (rules R200, R230). -/
structure Output where
  result : Result
  events : List Event
deriving DecidableEq, Repr

/-- Whether the block may run operations (log 7). -/
inductive Phase where
  /-- before the first RESET (rule R261 (5)) -/
  | unconstructed
  /-- a Session exists -/
  | running
  /-- after a CONTRACT fault with the offending prefix, until the next RESET (rule R235) -/
  | stuck (pfx : Bytes)
deriving DecidableEq, Repr

/-- S.PROFILE as rule R25 represents it. -/
structure Profile where
  id : Int
  len : Int
deriving DecidableEq, Repr

/-- Why the machine stops with a fault. -/
inductive Fault where
  /-- Raised by every operation but RESET and the reserved code after a CONTRACT fault: the block is stuck
  until the next RESET (rule R235, decision D25). Safe: the spec gives the block no behaviour there. -/
  | stuckAfterContract
deriving DecidableEq, Repr

/-- Why an operation has no meaning. -/
inductive Refusal where
  /-- Raised by no meaning; the name for an instruction without one. Safe. -/
  | notModelled (mnemonic : String)
  /-- Raised by RESERVED_OP3: command code 3, which a model must refuse (rule R92 (g)). Safe. -/
  | reservedCommand
  /-- Raised by every operation but RESET and the reserved code before the first RESET (rule R261 (5)). Safe. -/
  | beforeReset
  /-- Raised by an operation whose operand is outside the domain its rule states, where the spec gives no
  meaning (rules R11, R103, R126, R144, R261 (4); log 13). Safe. -/
  | operandOutsideDomain
  /-- Raised by UTC_PACK, and by TS_GET and NEXT_SEND when they stamp a query, for a time before the epoch or
  after 9999-12-31 (rule R172). Safe. -/
  | timeOutsideCalendar
  /-- Raised by MSEC, and by the operations that compute a mark, for a mark outside the INT range (rule R171).
  Safe. -/
  | markOutsideInt
deriving DecidableEq, Repr

/-- The state of the block. The first ten fields are the spec's own state, the last five the model's. -/
structure State where
  /-- S.ACC (rule R22). -/
  acc : Bytes
  /-- S.LINE_T (rule R23). -/
  lineT : Time
  /-- S.MQ, oldest first (rule R24). -/
  mq : List IncomingMessage
  /-- S.PROFILE (rule R25). -/
  profile : Profile
  /-- S.TS.START (rule R26). -/
  start : Time
  /-- S.TS.NEXT_Q (rule R27). -/
  nextQ : Time
  /-- S.TS.PEND_V (rule R28). -/
  pendV : Bool
  /-- S.TS.PEND (rule R28). -/
  pend : TimeReply
  /-- S.TS.FP_ID (rule R29). -/
  fpId : Int
  /-- S.TS.FP_LEN (rule R29). -/
  fpLen : Int
  /-- The parameters of rule R7, never written (log 4). -/
  cfg : Params
  /-- Whether operations may run (log 7). -/
  phase : Phase
  /-- The inputs the caller will give, the next one first (log 5). -/
  inbox : List PortInput
  /-- The output of the last operation (log 6). -/
  out : Output
  /-- How many RESETs have drawn free values (log 21). -/
  freeCtr : Nat
deriving DecidableEq, Repr

/-- The state after RESET(0) with PROFILE_ID = PROFILE_LEN = 0 and the default parameters (rule R38; the
values the spec leaves open are named in log 1, log 2 and log 3). -/
def State.reset : State where
  acc := []
  lineT := 0
  mq := []
  profile := ⟨0, 0⟩
  start := 0
  nextQ := 0
  pendV := false
  pend := ⟨0, 0, 0, 0, 0, 0⟩
  fpId := 0
  fpLen := 0
  cfg := Params.default
  phase := .running
  inbox := []
  out := ⟨.none, []⟩
  freeCtr := 0

end Sys2Proof.Machine
end

