-- ==== Sys2Proof/Machine/Flags.lean ====
section
/-! DEFINITION. The conditions of the block (10_state.md rule R30): the one stored flag PEND_V and the
computed condition `due`; and the code, class and severity columns of the event table (60_exceptions.md rule
R230). No other flag exists. -/

namespace Sys2Proof.Machine

open Sys2Proof

/-- `due(now)` (rule R30): equality counts as due (rule R173). -/
def State.due (s : State) (now : Time) : Bool := decide (s.nextQ ≤ now)

/-- The class of an event record (rule R230). -/
def Event.cls : Event → EventClass
  | .struct _ => .struct
  | .cksum _ _ _ => .cksum
  | .unknown _ _ => .unknown
  | .decode _ _ => .decode
  | .contract _ => .contract
  | .overflow _ => .overflow
  | .unhandled _ _ => .unhandled

/-- The code column of rule R230. -/
def EventClass.code : EventClass → Nat
  | .struct => 1
  | .cksum => 2
  | .unknown => 3
  | .decode => 4
  | .contract => 5
  | .overflow => 6
  | .unhandled => 7

/-- The severity column of rule R230. -/
def EventClass.severity : EventClass → Severity
  | .struct => .debug
  | .cksum => .warning
  | .unknown => .debug
  | .decode => .warning
  | .contract => .fault
  | .overflow => .warning
  | .unhandled => .debug

/-- The code of an event record. -/
def Event.code (e : Event) : Nat := e.cls.code

/-- The severity of an event record. -/
def Event.severity (e : Event) : Severity := e.cls.severity

end Sys2Proof.Machine
end

