-- ==== Sys2Proof/Machine/Ops.lean ====
section
/-! DEFINITION. The named operations over the state: how an operation begins, emits and ends (00_scope.md rule
R11), the accumulator (20_memory.md rule R52), the queue, the pending slot and the schedule; raising an event
and taking the CONTRACT fault (60_exceptions.md rules R235, R240), and RESET, the only way out of it
(70_reset_and_hazards.md rule R260). -/

namespace Sys2Proof.Machine

open Sys2Proof

/-- What an operation answers: a value, or the reason it stops. -/
abbrev Ans (α : Type) := Host.Outcome α Fault Refusal

/-- Sequencing: a stop ends the whole operation (rule R11). -/
def Ans.andThen {α β : Type} (o : Ans α) (k : α → Ans β) : Ans β :=
  match o with
  | .next a => k a
  | .fault r => .fault r
  | .refused r => .refused r

/-- The output starts empty with every operation (rule R35). -/
def State.begin (s : State) : State := { s with out := ⟨.none, []⟩ }

/-- `emit E(info)` (rules R11, R240 (1)). -/
def State.emit (s : State) (e : Event) : State :=
  { s with out := { s.out with events := s.out.events ++ [e] } }

/-- `return v` (rule R11). -/
def State.finish (s : State) (r : Result) : State := { s with out := { s.out with result := r } }

/-- `S.ACC <- S.ACC ++ b` (rule R52). -/
def State.accAppend (s : State) (b : Bytes) : State := { s with acc := s.acc ++ b }

/-- `S.ACC <- ""` (rule R52). -/
def State.accClear (s : State) : State := { s with acc := [] }

/-- `S.LINE_T <- when` (rule R202). -/
def State.setLineT (s : State) (t : Time) : State := { s with lineT := t }

/-- A message is appended to the end of S.MQ (rule R24), within MQ_DEPTH (log 16). -/
def State.enqueue (s : State) (m : IncomingMessage) : State := { s with mq := s.cfg.pushQueue s.mq m }

/-- S.MQ is emptied (rule R210). -/
def State.emptyQueue (s : State) : State := { s with mq := [] }

/-- A pending reply is stored (rule R178). -/
def State.setPending (s : State) (r : TimeReply) : State := { s with pend := r, pendV := true }

/-- `S.TS.PEND_V <- 0` (rule R174). -/
def State.clearPending (s : State) : State := { s with pendV := false }

/-- `S.TS.NEXT_Q <- t` (rule R175). -/
def State.schedule (s : State) (t : Time) : State := { s with nextQ := t }

/-- The accumulator, the block's one indexed store (rules R50, R58; log 17). -/
abbrev Memory := Bytes

/-- The form the accumulator keeps between operations: shorter than ACC_MAX and free of NL (rule R37 (a)). -/
def Memory.wf (c : Params) (m : Memory) : Bool :=
  decide (m.length < c.accMax) && m.all fun b => b != c.nl

/-- `MemRead(addr, n)`, defined inside the accumulator only (rule R12). -/
def memRead (m : Memory) (addr n : Nat) : Option Bytes :=
  if addr + n ≤ m.length then some ((m.drop addr).take n) else none

/-- `MemWrite(addr, n, v)`, defined at the end of the accumulator only (rule R12). -/
def memWrite (m : Memory) (addr : Nat) (v : Bytes) : Option Memory :=
  if addr = m.length then some (m ++ v) else none

/-- Taking the CONTRACT fault (rules R235, R240 (4)): the event is emitted, the command has no result, no
write is rolled back, and the block is stuck until the next RESET (log 7). -/
def State.takeContract (s : State) (pfx : Bytes) : State :=
  { (s.emit (.contract pfx)).finish .none with phase := .stuck pfx }

/-- The values S.TS.PEND is left with by a RESET: unspecified (rule R260, log 3). -/
def unspecifiedPend (n : Nat) : TimeReply :=
  ⟨Config.unspecifiedPend n 0, Config.unspecifiedPend n 1, Config.unspecifiedPend n 2,
    Config.unspecifiedPend n 3, Config.unspecifiedPend n 4, Config.unspecifiedPend n 5⟩

/-- RESET(T0) with the sampled PROFILE_ID and PROFILE_LEN (rule R260). S.LINE_T and S.TS.PEND are left
unspecified: free values (log 2, log 3). It also leaves the phases `unconstructed` and `stuck`. -/
def State.construct (s : State) (t0 : Time) (profileId profileLen : Int) : State where
  acc := []
  lineT := Config.unspecifiedLineT s.freeCtr
  mq := []
  profile := ⟨profileId, profileLen⟩
  start := t0
  nextQ := t0
  pendV := false
  pend := unspecifiedPend s.freeCtr
  fpId := profileId
  fpLen := profileLen
  cfg := s.cfg
  phase := .running
  inbox := s.inbox
  out := ⟨.none, []⟩
  freeCtr := s.freeCtr + 1

/-- An operation runs on a constructed Session that is not stuck, with an empty output (rules R235, R261 (5);
log 7). -/
def whenRunning (s : State) (k : State → Ans State) : Ans State :=
  match s.phase with
  | .running => k s.begin
  | .unconstructed => .refused .beforeReset
  | .stuck _ => .fault .stuckAfterContract

/-- Outside the operand domain of its rule an operation has no meaning (rule R11, log 13). -/
def inDomain (ok : Bool) (k : Ans State) : Ans State :=
  if ok then k else .refused .operandOutsideDomain

/-- The operation ends with a result and changes no other state. -/
def answer (s : State) (r : Result) : Ans State := .next (s.finish r)

/-- `fun s => .next s`, the operation that ends here. -/
def done (s : State) : Ans State := .next s

end Sys2Proof.Machine
end

