-- ==== Sys2Proof/Machine/Checksum.lean ====
section
/-! DEFINITION. The meanings of the Checksum Codec rows and of the checksum field rows (40_checksum.md rules
R100 to R104, 30_encoding.md rules R76, R77). -/

namespace Sys2Proof.Machine

open Sys2Proof

/-- CRC18 (rule R100). -/
def execCrc18 (span : Bytes) (s : State) : Ans State :=
  whenRunning s fun s => answer s (.value18 (crc18 s.cfg span))

/-- CK_ENC (rule R102). -/
def execCkEnc (v : U18) (s : State) : Ans State :=
  whenRunning s fun s => answer s (.bytes (ckEnc s.cfg v))

/-- CK_DEC (rule R103); outside three bytes of B64URL it has no meaning. -/
def execCkDec (field : Bytes) (s : State) : Ans State :=
  whenRunning s fun s =>
    match ckDec s.cfg field with
    | some v => answer s (.value18 v)
    | none => .refused .operandOutsideDomain

/-- CK_VERIFY (rule R104), with the domain of CK_DEC. -/
def execCkVerify (span field : Bytes) (s : State) : Ans State :=
  whenRunning s fun s =>
    match ckVerify s.cfg span field with
    | some (ok, received, computed) => answer s (.verify ok received computed)
    | none => .refused .operandOutsideDomain

/-- CKFIELD.VALUE (rule R76): the field stands for its 18-bit value (log 12). -/
def execCkfieldValue (c0 c1 c2 : BitVec 6) (s : State) : Ans State :=
  whenRunning s fun s => answer s (.value18 (ckAssemble c0 c1 c2))

/-- CKFIELD.BYPASS (rule R77): the field switches verification off, verdict `bypass` (log 12). -/
def execCkfieldBypass (s : State) : Ans State :=
  whenRunning s fun s => answer s (.verdict .bypass)

end Sys2Proof.Machine
end

