-- ==== Sys2Proof/Machine/TimeSyncOps.lean ====
section
/-! DEFINITION. The Time Synchronizer over the state (43_timesync.md rules R171 to R179). -/

namespace Sys2Proof.Machine

open Sys2Proof

/-- MSEC(t), refused where the mark does not fit an INT (rule R171). -/
def State.mark (s : State) (t : Time) : Ans Int :=
  if s.cfg.inInt (msecMark s.cfg s.start t) then .next (msecMark s.cfg s.start t)
  else .refused .markOutsideInt

/-- UTC_PACK(now), refused outside its operand range (rule R172). -/
def stampOf (c : Params) (now : Time) : Ans (Int × Int) :=
  if c.inCalendar now then .next (utcPack c now) else .refused .timeOutsideCalendar

/-- TS_HAS(now) (rule R173). -/
def State.tsHas (s : State) (now : Time) : Bool := s.pendV || s.due now

/-- The new scheduled time of the slip-limited schedule (rule R175). -/
def slipLimited (c : Params) (nextQ now : Time) : Time :=
  max (nextQ + c.intervalT) (now + c.intervalT - c.graceT)

/-- TS_GET, reply branch (rule R174). -/
def State.tsGetReply (s : State) (now : Time) : Ans (Option Variant × State) :=
  (s.mark now).andThen fun tx =>
    .next (some (.timeReply { s.pend with txMsec := tx }), s.clearPending)

/-- TS_GET, query branch (rule R175): both echo fields stay at their defaults. DESIGN CHOICE: with INT_W below 29
the packed stamp need not fit an INT; it goes into the query unchecked (log 25). -/
def State.tsGetQuery (s : State) (now : Time) : Ans (Option Variant × State) :=
  (stampOf s.cfg now).andThen fun dt =>
    .next (some (.timeQuery ⟨dt.1, dt.2, 0, 0⟩), s.schedule (slipLimited s.cfg s.nextQ now))

/-- TS_GET(now): reply before query before idle (rules R174 to R176). -/
def State.tsGet (s : State) (now : Time) : Ans (Option Variant × State) :=
  if s.pendV then s.tsGetReply now
  else if s.due now then s.tsGetQuery now
  else .next (none, s)

/-- TS_ONQ(q, when) (rule R178): last query wins. -/
def State.tsOnq (s : State) (q : TimeQuery) (at_ : Time) : Ans State :=
  (s.mark at_).andThen fun rx =>
    .next (s.setPending ⟨q.yyyymmdd, q.hhmmssmmm, rx, 0, s.fpId, s.fpLen⟩)

/-- TS_ONR(r, when): no effect (rule R179). -/
def State.tsOnr (s : State) (_r : TimeReply) (_at : Time) : Ans State := .next s

end Sys2Proof.Machine
end

