-- ==== Sys2Proof/Machine/SessionOps.lean ====
section
/-! DEFINITION. The Session over the state: schema resolution, message construction, dispatch, the inbound
pipeline of one line, FEED, DRAIN and NEXT_SEND (44_session.md rules R200 to R212). -/

namespace Sys2Proof.Machine

open Sys2Proof

/-- SCHEMA_RESOLVE (rule R208) with a given registry (rule R207). -/
def schemaResolve (lookup : Bytes → Bytes) (s : Bytes) : Bytes :=
  if s = [] then []
  else if s.take 5 = ascii "json:" then s.drop 5
  else if s.take 4 = ascii "fox:" then
    if lookup (s.drop 4) = [] then ascii "ERROR:NOTFOUND:" ++ s.drop 4 else lookup (s.drop 4)
  else ascii "ERROR:INVALID:" ++ s

/-- MK_MSG (rule R209) with a given registry. -/
def mkMsg (lookup : Bytes → Bytes) (p : Publish) : IncomingMessage :=
  ⟨p.topic, p.body, schemaResolve lookup p.schemaName, 0, p.msec⟩

/-- DISPATCH (rule R206): the handlers get the line's timestamp. -/
def State.dispatch (s : State) (v : Variant) : Ans State :=
  match v with
  | .timeQuery q => s.tsOnq q s.lineT
  | .timeReply r => s.tsOnr r s.lineT
  | .publish p => .next (s.enqueue (mkMsg Config.schemaLookup p))
  | .profileStart p => .next (s.emit (.unhandled s.cfg.pfxPs (.profileStart p)))

/-- LINE_PROCESS (rule R205). -/
def State.lineProcess (s : State) (line : Bytes) : Ans State :=
  match lineParse s.cfg line with
  | .structural => .next (s.emit (.struct line))
  | .cksum received computed => .next (s.emit (.cksum line received computed))
  | .ok l _ =>
    match plDec s.cfg l with
    | .unknown => .next (s.emit (.unknown l.pfx l.payload))
    | .decodeError => .next (s.emit (.decode l.pfx l.payload))
    | .known v => s.dispatch v

/-- The complete lines of a chunk, each without its NL, and the tail after the last NL (rules R78, R203). -/
def splitLines (nl : Byte) : Bytes → List Bytes × Bytes
  | [] => ([], [])
  | b :: bs =>
    let r := splitLines nl bs
    if b = nl then ([] :: r.1, r.2)
    else
      match r.1 with
      | [] => ([], b :: r.2)
      | l :: ls => ((b :: l) :: ls, r.2)

/-- The line timestamp, recorded when a byte is about to be consumed and S.ACC is empty (rule R202). -/
def State.stampLine (s : State) (at_ : Time) : State :=
  if s.acc = [] then s.setLineT at_ else s

/-- FEED reaches a newline (rule R203): the line is the accumulator and the chunk's bytes before the NL. -/
def State.feedLine (s : State) (at_ : Time) (part : Bytes) : Ans State :=
  (s.stampLine at_).accClear.lineProcess (s.acc ++ part)

/-- FEED over the complete lines of a chunk, in order (rule R201). -/
def State.feedLines (s : State) (at_ : Time) : List Bytes → Ans State
  | [] => .next s
  | part :: parts => (s.feedLine at_ part).andThen fun s' => s'.feedLines at_ parts

/-- The size test, made once after a chunk tail was appended (rules R204, R236). -/
def State.checkOverflow (s : State) : State :=
  if s.cfg.accMax ≤ s.acc.length then s.accClear.emit (.overflow s.acc.length) else s

/-- FEED on the tail of a chunk (rule R204); an empty tail does nothing. -/
def State.feedTail (s : State) (at_ : Time) (tail : Bytes) : State :=
  if tail = [] then s else ((s.stampLine at_).accAppend tail).checkOverflow

/-- FEED (rule R201). -/
def State.feed (s : State) (data : Bytes) (at_ : Time) : Ans State :=
  (s.feedLines at_ (splitLines s.cfg.nl data).1).andThen fun s' =>
    .next (s'.feedTail at_ (splitLines s.cfg.nl data).2)

/-- LINE_SER as a command: the framed line, or the CONTRACT fault (rules R126, R235). -/
def State.serialize (s : State) (l : Line) (term : Bytes) : State :=
  match lineSer s.cfg l with
  | some b => s.finish (.bytes (b ++ term))
  | none => s.takeContract l.pfx

/-- NEXT_SEND (rule R211). DESIGN CHOICE: what TS_GET returns is encoded without an INT check, which matters for
the stamp of a query with INT_W below 29 only (log 25). -/
def State.nextSend (s : State) (now : Time) (txEmpty : Bool) : Ans State :=
  if !s.tsHas now then answer s (.bytes [])
  else if !txEmpty then answer s (.bytes [])
  else
    (s.tsGet now).andThen fun r =>
      match r.1 with
      | none => answer r.2 (.bytes [])
      | some v => .next (r.2.serialize (plEnc s.cfg v) [s.cfg.nl])

end Sys2Proof.Machine
end

