-- ==== Sys2Proof/Machine/Framer.lean ====
section
/-! DEFINITION. The meanings of the Line Framer rows (41_framer.md rules R120, R126). -/

namespace Sys2Proof.Machine

open Sys2Proof

/-- LINE_PARSE (rules R120 to R125): it emits no event itself. -/
def execLineParse (l : Bytes) (s : State) : Ans State :=
  whenRunning s fun s => answer s (.parse (lineParse s.cfg l))

/-- LINE_SER (rule R126): an empty payload is outside its domain; a prefix with a byte outside WORD takes the
CONTRACT fault. -/
def execLineSer (line : Line) (s : State) : Ans State :=
  whenRunning s fun s =>
    inDomain (decide (1 ≤ line.payload.length)) (done (s.serialize line []))

end Sys2Proof.Machine
end

