-- ==== Sys2Proof/Machine/Payload.lean ====
section
/-! DEFINITION. The meanings of the Payload Registry rows (42_payload.md rules R141 to R149). -/

namespace Sys2Proof.Machine

open Sys2Proof

/-- PL_ENC (rule R141): RAW bytes are not checked (rule R84). -/
def execPlEnc (v : Variant) (s : State) : Ans State :=
  whenRunning s fun s => inDomain (v.inRange s.cfg) (answer s (.line (plEnc s.cfg v)))

/-- PL_DEC (rule R142). -/
def execPlDec (line : Line) (s : State) : Ans State :=
  whenRunning s fun s => answer s (.decoded (plDec s.cfg line))

/-- SPLIT_ARRAY (rule R143). -/
def execSplitArray (p : Bytes) (s : State) : Ans State :=
  whenRunning s fun s => answer s (.elements (splitArray s.cfg p))

/-- ENC_INT (rule R144), on a value in the INT range. -/
def execEncInt (v : Int) (s : State) : Ans State :=
  whenRunning s fun s => inDomain (s.cfg.inInt v) (answer s (.bytes (encInt v)))

/-- DEC_INT (rule R145). -/
def execDecInt (e : Bytes) (s : State) : Ans State :=
  whenRunning s fun s => answer s (.intOrError (decInt s.cfg e))

/-- ENC_STR (rule R146). -/
def execEncStr (b : Bytes) (s : State) : Ans State :=
  whenRunning s fun s => answer s (.bytes (encStr b))

/-- DEC_STR (rule R147), on a JSON value. -/
def execDecStr (e : Bytes) (s : State) : Ans State :=
  whenRunning s fun s => inDomain (s.cfg.isElement e) (answer s (.bytesOrError (decStr e)))

/-- ENC_RAW (rule R148). -/
def execEncRaw (b : Bytes) (s : State) : Ans State :=
  whenRunning s fun s => answer s (.bytes (encRaw b))

/-- DEC_RAW (rule R149). -/
def execDecRaw (e : Bytes) (s : State) : Ans State :=
  whenRunning s fun s => answer s (.bytes (decRaw e))

end Sys2Proof.Machine
end

