-- ==== Sys2Proof/Machine/Session.lean ====
section
/-! DEFINITION. The meanings of the command rows, of RESET and of the Session's internal rows (44_session.md
rules R201 to R211, 70_reset_and_hazards.md rule R260, 30_encoding.md rule R92 (g)). -/

namespace Sys2Proof.Machine

open Sys2Proof

/-- FEED (rule R201), on a chunk within CHUNK_MAX; its only output is its events. -/
def execFeed (data : Bytes) (at_ : Time) (s : State) : Ans State :=
  whenRunning s fun s => inDomain (s.cfg.chunkOk data) (s.feed data at_)

/-- DRAIN (rule R210). -/
def execDrain (s : State) : Ans State :=
  whenRunning s fun s => answer s.emptyQueue (.messages s.mq)

/-- NEXT_SEND (rule R211). -/
def execNextSend (now : Time) (txEmpty : Bool) (s : State) : Ans State :=
  whenRunning s fun s => s.nextSend now txEmpty

/-- RESERVED_OP3 (rule R92 (g)): a model must refuse it. -/
def execReservedOp3 (_s : State) : Ans State := .refused .reservedCommand

/-- RESET (rule R260), with configuration inputs in the INT range (rule R261 (4)); it runs in every phase. -/
def execReset (t0 : Time) (profileId profileLen : Int) (s : State) : Ans State :=
  inDomain (s.cfg.inInt profileId && s.cfg.inInt profileLen) (done (s.construct t0 profileId profileLen))

/-- LINE_PROCESS (rule R205). -/
def execLineProcess (line : Bytes) (s : State) : Ans State :=
  whenRunning s fun s => s.lineProcess line

/-- DISPATCH (rule R206), on a variant value. -/
def execDispatch (v : Variant) (s : State) : Ans State :=
  whenRunning s fun s => inDomain (v.inRange s.cfg) (s.dispatch v)

/-- SCHEMA_LOOKUP (rule R207): a call changes nothing. -/
def execSchemaLookup (name : Bytes) (s : State) : Ans State :=
  whenRunning s fun s => answer s (.bytes (Config.schemaLookup name))

/-- SCHEMA_RESOLVE (rule R208). -/
def execSchemaResolve (schemaName : Bytes) (s : State) : Ans State :=
  whenRunning s fun s => answer s (.bytes (schemaResolve Config.schemaLookup schemaName))

/-- MK_MSG (rule R209), on a Publish value. -/
def execMkMsg (p : Publish) (s : State) : Ans State :=
  whenRunning s fun s =>
    inDomain ((Variant.publish p).inRange s.cfg) (answer s (.message (mkMsg Config.schemaLookup p)))

end Sys2Proof.Machine
end

