-- ==== Sys2Proof/Machine/TimeSync.lean ====
section
/-! DEFINITION. The meanings of the Time Synchronizer rows (43_timesync.md rules R171 to R179). -/

namespace Sys2Proof.Machine

open Sys2Proof

/-- MSEC (rule R171). -/
def execMsec (t : Time) (s : State) : Ans State :=
  whenRunning s fun s => (s.mark t).andThen fun m => answer s (.int m)

/-- UTC_PACK (rule R172). -/
def execUtcPack (now : Time) (s : State) : Ans State :=
  whenRunning s fun s => (stampOf s.cfg now).andThen fun dt => answer s (.stamp dt.1 dt.2)

/-- TS_HAS (rule R173). -/
def execTsHas (now : Time) (s : State) : Ans State :=
  whenRunning s fun s => answer s (.bool (s.tsHas now))

/-- TS_GET (rules R174 to R176). -/
def execTsGet (now : Time) (s : State) : Ans State :=
  whenRunning s fun s => (s.tsGet now).andThen fun r => answer r.2 (.payload r.1)

/-- TS_ONQ (rule R178), on a TimeQuery value. -/
def execTsOnq (q : TimeQuery) (at_ : Time) (s : State) : Ans State :=
  whenRunning s fun s => inDomain ((Variant.timeQuery q).inRange s.cfg) (s.tsOnq q at_)

/-- TS_ONR (rule R179), on a TimeReply value. -/
def execTsOnr (r : TimeReply) (at_ : Time) (s : State) : Ans State :=
  whenRunning s fun s => inDomain ((Variant.timeReply r).inRange s.cfg) (s.tsOnr r at_)

end Sys2Proof.Machine
end

