-- ==== Sys2Proof/Machine/Wire.lean ====
section
/-! DEFINITION. The meanings of the LINE rows: what the block does with a received line of each kind once it
is framed, verified and decoded, with the line timestamp it holds (44_session.md rules R205, R206; log 11).
The checksum field's form makes no difference here (rule R205). -/

namespace Sys2Proof.Machine

open Sys2Proof

/-- LINE.PUBLISH (rules R150, R206): an IncomingMessage is queued. -/
def execLinePublish (ck : CkForm) (p : Publish) (s : State) : Ans State :=
  whenRunning s fun s =>
    inDomain (wellFormed s.cfg (.linePublish ck p)) (s.dispatch (.publish p))

/-- LINE.TQ (rules R151, R178): the pending reply is set. -/
def execLineTq (ck : CkForm) (q : TimeQuery) (s : State) : Ans State :=
  whenRunning s fun s =>
    inDomain (wellFormed s.cfg (.lineTq ck q)) (s.dispatch (.timeQuery q))

/-- LINE.TR (rules R152, R179): no effect. -/
def execLineTr (ck : CkForm) (r : TimeReply) (s : State) : Ans State :=
  whenRunning s fun s =>
    inDomain (wellFormed s.cfg (.lineTr ck r)) (s.dispatch (.timeReply r))

/-- LINE.PS (rules R153, R237): reported UNHANDLED and dropped. -/
def execLinePs (ck : CkForm) (p : ProfileStart) (s : State) : Ans State :=
  whenRunning s fun s =>
    inDomain (wellFormed s.cfg (.linePs ck p)) (s.dispatch (.profileStart p))

/-- LINE.UNKNOWN (rules R92 (a), R233): reported UNKNOWN and dropped. -/
def execLineUnknown (ck : CkForm) (l : Line) (s : State) : Ans State :=
  whenRunning s fun s =>
    inDomain (wellFormed s.cfg (.lineUnknown ck l)) (done (s.emit (.unknown l.pfx l.payload)))

end Sys2Proof.Machine
end

