-- ==== Sys2Proof/Machine/Dispatch.lean ====
section
/-! DEFINITION. The dispatch: one arm for each row of spec/opcode_table.json. -/

namespace Sys2Proof.Machine

open Sys2Proof

def exec (i : Instr) (s : State) : Host.Outcome State Fault Refusal :=
  match i with
  | .feed data at_ => Sys2Proof.Machine.execFeed data at_ s
  | .drain => Sys2Proof.Machine.execDrain s
  | .nextSend now txEmpty => Sys2Proof.Machine.execNextSend now txEmpty s
  | .reservedOp3 => Sys2Proof.Machine.execReservedOp3 s
  | .reset t0 profileId profileLen => Sys2Proof.Machine.execReset t0 profileId profileLen s
  | .linePublish ck p => Sys2Proof.Machine.execLinePublish ck p s
  | .lineTq ck q => Sys2Proof.Machine.execLineTq ck q s
  | .lineTr ck r => Sys2Proof.Machine.execLineTr ck r s
  | .linePs ck p => Sys2Proof.Machine.execLinePs ck p s
  | .lineUnknown ck l => Sys2Proof.Machine.execLineUnknown ck l s
  | .ckfieldValue c0 c1 c2 => Sys2Proof.Machine.execCkfieldValue c0 c1 c2 s
  | .ckfieldBypass => Sys2Proof.Machine.execCkfieldBypass s
  | .crc18 span => Sys2Proof.Machine.execCrc18 span s
  | .ckEnc v => Sys2Proof.Machine.execCkEnc v s
  | .ckDec field => Sys2Proof.Machine.execCkDec field s
  | .ckVerify span field => Sys2Proof.Machine.execCkVerify span field s
  | .lineParse l => Sys2Proof.Machine.execLineParse l s
  | .lineSer line => Sys2Proof.Machine.execLineSer line s
  | .plEnc v => Sys2Proof.Machine.execPlEnc v s
  | .plDec line => Sys2Proof.Machine.execPlDec line s
  | .splitArray p => Sys2Proof.Machine.execSplitArray p s
  | .encInt v => Sys2Proof.Machine.execEncInt v s
  | .decInt e => Sys2Proof.Machine.execDecInt e s
  | .encStr b => Sys2Proof.Machine.execEncStr b s
  | .decStr e => Sys2Proof.Machine.execDecStr e s
  | .encRaw b => Sys2Proof.Machine.execEncRaw b s
  | .decRaw e => Sys2Proof.Machine.execDecRaw e s
  | .msec t => Sys2Proof.Machine.execMsec t s
  | .utcPack now => Sys2Proof.Machine.execUtcPack now s
  | .tsHas now => Sys2Proof.Machine.execTsHas now s
  | .tsGet now => Sys2Proof.Machine.execTsGet now s
  | .tsOnq q at_ => Sys2Proof.Machine.execTsOnq q at_ s
  | .tsOnr r at_ => Sys2Proof.Machine.execTsOnr r at_ s
  | .lineProcess line => Sys2Proof.Machine.execLineProcess line s
  | .dispatch v => Sys2Proof.Machine.execDispatch v s
  | .schemaLookup name => Sys2Proof.Machine.execSchemaLookup name s
  | .schemaResolve schemaName => Sys2Proof.Machine.execSchemaResolve schemaName s
  | .mkMsg p => Sys2Proof.Machine.execMkMsg p s

end Sys2Proof.Machine
end

