-- ==== Sys2Proof/Machine/Step.lean ====
section
/-! DEFINITION. One step of the machine: the caller's next input is taken from the command port, decoded and
run (00_scope.md rule R14, 44_session.md rule R200; log 5). -/

namespace Sys2Proof.Machine

open Sys2Proof

/-- One step. With no input waiting the block holds its state (rule R247). -/
def step (s : State) : Host.Outcome State Fault Refusal :=
  match s.inbox with
  | [] => .next s
  | p :: rest => exec (decodePort p) { s with inbox := rest }

/-- The state with a command word as the caller's next input, all operand lines zero (log 5, log 9). -/
def State.withFetchWord (s : State) (nbits w : Nat) : State :=
  { s with inbox := portOfWord nbits w :: s.inbox }

end Sys2Proof.Machine
end

