-- ==== Sys2Proof/Machine/JsonGrammar.lean ====
section
/-! DEFINITION. The JSON grammar of 30_encoding.md rules R80 and R81 as the spec writes it, production by
production, and the text and value of a STR field (rules R83, R146, R147), for claims that compare the operations
with them. No operation runs them. -/

namespace Sys2Proof

/-- `jws` (rule R80). -/
def JsonWs (b : Bytes) : Prop := ∀ x ∈ b, isJws x = true

/-- One or more decimal digits. -/
def JsonDigits (b : Bytes) : Prop := b ≠ [] ∧ ∀ x ∈ b, isDigit x = true

/-- `char` (rule R80). -/
inductive JsonChar : Bytes → Prop where
  | unescaped (b : Byte) : 0x20 ≤ b → b ≠ 0x22 → b ≠ 0x5C → JsonChar [b]
  | escape (b : Byte) : b ∈ [0x22, 0x5C, 0x2F, 0x62, 0x66, 0x6E, 0x72, 0x74] → JsonChar [0x5C, b]
  | unicode (h0 h1 h2 h3 : Byte) :
    (hexVal h0).isSome → (hexVal h1).isSome → (hexVal h2).isSome → (hexVal h3).isSome →
    JsonChar [0x5C, 0x75, h0, h1, h2, h3]

/-- `string` (rule R80). -/
def JsonString (b : Bytes) : Prop :=
  ∃ chars : List Bytes, (∀ ch ∈ chars, JsonChar ch) ∧ b = [0x22] ++ chars.flatten ++ [0x22]

/-- `int` (rule R80). -/
def JsonIntPart (b : Bytes) : Prop :=
  b = [0x30] ∨ ∃ d ds, b = d :: ds ∧ isDigit d = true ∧ d ≠ 0x30 ∧ ∀ x ∈ ds, isDigit x = true

/-- The fraction of `number`, possibly absent (rule R80). -/
def JsonFraction (b : Bytes) : Prop := b = [] ∨ ∃ ds, b = 0x2E :: ds ∧ JsonDigits ds

/-- The exponent of `number`, possibly absent (rule R80). -/
def JsonExponent (b : Bytes) : Prop :=
  b = [] ∨ ∃ e sign ds, b = e :: (sign ++ ds) ∧ (e = 0x65 ∨ e = 0x45) ∧
    (sign = [] ∨ sign = [0x2B] ∨ sign = [0x2D]) ∧ JsonDigits ds

/-- `number` (rule R80). -/
def JsonNumber (b : Bytes) : Prop :=
  ∃ sign int frac exp, b = sign ++ int ++ frac ++ exp ∧ (sign = [] ∨ sign = [0x2D]) ∧
    JsonIntPart int ∧ JsonFraction frac ∧ JsonExponent exp

mutual

/-- `value` with at most `n` levels of arrays and objects in it (rules R80, R81). -/
inductive JsonValue : Nat → Bytes → Prop where
  | string {n b} : JsonString b → JsonValue n b
  | number {n b} : JsonNumber b → JsonValue n b
  | true {n} : JsonValue n [0x74, 0x72, 0x75, 0x65]
  | false {n} : JsonValue n [0x66, 0x61, 0x6C, 0x73, 0x65]
  | null {n} : JsonValue n [0x6E, 0x75, 0x6C, 0x6C]
  | array {n els b} : JsonArray n els b → JsonValue (n + 1) b
  | object {n b} : JsonObject n b → JsonValue (n + 1) b

/-- `array`, with the bytes of its elements, each with at most `n` levels in it. -/
inductive JsonArray : Nat → List Bytes → Bytes → Prop where
  | empty {n w} : JsonWs w → JsonArray n [] ([0x5B] ++ w ++ [0x5D])
  | elements {n els b} : JsonElements n els b → JsonArray n els ([0x5B] ++ b ++ [0x5D])

/-- `jws value ( jws "," jws value )* jws`, with the bytes of the values. -/
inductive JsonElements : Nat → List Bytes → Bytes → Prop where
  | last {n w v w'} : JsonWs w → JsonValue n v → JsonWs w' → JsonElements n [v] (w ++ v ++ w')
  | more {n w v w' els b} : JsonWs w → JsonValue n v → JsonWs w' → JsonElements n els b →
    JsonElements n (v :: els) (w ++ v ++ w' ++ [0x2C] ++ b)

/-- `object`. -/
inductive JsonObject : Nat → Bytes → Prop where
  | empty {n w} : JsonWs w → JsonObject n ([0x7B] ++ w ++ [0x7D])
  | members {n b} : JsonMembers n b → JsonObject n ([0x7B] ++ b ++ [0x7D])

/-- `jws member ( jws "," jws member )* jws`, a member being `string jws ":" jws value`. -/
inductive JsonMembers : Nat → Bytes → Prop where
  | last {n w k w1 w2 v w'} : JsonWs w → JsonString k → JsonWs w1 → JsonWs w2 → JsonValue n v → JsonWs w' →
    JsonMembers n (w ++ k ++ w1 ++ [0x3A] ++ w2 ++ v ++ w')
  | more {n w k w1 w2 v w' b} : JsonWs w → JsonString k → JsonWs w1 → JsonWs w2 → JsonValue n v → JsonWs w' →
    JsonMembers n b → JsonMembers n (w ++ k ++ w1 ++ [0x3A] ++ w2 ++ v ++ w' ++ [0x2C] ++ b)

end

/-- A hexadecimal digit, either case, and its value (rules R80, R147). -/
def HexDigit (h : Byte) (d : Nat) : Prop :=
  (0x30 ≤ h ∧ h ≤ 0x39 ∧ h.toNat = 0x30 + d) ∨ (0x61 ≤ h ∧ h ≤ 0x66 ∧ h.toNat = 0x61 - 10 + d) ∨
    (0x41 ≤ h ∧ h ≤ 0x46 ∧ h.toNat = 0x41 - 10 + d)

/-- `\u` and four hexadecimal digits, and the number they stand for (rule R83). -/
def UnicodeEscape (e : Bytes) (x : Nat) : Prop :=
  ∃ h0 h1 h2 h3 d0 d1 d2 d3, e = [0x5C, 0x75, h0, h1, h2, h3] ∧ HexDigit h0 d0 ∧ HexDigit h1 d1 ∧
    HexDigit h2 d2 ∧ HexDigit h3 d3 ∧ x = d0 * 0x1000 + d1 * 0x100 + d2 * 0x10 + d3

/-- The UTF-8 bytes of a code point (rule R147). -/
def utf8 (x : Nat) : Bytes :=
  (if x < 0x80 then [x]
    else if x < 0x800 then [0xC0 + x / 0x40, 0x80 + x % 0x40]
    else if x < 0x10000 then [0xE0 + x / 0x1000, 0x80 + x / 0x40 % 0x40, 0x80 + x % 0x40]
    else [0xF0 + x / 0x40000, 0x80 + x / 0x1000 % 0x40, 0x80 + x / 0x40 % 0x40, 0x80 + x % 0x40]).map
  (BitVec.ofNat 8)

/-- A piece of the text between the quotes of a STR field and the bytes of the value it stands for (rules R83,
R147). A surrogate occurs in a pair only. -/
inductive StrPiece : Bytes → Bytes → Prop where
  | plain (b : Byte) : 0x20 ≤ b → b ≠ 0x22 → b ≠ 0x5C → StrPiece [b] [b]
  | quote : StrPiece [0x5C, 0x22] [0x22]
  | backslash : StrPiece [0x5C, 0x5C] [0x5C]
  | slash : StrPiece [0x5C, 0x2F] [0x2F]
  | backspace : StrPiece [0x5C, 0x62] [0x08]
  | formFeed : StrPiece [0x5C, 0x66] [0x0C]
  | lineFeed : StrPiece [0x5C, 0x6E] [0x0A]
  | carriageReturn : StrPiece [0x5C, 0x72] [0x0D]
  | tab : StrPiece [0x5C, 0x74] [0x09]
  | unicode {e x} : UnicodeEscape e x → (x < 0xD800 ∨ 0xDFFF < x) → StrPiece e (utf8 x)
  | pair {e e' hi lo} : UnicodeEscape e hi → UnicodeEscape e' lo → 0xD800 ≤ hi → hi ≤ 0xDBFF →
    0xDC00 ≤ lo → lo ≤ 0xDFFF →
    StrPiece (e ++ e') (utf8 (0x10000 + (hi - 0xD800) * 0x400 + (lo - 0xDC00)))

/-- The element `e` is the text of a STR field of value `v` (rules R83, R147). -/
def StrText (e v : Bytes) : Prop :=
  ∃ ps : List (Bytes × Bytes), (∀ p ∈ ps, StrPiece p.1 p.2) ∧
    e = [0x22] ++ (ps.map Prod.fst).flatten ++ [0x22] ∧ v = (ps.map Prod.snd).flatten

/-- The text ENC_STR emits for one byte of a value (rules R83, R146). -/
def EmittedStrByte (b : Byte) (e : Bytes) : Prop :=
  (b = 0x22 ∧ e = [0x5C, 0x22]) ∨ (b = 0x5C ∧ e = [0x5C, 0x5C]) ∨ (b = 0x08 ∧ e = [0x5C, 0x62]) ∨
  (b = 0x09 ∧ e = [0x5C, 0x74]) ∨ (b = 0x0A ∧ e = [0x5C, 0x6E]) ∨ (b = 0x0C ∧ e = [0x5C, 0x66]) ∨
  (b = 0x0D ∧ e = [0x5C, 0x72]) ∨
  (b < 0x20 ∧ b ∉ [0x08, 0x09, 0x0A, 0x0C, 0x0D] ∧ ∃ h0 h1 d0 d1, e = [0x5C, 0x75, 0x30, 0x30, h0, h1] ∧
    HexDigit h0 d0 ∧ HexDigit h1 d1 ∧ ¬ (0x41 ≤ h0 ∧ h0 ≤ 0x46) ∧ ¬ (0x41 ≤ h1 ∧ h1 ≤ 0x46) ∧
    b.toNat = d0 * 0x10 + d1) ∨
  (0x20 ≤ b ∧ b ≠ 0x22 ∧ b ≠ 0x5C ∧ e = [b])

/-- `jws array jws` within the depth bound, with the bytes of the elements (rules R81, R143): the outer array
has depth 1, so `JSON_MAX_DEPTH - 1` levels are left inside it. -/
def JsonPayload (c : Params) (els : List Bytes) (p : Bytes) : Prop :=
  ∃ w a w', JsonWs w ∧ JsonArray (c.jsonMaxDepth - 1) els a ∧ JsonWs w' ∧ p = w ++ a ++ w'

end Sys2Proof
end

