-- ==== Sys2Proof/Safety.lean ====
section
/-! DEFINITION. What a safe state and a safe run are (10_state.md rule R37), and the plain reference
definitions that claims compare the operations with: the FEED loop as rule R201 writes it, the calendar, and
polynomials over GF(2), the grammar and the reading of a line, and which operations can write the slot and the queue. No operation
runs them. -/

namespace Sys2Proof

/-- The instructions the command port and the RESET input can select (rules R14, R91). -/
def Instr.external (i : Instr) : Prop := i.format = .cmd ∨ i.format = .resetInput

/-- The operations that can fill the pending slot: TS_ONQ and what hands it a TimeQuery (rules R28, R178, R206). -/
def Instr.mayFillSlot (i : Instr) : Prop :=
  (∃ q w, i = .tsOnq q w) ∨ (∃ ck q, i = .lineTq ck q) ∨ (∃ q, i = .dispatch (.timeQuery q)) ∨
    (∃ b, i = .lineProcess b) ∨ ∃ data w, i = .feed data w

/-- The operations that can empty the pending slot: TS_GET and the NEXT_SEND that sends (rules R28, R174). -/
def Instr.mayEmptySlot (i : Instr) : Prop := (∃ now, i = .tsGet now) ∨ ∃ now, i = .nextSend now true

/-- The operations that can append to the queue: those that hand on a Publish (rules R24, R206). -/
def Instr.mayEnqueue (i : Instr) : Prop :=
  (∃ ck p, i = .linePublish ck p) ∨ (∃ p, i = .dispatch (.publish p)) ∨ (∃ b, i = .lineProcess b) ∨
    ∃ data w, i = .feed data w

/-- `r` is a quoted string, an object or an array `q` with optional whitespace around it (rule R70, rule R123 A). -/
def Params.StructuredAmid (c : Params) (r q : Bytes) : Prop :=
  ∃ gapA gapB, r = gapA ++ q ++ gapB ∧ (∀ x ∈ gapA ++ gapB, c.isWs x = true) ∧
    ((∃ m, q = [0x22] ++ m ++ [0x22]) ∨ (∃ m, q = [0x7B] ++ m ++ [0x7D]) ∨ ∃ m, q = [0x5B] ++ m ++ [0x5D])

/-- `r` is a bare token `q` with whitespace on both sides (rule R70, rules R123 B, R124). -/
def Params.BareAmid (c : Params) (r q : Bytes) : Prop :=
  ∃ gapA gapB, r = gapA ++ q ++ gapB ∧ (∀ x ∈ gapA ++ gapB, c.isWs x = true) ∧ gapA ≠ [] ∧ gapB ≠ [] ∧
    q ≠ [] ∧ ∀ x ∈ q, c.isWs x = false

/-- The grammar of a line as rule R70 writes it: a payload between a prefix and a checksum field. -/
def Params.LineGrammar (c : Params) (b : Bytes) : Prop :=
  ∃ lead pfx mid payload f trail : Bytes,
    b = lead ++ pfx ++ mid ++ f ++ trail ∧ (∀ x ∈ lead ++ trail, c.isWs x = true) ∧
    (∀ x ∈ pfx, isWord x = true) ∧ (c.StructuredAmid mid payload ∨ c.BareAmid mid payload) ∧
    (f = c.bypass ∨ (f.length = 3 ∧ ∀ x ∈ f, isB64Url x = true))

/-- The one reading rules R122 to R124 give the bytes `b` before a checksum field: after the leading whitespace the
longest run of word characters `p` and the rest `r`; then alternative A, else B, else C. -/
def Params.LineReading (c : Params) (b : Bytes) (l : Line) : Prop :=
  ∃ lead p r : Bytes, b = lead ++ p ++ r ∧ (∀ x ∈ lead, c.isWs x = true) ∧
    (∀ x ∈ (p ++ r).head?, c.isWs x = false) ∧ (∀ x ∈ p, isWord x = true) ∧
    (∀ x ∈ r.head?, isWord x = false) ∧
    ((l.pfx = p ∧ c.StructuredAmid r l.payload) ∨
      ((¬ ∃ q, c.StructuredAmid r q) ∧ l.pfx = p ∧ c.BareAmid r l.payload) ∨
      ((¬ ∃ q, c.StructuredAmid r q) ∧ (¬ ∃ q, c.BareAmid r q) ∧ l.pfx = [] ∧ c.BareAmid b l.payload))

/-- The bytes of a line that decodes to a TimeQuery, with whichever form of checksum field. -/
def Params.IsQueryLine (c : Params) (b : Bytes) : Prop := ∃ ck q, decodeLine c b = .ok (.lineTq ck q)

end Sys2Proof

namespace Sys2Proof.Machine

open Sys2Proof

/-- The pending reply of rule R37 (c): a placeholder in tx_msec, the local fingerprint, INT fields. -/
def State.pendingForm (s : State) : Prop :=
  s.pend.txMsec = 0 ∧ s.pend.profileId = s.fpId ∧ s.pend.profileLen = s.fpLen ∧
    (Variant.timeReply s.pend).inRange s.cfg = true

/-- The invariants that hold between operations: rule R37 (a), (c), (d), the parameters as rule R261 wants
them, and what rules R25, R29 and R33 say of the profile and the queue. -/
structure State.Inv (s : State) : Prop where
  legal : s.cfg.legal = true
  acc_form : Memory.wf s.cfg s.acc = true
  pending_form : s.pendV = true → s.pendingForm
  schedule : s.start ≤ s.nextQ
  fingerprint : s.fpId = s.profile.id ∧ s.fpLen = s.profile.len
  fingerprint_int : s.cfg.inInt s.fpId = true ∧ s.cfg.inInt s.fpLen = true
  queue : ∀ m ∈ s.mq, m.unixtime = 0 ∧ s.cfg.inInt m.msec = true
  queue_depth : ∀ d, s.cfg.mqDepth = some d → s.mq.length ≤ d

/-- A step is safe when it does not end in a fault. -/
def SafeAnswer {α : Type} (o : Ans α) : Prop := ∀ r, o ≠ .fault r

/-- FEED as rule R201 writes it: one turn of the `while` loop for each unit of fuel, the cursor kept as the
bytes from it on. -/
def feedLoop (at_ : Time) : Nat → Bytes → State → Ans State
  | 0, _, s => .next s
  | fuel + 1, data, s =>
    if data = [] then .next s
    else
      let s1 := if s.acc = [] then s.setLineT at_ else s
      match data.findIdx? (fun b => b == s.cfg.nl) with
      | some i =>
        (s1.accClear.lineProcess (s1.acc ++ data.take i)).andThen fun s2 =>
          feedLoop at_ fuel (data.drop (i + 1)) s2
      | none =>
        let s2 := s1.accAppend data
        if s2.cfg.accMax ≤ s2.acc.length then .next (s2.accClear.emit (.overflow s2.acc.length))
        else .next s2

/-- FEED of the chunk completes the line `line` with the line timestamp `t`: the chunk's first line, which continues
the accumulator, or a later one (rules R202, R203). -/
def State.Completes (s : State) (data : Bytes) (at_ : Time) (line : Bytes) (t : Time) : Prop :=
  (∃ part rest, data = part ++ [s.cfg.nl] ++ rest ∧ s.cfg.nl ∉ part ∧ line = s.acc ++ part ∧
    t = if s.acc = [] then at_ else s.lineT) ∨
  (∃ before rest, data = before ++ [s.cfg.nl] ++ line ++ [s.cfg.nl] ++ rest ∧ s.cfg.nl ∉ line ∧ t = at_)

/-- A leap year of the Gregorian calendar. -/
def isLeapYear (y : Nat) : Bool := (y % 4 == 0 && y % 100 != 0) || y % 400 == 0

/-- The days of a month, January being 1. -/
def daysInMonth (y m : Nat) : Nat :=
  if m = 2 then (if isLeapYear y then 29 else 28)
  else if m = 4 ∨ m = 6 ∨ m = 9 ∨ m = 11 then 30 else 31

/-- The days of the first `k` years from 1970 on. -/
def daysBeforeYear : Nat → Nat
  | 0 => 0
  | k + 1 => daysBeforeYear k + (if isLeapYear (1970 + k) then 366 else 365)

/-- The days of the first `k` months of a year. -/
def daysBeforeMonth (y : Nat) : Nat → Nat
  | 0 => 0
  | k + 1 => daysBeforeMonth y k + daysInMonth y (k + 1)

/-- The number of a date, counted from 1970-01-01 as 0, for years from 1970 on. -/
def dayNumber (y m d : Nat) : Nat := daysBeforeYear (y - 1970) + daysBeforeMonth y (m - 1) + (d - 1)

/-- The bits of a byte string, first byte and most significant bit first (rule R100). -/
def bitsOf (span : Bytes) : List Bool :=
  span.flatMap fun b => (List.range 8).map fun k => b.getMsbD k

/-- The polynomial over GF(2) with the given coefficients, highest first. -/
noncomputable def bitsPoly (bits : List Bool) : Polynomial (ZMod 2) :=
  bits.foldl (fun p b => p * Polynomial.X + (if b then 1 else 0)) 0

/-- The polynomial of an 18-bit value. -/
noncomputable def valuePoly (v : U18) : Polynomial (ZMod 2) :=
  bitsPoly ((List.range 18).map fun k => v.getMsbD k)

/-- The generator polynomial G(x) (rule R100). -/
noncomputable def generatorPoly (c : Params) : Polynomial (ZMod 2) :=
  Polynomial.X ^ 18 + valuePoly c.crcPoly

end Sys2Proof.Machine
end

