-- ==== Sys2Proof/Certificates/Slice0/Obligations.lean ====
section
/-! DEFINITION. The statements for the provers. Each docstring names the rule it rests on; a clause that is the
model's own choice names its log entry. `running` in a docstring means the phase in which operations run (log
7); the output port `out` holds an operation's result and events (log 6). -/

open Sys2Proof Sys2Proof.Machine

/-! ### Checksum codec -/

/-- R100: CRC18 completes, and its result is the remainder of `M(x) * x^18` divided by the generator over
GF(2), for every generator polynomial; nothing but the output changes. -/
def Obligations.CrcIsPolynomialRemainder : Prop :=
  ∀ (s : State) (span : Bytes), s.phase = .running → s.cfg.crcXorOut = 0 →
    ∃ v : U18, exec (.crc18 span) s = .next { s with out := ⟨.value18 v, []⟩ } ∧
      valuePoly v = Polynomial.modByMonic (bitsPoly (bitsOf span) * Polynomial.X ^ 18) (generatorPoly s.cfg)

/-- R101 (a): for spans of equal length CRC18 of the bytewise exclusive-or is the exclusive-or of the CRCs. -/
def Obligations.CrcIsLinear : Prop :=
  ∀ (c : Params) (a b : Bytes), c.crcXorOut = 0 → a.length = b.length →
    crc18 c (List.zipWith (· ^^^ ·) a b) = crc18 c a ^^^ crc18 c b

/-- R101 (b), (c): the register after a span, continued over further bytes with the table of one-byte CRCs,
gives the CRC of the whole. -/
def Obligations.CrcStreamsThroughByteTable : Prop :=
  ∀ (c : Params) (a b : Bytes), c.crcXorOut = 0 →
    crc18 c (a ++ b) =
      b.foldl (fun (r : U18) (x : Byte) => (r <<< 8) ^^^ crc18 c [(r >>> 10).truncate 8 ^^^ x]) (crc18 c a)

/-- R101 (d): a change confined to 18 consecutive bits of the span changes the CRC, when the generator has a
constant term. -/
def Obligations.CrcDetectsShortBursts : Prop :=
  ∀ (c : Params) (a b : Bytes) (before x y after_ : List Bool),
    c.crcPoly.getLsbD 0 = true → bitsOf a = before ++ x ++ after_ → bitsOf b = before ++ y ++ after_ →
    x.length = y.length → x.length ≤ 18 → x ≠ y → crc18 c a ≠ crc18 c b

/-- R76, R102, R103: CK_ENC yields three B64URL bytes whose values are bits 17:12, 11:6 and 5:0, CK_DEC takes
them back, and CK_ENC takes back every field CK_DEC decodes; nothing but the output changes. -/
def Obligations.ChecksumFieldEncodingIsBijective : Prop :=
  ∀ s : State, s.phase = .running → s.cfg.legal = true →
    (∀ v : U18, ∃ f : Bytes, exec (.ckEnc v) s = .next { s with out := ⟨.bytes f, []⟩ } ∧
      f.length = 3 ∧ f.all isB64Url = true ∧
      f.map s.cfg.b64Val = [v.extractLsb' 12 6, v.extractLsb' 6 6, v.extractLsb' 0 6] ∧
      exec (.ckDec f) s = .next { s with out := ⟨.value18 v, []⟩ }) ∧
    (∀ f : Bytes, f.length = 3 → f.all isB64Url = true →
      ∃ v : U18, exec (.ckDec f) s = .next { s with out := ⟨.value18 v, []⟩ } ∧
        exec (.ckEnc v) s = .next { s with out := ⟨.bytes f, []⟩ })

/-- R104: CK_VERIFY of a field CK_DEC decodes returns whether the decoded value equals CRC18 of the span, and
both values; nothing but the output changes. -/
def Obligations.VerifyComparesReceivedWithComputed : Prop :=
  ∀ (s : State) (span f : Bytes), s.phase = .running → f.length = 3 → f.all isB64Url = true →
    ∃ received computed : U18,
      exec (.ckDec f) s = .next { s with out := ⟨.value18 received, []⟩ } ∧
      exec (.crc18 span) s = .next { s with out := ⟨.value18 computed, []⟩ } ∧
      exec (.ckVerify span f) s =
        .next { s with out := ⟨.verify (decide (received = computed)) received computed, []⟩ }

/-- R76, R77, and log 12 for what a field yields when it is run alone: CKFIELD.VALUE yields the value its three
groups stand for and CKFIELD.BYPASS the verdict bypass; nothing but the output changes. -/
def Obligations.ChecksumFieldFormsYieldTheirMeaning : Prop :=
  ∀ s : State, s.phase = .running →
    (∀ c0 c1 c2 : BitVec 6, ∃ v : U18,
      exec (.ckfieldValue c0 c1 c2) s = .next { s with out := ⟨.value18 v, []⟩ } ∧
      v.toNat = c0.toNat * 4096 + c1.toNat * 64 + c2.toNat) ∧
    exec .ckfieldBypass s = .next { s with out := ⟨.verdict .bypass, []⟩ }

/-! ### Line framer -/

/-- R127: for every line of word-character prefix whose payload is (i) structured or (ii) a bare token that
neither begins with an opener nor ends with a closer, LINE_PARSE of LINE_SER's output is that line, valid. Both
change nothing but the output. -/
def Obligations.LineSerThenParseRestoresLine : Prop :=
  ∀ (s : State) (l : Line), s.phase = .running → s.cfg.legal = true → l.pfx.all isWord = true →
    (structuredShape l.payload = true ∨
      (l.payload ≠ [] ∧ (∀ b ∈ l.payload, s.cfg.isWs b = false) ∧
        l.payload.head?.any isOpener = false ∧ l.payload.getLast?.any isCloser = false)) →
    ∃ b : Bytes, exec (.lineSer l) s = .next { s with out := ⟨.bytes b, []⟩ } ∧
      exec (.lineParse b) s = .next { s with out := ⟨.parse (.ok l .valid), []⟩ }

/-- R77, R104, R105, R125: on a framed line the checksum field alone decides the verdict: the bypass token is always
accepted, the field of the computed CRC is valid, every other field is rejected with both values. The span is the
prefix and the payload; with CRC_SPAN_PAD = true a free pad follows them (log 16). -/
def Obligations.ChecksumFieldDecidesVerdict : Prop :=
  ∀ (s : State) (l : Line) (f : Bytes), s.phase = .running → s.cfg.legal = true → l.pfx.all isWord = true →
    structuredShape l.payload = true → f.length = 3 → f.all isB64Url = true →
    (s.cfg.crcSpanPad = false → s.cfg.pad (l.pfx ++ l.payload) = []) ∧
    exec (.lineParse (frameLine l s.cfg.bypass)) s = .next { s with out := ⟨.parse (.ok l .bypass), []⟩ } ∧
    ∃ received computed : U18, ckDec s.cfg f = some received ∧
      computed = crc18 s.cfg (l.pfx ++ l.payload ++ s.cfg.pad (l.pfx ++ l.payload)) ∧
      exec (.lineParse (frameLine l f)) s = .next { s with
        out := ⟨.parse (if received = computed then .ok l .valid else .cksum received computed), []⟩ }

/-- R31, R73, R74, R121 to R125: LINE_PARSE answers on every byte string. It accepts exactly those of a part before, a
three-byte field and trailing whitespace, where the part before reads as the line (leading whitespace skipped, the
longest run of word characters the prefix, then a structured payload, else a padded bare token, else a padded bare
token under the empty prefix; separators belong to neither), and the field is the bypass token or B64URL and decodes
to the CRC of prefix and payload (followed by a free pad with CRC_SPAN_PAD = true, log 16). It answers Cksum, with
both values, exactly where the field is B64URL and decodes to another value. An accepted line has a word-character
prefix and a payload. What LINE_PARSE makes of a string that holds NL, outside the operand of R120, is the model's
choice (log 14). -/
def Obligations.AcceptedLinesAreCheckedOrBypassed : Prop :=
  ∀ (s : State) (b : Bytes), s.phase = .running → s.cfg.legal = true →
    ∃ r : ParseResult, exec (.lineParse b) s = .next { s with out := ⟨.parse r, []⟩ } ∧
      (∀ l v, r = .ok l v ↔ ∃ before f trail : Bytes, b = before ++ f ++ trail ∧ f.length = 3 ∧
        (∀ x ∈ trail, s.cfg.isWs x = true) ∧ s.cfg.LineReading before l ∧
        ((v = .bypass ∧ f = s.cfg.bypass) ∨ (v = .valid ∧ (∀ x ∈ f, isB64Url x = true) ∧
          ckDec s.cfg f = some (crc18 s.cfg (l.pfx ++ l.payload ++ s.cfg.pad before))))) ∧
      (∀ received computed, r = .cksum received computed ↔ ∃ (before f trail : Bytes) (l : Line),
        b = before ++ f ++ trail ∧ f.length = 3 ∧ (∀ x ∈ trail, s.cfg.isWs x = true) ∧
        s.cfg.LineReading before l ∧ (∀ x ∈ f, isB64Url x = true) ∧ ckDec s.cfg f = some received ∧
        computed = crc18 s.cfg (l.pfx ++ l.payload ++ s.cfg.pad before) ∧ received ≠ computed) ∧
      (s.cfg.crcSpanPad = false → ∀ before, s.cfg.pad before = []) ∧
      ∀ l v, r = .ok l v → l.pfx.all isWord = true ∧ l.payload ≠ []

/-- R126, R105: LINE_SER of a line with a word-character prefix and a payload is the prefix, a space unless the
payload begins with a quote, brace or bracket, the payload, a space unless it ends with one, and the computed
field, of prefix and payload (followed by a free pad with CRC_SPAN_PAD = true, log 16); nothing but the output
changes. -/
def Obligations.LineSerEmitsSeparatorsByEdges : Prop :=
  ∀ (s : State) (l : Line), s.phase = .running → l.pfx.all isWord = true → l.payload ≠ [] →
    ∃ before : Bytes,
      before = l.pfx ++ (if l.payload.head?.any isOpener then [] else [0x20]) ++ l.payload ++
        (if l.payload.getLast?.any isCloser then [] else [0x20]) ∧
      (s.cfg.crcSpanPad = false → s.cfg.pad before = []) ∧
      exec (.lineSer l) s = .next { s with out := ⟨.bytes (before ++
        ckEnc s.cfg (crc18 s.cfg (l.pfx ++ l.payload ++ s.cfg.pad before))), []⟩ }

/-- R126, R235, and log 7 for the phase: LINE_SER of a prefix with a byte outside WORD emits CONTRACT with that
prefix, has no result, and leaves the block stuck; nothing else changes. -/
def Obligations.BadPrefixTakesContractFault : Prop :=
  ∀ (s : State) (l : Line), s.phase = .running → l.payload ≠ [] → l.pfx.all isWord = false →
    exec (.lineSer l) s =
      .next { s with out := ⟨.none, [.contract l.pfx]⟩, phase := .stuck l.pfx }

/-- R235, R261 (5), and log 7: in the stuck phase every operation but RESET and the reserved code faults, before the
first RESET it is refused, and RESET runs in every phase. That RESET completes in every phase, for every T0 and for
every PROFILE_LEN in the INT range, negative ones too, is the model's choice beyond R7 and R261 (5) (log 15). -/
def Obligations.OnlyResetLeavesStuckPhase : Prop :=
  ∀ (s : State) (i : Instr), i ≠ .reservedOp3 →
    (∀ t0 a b, i ≠ .reset t0 a b) →
    ((∃ p, s.phase = .stuck p) → exec i s = .fault .stuckAfterContract) ∧
    (s.phase = .unconstructed → exec i s = .refused .beforeReset) ∧
    (∀ t0 a b, s.cfg.inInt a = true → s.cfg.inInt b = true →
      ∃ t, exec (.reset t0 a b) s = .next t ∧ t.phase = .running)

/-! ### Payload registry -/

/-- R154, within the depth bound of R81: every variant value with INT fields in range and RAW fields that are single
JSON values without surrounding whitespace and without NL, and whose arrays and objects nest no deeper than
JSON_MAX_DEPTH allows inside the payload's array, comes back through PL_ENC, LINE_SER, LINE_PARSE and PL_DEC. -/
def Obligations.PayloadRoundTripThroughFrame : Prop :=
  ∀ (s : State) (v : Variant), s.phase = .running → s.cfg.legal = true →
    v.inRange s.cfg = true → v.rawContract s.cfg = true →
    ∃ (l : Line) (b : Bytes),
      exec (.plEnc v) s = .next { s with out := ⟨.line l, []⟩ } ∧
      exec (.lineSer l) s = .next { s with out := ⟨.bytes b, []⟩ } ∧
      exec (.lineParse b) s = .next { s with out := ⟨.parse (.ok l .valid), []⟩ } ∧
      exec (.plDec l) s = .next { s with out := ⟨.decoded (.known v), []⟩ }

/-- R79, R141: PL_ENC writes the first k fields, where k is the least count such that every field from k on has
a default and holds it, under the variant's prefix; nothing but the output changes. -/
def Obligations.EncoderOmitsMaximalDefaultRun : Prop :=
  ∀ (s : State) (v : Variant), s.phase = .running → v.inRange s.cfg = true →
    ∃ k : Nat, k ≤ v.values.length ∧
      exec (.plEnc v) s = .next { s with out := ⟨.line ⟨(v.descriptor s.cfg).pfx,
        arrayPayload ((v.values.take k).map encField)⟩, []⟩ } ∧
      (∀ j, k ≤ j → j < v.values.length →
        ((v.descriptor s.cfg).fields[j]?).bind (·.dflt) = v.values[j]?) ∧
      (∀ j, j + 1 = k → ((v.descriptor s.cfg).fields[j]?).bind (·.dflt) ≠ v.values[j]?)

/-- R143, with the grammar of R80 and the depth bound of R81: SPLIT_ARRAY yields elements exactly for the byte
strings `jws array jws` within the depth bound, and then the bytes of each top-level value in order; everything
else gives Error. Nothing but the output changes. -/
def Obligations.SplitArrayAcceptsExactlyTheGrammar : Prop :=
  ∀ (s : State) (p : Bytes), s.phase = .running → 1 ≤ s.cfg.jsonMaxDepth →
    (∀ els : List Bytes,
      exec (.splitArray p) s = .next { s with out := ⟨.elements (some els), []⟩ } ↔
        JsonPayload s.cfg els p) ∧
    ((¬ ∃ els, JsonPayload s.cfg els p) →
      exec (.splitArray p) s = .next { s with out := ⟨.elements none, []⟩ })

/-- R142: PL_DEC under a registered prefix, on a payload that splits into elements, yields a value exactly when
there are no more elements than fields, each element decodes as its field's type and each absent field has a
default; the value holds those. Otherwise it yields DecodeError. Nothing but the output changes. -/
def Obligations.DecoderChecksArityAndTypes : Prop :=
  ∀ (s : State) (l : Line) (d : Descriptor) (els : List Bytes), s.phase = .running → s.cfg.legal = true →
    d ∈ registry s.cfg → l.pfx = d.pfx → splitArray s.cfg l.payload = some els →
    ∃ r : PlDecResult, exec (.plDec l) s = .next { s with out := ⟨.decoded r, []⟩ } ∧
      (r = .decodeError ∨ ∃ v, r = .known v) ∧
      ∀ v, r = .known v ↔
        (v.descriptor s.cfg = d ∧ els.length ≤ d.fields.length ∧
          ∀ (j : Nat) (f : FieldDesc), d.fields[j]? = some f →
            v.values[j]? = (match els[j]? with
              | some e => decField s.cfg f.ty e
              | none => f.dflt))

/-- R142: PL_DEC answers Unknown exactly for the prefixes that are none of the four registered ones, whole, and
DecodeError for a registered prefix whose payload does not split. Nothing but the output changes. -/
def Obligations.DecoderLooksUpWholePrefix : Prop :=
  ∀ (s : State) (l : Line), s.phase = .running →
    (exec (.plDec l) s = .next { s with out := ⟨.decoded .unknown, []⟩ } ↔
      l.pfx ∉ s.cfg.registeredPrefixes) ∧
    (l.pfx ∈ s.cfg.registeredPrefixes → splitArray s.cfg l.payload = none →
      exec (.plDec l) s = .next { s with out := ⟨.decoded .decodeError, []⟩ })

/-- R82, R144: ENC_INT of a value in the INT range is its sign and its decimal digits, most significant first,
and `0` for zero; nothing but the output changes. -/
def Obligations.EncIntIsShortestDecimal : Prop :=
  ∀ (s : State) (v : Int), s.phase = .running → s.cfg.inInt v = true →
    exec (.encInt v) s = .next { s with out := ⟨.bytes ((if v < 0 then [0x2D] else []) ++
      (if v = 0 then [0x30]
        else (Nat.digits 10 v.natAbs).reverse.map fun d => BitVec.ofNat 8 (0x30 + d))), []⟩ }

/-- R145: DEC_INT yields a value exactly for the elements `[ "-" ] ( "0" | DIGIT1-9 DIGIT* )` whose value is in
the INT range, and Error for every other element; it takes back every INT value ENC_INT encodes. Nothing but the
output changes. -/
def Obligations.DecIntAcceptsIntegerLiteralsInRange : Prop :=
  ∀ s : State, s.phase = .running →
    (∀ e : Bytes, ∃ r : Option Int, exec (.decInt e) s = .next { s with out := ⟨.intOrError r, []⟩ } ∧
      ∀ v : Int, r = some v ↔
        (s.cfg.inInt v = true ∧ ∃ ds : Bytes, JsonIntPart ds ∧
          ((e = ds ∧ v = (Nat.ofDigits 10 (ds.reverse.map fun d => d.toNat - 0x30) : Nat)) ∨
            (e = 0x2D :: ds ∧ v = -((Nat.ofDigits 10 (ds.reverse.map fun d => d.toNat - 0x30) : Nat) : Int))))) ∧
    (∀ v : Int, s.cfg.inInt v = true →
      ∃ e : Bytes, exec (.encInt v) s = .next { s with out := ⟨.bytes e, []⟩ } ∧
        exec (.decInt e) s = .next { s with out := ⟨.intOrError (some v), []⟩ })

/-- R83, R146, R147: ENC_STR of any byte string is the quoted concatenation of the stated text of each byte, holds no
byte below 0x20, and DEC_STR takes it back. DEC_STR of a JSON value yields exactly the value its text stands for,
piece by piece (each escape, UTF-8 of a code point, surrogate pairs), and Error where it stands for none: an element
that is no string, a surrogate out of its pair. Nothing but the output changes. -/
def Obligations.StringCodecRoundTrip : Prop :=
  ∀ s : State, s.phase = .running →
    (∀ b : Bytes, ∃ (e : Bytes) (parts : List Bytes),
      exec (.encStr b) s = .next { s with out := ⟨.bytes e, []⟩ } ∧
      e = [0x22] ++ parts.flatten ++ [0x22] ∧ List.Forall₂ EmittedStrByte b parts ∧ (∀ x ∈ e, 0x20 ≤ x) ∧
      exec (.decStr e) s = .next { s with out := ⟨.bytesOrError (some b), []⟩ }) ∧
    (∀ e : Bytes, s.cfg.isElement e = true →
      ∃ r : Option Bytes, exec (.decStr e) s = .next { s with out := ⟨.bytesOrError r, []⟩ } ∧
        (∀ v, r = some v ↔ StrText e v) ∧ (e.head? ≠ some 0x22 → r = none))

/-- R148, R149: ENC_RAW and DEC_RAW return their operand unchanged; nothing but the output changes. -/
def Obligations.RawCodecIsIdentity : Prop :=
  ∀ (s : State) (b : Bytes), s.phase = .running →
    exec (.encRaw b) s = .next { s with out := ⟨.bytes b, []⟩ } ∧
    exec (.decRaw b) s = .next { s with out := ⟨.bytes b, []⟩ }

/-! ### Encodings -/

/-- Every well-formed instruction that has an encoding is decoded from it, with every operand at every value: the
command port, RESET, the five line rows in both checksum forms, and the two checksum field rows (R70 to R92,
R154; the operand lines of the port and the encoder's line form are log 9 and log 11). -/
def Obligations.DecodeOfEncodeIsIdentity : Prop :=
  ∀ (c : Params) (i : Instr) (e : Encoded), c.legal = true → wellFormed c i = true → encode c i = some e →
    decode c e = .ok i

/-- R31, R71, R82, R84, R142: what a wire line without NL decodes to is well-formed: word-character prefix, INT
fields in range, a RAW body that is one JSON value. -/
def Obligations.DecodedLinesAreWellFormed : Prop :=
  ∀ (c : Params) (b : Bytes) (i : Instr), c.legal = true → c.nl ∉ b → decode c (.line b) = .ok i →
    wellFormed c i = true ∧ i.format = .line

/-- R76, R77, R87 to R91: words written out from the spec's encodings decode to the instruction they stand for
(the operand lines of a bare command word are zero, log 9); a sanity statement. -/
def Obligations.SpecEncodedWordsDecode : Prop :=
  decodeTableWord 8 0 = some (.feed [] 0) ∧ decodeTableWord 8 1 = some .drain ∧
  decodeTableWord 8 2 = some (.nextSend 0 false) ∧ decodeTableWord 8 3 = some .reservedOp3 ∧
  decode Params.default (.line (ascii "TQ[19700101,1555]b25")) = .ok (.lineTq .value ⟨19700101, 1555, 0, 0⟩) ∧
  decode Params.default (.line (ascii "PS[48879,3]qed")) = .ok (.linePs .value ⟨48879, 3, [], [], []⟩) ∧
  decode Params.default (.ckfield (ascii "Xwb")) = .ok (.ckfieldValue 23 48 27)

/-! ### Time synchronizer -/

/-- R10, R171: MSEC completes where the mark fits an INT, with the integer nearest to the exact quotient
`(t - START) * 1000 / TPS`, the even one on a tie; where it does not fit it is refused. Nothing but the output
changes. -/
def Obligations.MsecRoundsHalfEven : Prop :=
  ∀ (s : State) (t : Time), s.phase = .running → 1 ≤ s.cfg.tps →
    ∃ m : Int,
      2 * |(t - s.start) * 1000 - m * s.cfg.tps| ≤ s.cfg.tps ∧
      (2 * |(t - s.start) * 1000 - m * s.cfg.tps| = s.cfg.tps → m % 2 = 0) ∧
      (s.cfg.inInt m = true → exec (.msec t) s = .next { s with out := ⟨.int m, []⟩ }) ∧
      (s.cfg.inInt m = false → exec (.msec t) s = .refused .markOutsideInt)

/-- R85, R172: UTC_PACK of a time in its range completes with the packed date and time of day of the Gregorian
calendar instant that lies the whole milliseconds of `now` after 1970-01-01T00:00:00; outside the range it is
refused. Nothing but the output changes. -/
def Obligations.UtcPackIsTheCalendarInstant : Prop :=
  ∀ (s : State) (now : Time), s.phase = .running → 1 ≤ s.cfg.tps →
    (s.cfg.inCalendar now = true →
      ∃ y m d h mi sec ms : Nat, 1970 ≤ y ∧ y ≤ 9999 ∧ 1 ≤ m ∧ m ≤ 12 ∧ 1 ≤ d ∧ d ≤ daysInMonth y m ∧
        h < 24 ∧ mi < 60 ∧ sec < 60 ∧ ms < 1000 ∧
        ((dayNumber y m d * 86400000 + h * 3600000 + mi * 60000 + sec * 1000 + ms : Nat) : Int) =
          now * 1000 / s.cfg.tps ∧
        exec (.utcPack now) s = .next { s with
          out := ⟨.stamp (y * 10000 + m * 100 + d : Nat)
            (h * 10000000 + mi * 100000 + sec * 1000 + ms : Nat), []⟩ }) ∧
    (s.cfg.inCalendar now = false → exec (.utcPack now) s = .refused .timeOutsideCalendar)

/-- R173: TS_HAS is true iff a reply is pending or `now >= NEXT_Q`; nothing but the output changes. -/
def Obligations.TsHasIffPendingOrDue : Prop :=
  ∀ (s : State) (now : Time), s.phase = .running →
    ∃ b : Bool, exec (.tsHas now) s = .next { s with out := ⟨.bool b, []⟩ } ∧
      (b = true ↔ s.pendV = true ∨ s.nextQ ≤ now)

/-- R171, R172, R174, R175, R176: TS_GET takes the pending reply with tx_msec stamped and clears only PEND_V; else,
when due, it returns a query stamped with the date and time of `now`, echo fields 0, and writes only NEXT_Q; else it
returns none and writes nothing. It is refused where the reply's mark does not fit an INT, and where the time of a due
query is outside the calendar range (log 19). That a query is returned for every INT_W, also below 29 where its stamp
need not be an INT, is the model's choice (log 25). -/
def Obligations.TsGetTakesOneOfThreeBranches : Prop :=
  ∀ (s : State) (now : Time), s.phase = .running →
    (s.pendV = true → s.cfg.inInt (msecMark s.cfg s.start now) = true →
      exec (.tsGet now) s = .next { s with
        pendV := false
        out := ⟨.payload (some (.timeReply { s.pend with txMsec := msecMark s.cfg s.start now })), []⟩ }) ∧
    (s.pendV = false → s.nextQ ≤ now → s.cfg.inCalendar now = true →
      exec (.tsGet now) s = .next { s with
        nextQ := max (s.nextQ + 5 * s.cfg.tps) (now + 5 * s.cfg.tps - s.cfg.tps)
        out := ⟨.payload (some (.timeQuery ⟨(utcPack s.cfg now).1, (utcPack s.cfg now).2, 0, 0⟩)), []⟩ }) ∧
    (s.pendV = false → now < s.nextQ →
      exec (.tsGet now) s = .next { s with out := ⟨.payload none, []⟩ }) ∧
    (s.pendV = true → s.cfg.inInt (msecMark s.cfg s.start now) = false →
      exec (.tsGet now) s = .refused .markOutsideInt) ∧
    (s.pendV = false → s.nextQ ≤ now → s.cfg.inCalendar now = false →
      exec (.tsGet now) s = .refused .timeOutsideCalendar)

/-- R177 (a), (b), (c): a query sent at most one grace late moves the schedule by one interval from the scheduled
time, a later one to four seconds after the send; the schedule never falls below either, and moves forward. That
TS_GET answers a due query for every INT_W, also below 29 where its stamp need not be an INT, is the model's choice
(log 25). -/
def Obligations.SlipLimitedScheduleSpacing : Prop :=
  ∀ (s : State) (now : Time), s.phase = .running → 1 ≤ s.cfg.tps → s.pendV = false → s.nextQ ≤ now →
    s.cfg.inCalendar now = true →
    ∃ t, exec (.tsGet now) s = .next t ∧
      (now ≤ s.nextQ + s.cfg.tps → t.nextQ = s.nextQ + 5 * s.cfg.tps) ∧
      (s.nextQ + s.cfg.tps < now → t.nextQ = now + 4 * s.cfg.tps) ∧
      now + 4 * s.cfg.tps ≤ t.nextQ ∧ s.nextQ + 5 * s.cfg.tps ≤ t.nextQ ∧ s.nextQ < t.nextQ

/-- R171, R178, R267: TS_ONQ stores the echo of the query's date and time with rx_msec, placeholder 0 and the local
fingerprint, whatever the slot held, so of two queries the last one wins; only the slot changes. Where the mark does
not fit an INT it is refused. -/
def Obligations.LastQueryWins : Prop :=
  ∀ (s : State) (q : TimeQuery) (w : Time), s.phase = .running → (Variant.timeQuery q).inRange s.cfg = true →
    (s.cfg.inInt (msecMark s.cfg s.start w) = false → exec (.tsOnq q w) s = .refused .markOutsideInt) ∧
    (s.cfg.inInt (msecMark s.cfg s.start w) = true →
      ∃ t, exec (.tsOnq q w) s = .next t ∧
        t = { s with
          pendV := true
          pend := ⟨q.yyyymmdd, q.hhmmssmmm, msecMark s.cfg s.start w, 0, s.fpId, s.fpLen⟩
          out := ⟨.none, []⟩ } ∧
        ∀ (q' : TimeQuery) (w' : Time), (Variant.timeQuery q').inRange s.cfg = true →
          s.cfg.inInt (msecMark s.cfg s.start w') = true → exec (.tsOnq q' w') t = exec (.tsOnq q' w') s)

/-- R179: TS_ONR reads nothing, writes nothing and returns nothing. -/
def Obligations.ReceivedReplyHasNoEffect : Prop :=
  ∀ (s : State) (r : TimeReply) (w : Time), s.phase = .running →
    (Variant.timeReply r).inRange s.cfg = true →
    exec (.tsOnr r w) s = .next { s with out := ⟨.none, []⟩ }

/-! ### Session -/

/-- R201 to R204: FEED on a chunk within CHUNK_MAX answers what the rule's `while` loop answers, run with one turn
of fuel for each byte. -/
def Obligations.FeedIsTheRuleLoop : Prop :=
  ∀ (s : State) (data : Bytes) (w : Time), s.phase = .running → s.cfg.chunkOk data = true →
    exec (.feed data w) s = feedLoop w data.length data { s with out := ⟨.none, []⟩ }

/-- R51, and R204 (c) for the size condition: feeding a byte string in two chunks with one arrival time, the first
of which cannot reach the bound, gives the state of feeding it in one, and the events in the same order. -/
def Obligations.ChunkBoundariesCarryNoMeaning : Prop :=
  ∀ (s s1 s2 : State) (a b : Bytes) (w : Time), s.cfg.chunkMax = none →
    (s.acc ++ a).length < s.cfg.accMax →
    exec (.feed a w) s = .next s1 → exec (.feed b w) s1 = .next s2 →
    exec (.feed (a ++ b) w) s = .next { s2 with out := ⟨.none, s1.out.events ++ s2.out.events⟩ }

/-- R171, R201 to R203, R205: FEED within CHUNK_MAX completes unless it completes a TimeQuery line whose mark does not
fit an INT; then it is refused (log 18). Where it completes it returns no result, keeps the messages queued, and changes
neither the schedule nor the epoch, fingerprint, profile, parameters, phase or inputs. -/
def Obligations.FeedCompletesAndKeepsSchedule : Prop :=
  ∀ (s : State) (data : Bytes) (w : Time), s.phase = .running → s.cfg.chunkOk data = true →
    ((∀ line t, s.Completes data w line t → s.cfg.IsQueryLine line →
        s.cfg.inInt (msecMark s.cfg s.start t) = true) →
      ∃ t, exec (.feed data w) s = .next t ∧ t.out.result = .none ∧ s.mq <+: t.mq ∧
        t.nextQ = s.nextQ ∧ t.start = s.start ∧ t.fpId = s.fpId ∧ t.fpLen = s.fpLen ∧
        t.profile = s.profile ∧ t.cfg = s.cfg ∧ t.phase = s.phase ∧ t.inbox = s.inbox ∧ t.freeCtr = s.freeCtr) ∧
    (∀ line t, s.Completes data w line t → s.cfg.IsQueryLine line →
      s.cfg.inInt (msecMark s.cfg s.start t) = false → exec (.feed data w) s = .refused .markOutsideInt)

/-- R52, R202, R204, R236: a non-empty chunk without NL is appended to the accumulator, whose earlier bytes read
as before, unless the length then reaches ACC_MAX: the accumulator is emptied and OVERFLOW reports its length. The
line timestamp is written only when the accumulator was empty. Nothing else changes. -/
def Obligations.ChunkTailAppendsOrOverflows : Prop :=
  ∀ (s : State) (data : Bytes) (w : Time), s.phase = .running → s.cfg.chunkOk data = true →
    data ≠ [] → s.cfg.nl ∉ data →
    (s.acc.length + data.length < s.cfg.accMax →
      ∃ t, exec (.feed data w) s = .next t ∧
        t = { s with
          acc := s.acc ++ data
          lineT := if s.acc = [] then w else s.lineT
          out := ⟨.none, []⟩ } ∧
        (∀ a, a < s.acc.length → memRead t.acc a 1 = memRead s.acc a 1) ∧
        memRead t.acc s.acc.length data.length = some data) ∧
    (s.cfg.accMax ≤ s.acc.length + data.length →
      exec (.feed data w) s = .next { s with
        acc := []
        lineT := if s.acc = [] then w else s.lineT
        out := ⟨.none, [.overflow (s.acc.length + data.length)]⟩ })

/-- R23, R202: with an empty accumulator the outcome of feeding at least one byte does not depend on the old line
timestamp, so no read of S.LINE_T precedes its first write. -/
def Obligations.LineTimeIsWrittenBeforeItIsRead : Prop :=
  ∀ (s : State) (data : Bytes) (w x : Time), s.acc = [] → data ≠ [] →
    exec (.feed data w) { s with lineT := x } = exec (.feed data w) s

/-- R230, R241: every event of a FEED stands for one line or for the tail: there are at most as many as newlines in
the chunk, plus one. -/
def Obligations.FeedEventsBoundedByLines : Prop :=
  ∀ (s t : State) (data : Bytes) (w : Time), exec (.feed data w) s = .next t →
    t.out.events.length ≤ data.count s.cfg.nl + 1

/-- R205, R206, R238: LINE_PROCESS of a line without NL reports the first class that applies, in pipeline order
STRUCT, CKSUM, UNKNOWN, DECODE, and drops the line; a line that decodes has the effect of its LINE row (log 11). -/
def Obligations.LineProcessReportsFirstClass : Prop :=
  ∀ (s : State) (b : Bytes), s.phase = .running → s.cfg.legal = true → s.cfg.nl ∉ b →
    match decodeLine s.cfg b with
    | .ok (.lineUnknown _ l) =>
      exec (.lineProcess b) s = .next { s with out := ⟨.none, [.unknown l.pfx l.payload]⟩ }
    | .ok i => exec (.lineProcess b) s = exec i s
    | .reject .structural => exec (.lineProcess b) s = .next { s with out := ⟨.none, [.struct b]⟩ }
    | .reject (.cksum received computed) =>
      exec (.lineProcess b) s = .next { s with out := ⟨.none, [.cksum b received computed]⟩ }
    | .reject (.payload p q) => exec (.lineProcess b) s = .next { s with out := ⟨.none, [.decode p q]⟩ }
    | .reject .ckField => False

/-- R205, R206, and log 11 for what a LINE row run alone means: the LINE rows complete: a Publish is queued as its
message, a TimeQuery sets the pending reply from the line timestamp, a TimeReply does nothing, a ProfileStart is
reported UNHANDLED, an unknown line UNKNOWN. Nothing else changes. A Publish that finds a queue of finite depth full
is dropped (log 16); a TimeQuery whose mark does not fit an INT is refused (R171). That S.LINE_T is read as State
holds it, also where nothing has written it (R23), is the model's choice (log 20). -/
def Obligations.LineRowsHaveTheirEffect : Prop :=
  ∀ (s : State) (ck : CkForm), s.phase = .running →
    (∀ p, wellFormed s.cfg (.linePublish ck p) = true →
      exec (.linePublish ck p) s = .next { s with
        mq := if s.cfg.mqDepth.all (fun d => decide (s.mq.length < d)) then
          s.mq ++ [⟨p.topic, p.body, schemaResolve Config.schemaLookup p.schemaName, 0, p.msec⟩] else s.mq
        out := ⟨.none, []⟩ }) ∧
    (∀ q, wellFormed s.cfg (.lineTq ck q) = true → s.cfg.inInt (msecMark s.cfg s.start s.lineT) = true →
      exec (.lineTq ck q) s = .next { s with
        pendV := true
        pend := ⟨q.yyyymmdd, q.hhmmssmmm, msecMark s.cfg s.start s.lineT, 0, s.fpId, s.fpLen⟩
        out := ⟨.none, []⟩ }) ∧
    (∀ q, wellFormed s.cfg (.lineTq ck q) = true → s.cfg.inInt (msecMark s.cfg s.start s.lineT) = false →
      exec (.lineTq ck q) s = .refused .markOutsideInt) ∧
    (∀ r, wellFormed s.cfg (.lineTr ck r) = true →
      exec (.lineTr ck r) s = .next { s with out := ⟨.none, []⟩ }) ∧
    (∀ p, wellFormed s.cfg (.linePs ck p) = true →
      exec (.linePs ck p) s =
        .next { s with out := ⟨.none, [.unhandled s.cfg.pfxPs (.profileStart p)]⟩ }) ∧
    (∀ l, wellFormed s.cfg (.lineUnknown ck l) = true →
      exec (.lineUnknown ck l) s = .next { s with out := ⟨.none, [.unknown l.pfx l.payload]⟩ })

/-- R171, R205, R206: LINE_PROCESS completes on every line, but it is refused on a TimeQuery line where the mark of
the line timestamp does not fit an INT (log 18); at most one event is emitted, and the accumulator, the schedule and
the line timestamp stay. DISPATCH completes on every variant value (on a TimeQuery where the mark fits, else it is
refused) with the effect of its kind: a Publish is queued as its message, a TimeQuery sets the pending reply, a
TimeReply does nothing, a ProfileStart is reported UNHANDLED. Nothing else changes. A Publish that finds a queue of
finite depth full is dropped (log 16). That S.LINE_T is read as State holds it, also where nothing has written it
(R23), is the model's choice (log 20), and so is what LINE_PROCESS makes of a string that holds NL, which R205 never
hands it (log 14). -/
def Obligations.LineProcessAndDispatchComplete : Prop :=
  ∀ s : State, s.phase = .running →
    (∀ b : Bytes, s.cfg.IsQueryLine b → s.cfg.inInt (msecMark s.cfg s.start s.lineT) = false →
      exec (.lineProcess b) s = .refused .markOutsideInt) ∧
    (∀ b : Bytes, (s.cfg.IsQueryLine b → s.cfg.inInt (msecMark s.cfg s.start s.lineT) = true) →
      ∃ t, exec (.lineProcess b) s = .next t ∧ t.out.result = .none ∧ t.out.events.length ≤ 1 ∧
        t.acc = s.acc ∧ t.nextQ = s.nextQ ∧ t.lineT = s.lineT) ∧
    (∀ p, (Variant.publish p).inRange s.cfg = true →
      exec (.dispatch (.publish p)) s = .next { s with
        mq := if s.cfg.mqDepth.all (fun d => decide (s.mq.length < d)) then
          s.mq ++ [⟨p.topic, p.body, schemaResolve Config.schemaLookup p.schemaName, 0, p.msec⟩] else s.mq
        out := ⟨.none, []⟩ }) ∧
    (∀ q, (Variant.timeQuery q).inRange s.cfg = true → s.cfg.inInt (msecMark s.cfg s.start s.lineT) = true →
      exec (.dispatch (.timeQuery q)) s = .next { s with
        pendV := true
        pend := ⟨q.yyyymmdd, q.hhmmssmmm, msecMark s.cfg s.start s.lineT, 0, s.fpId, s.fpLen⟩
        out := ⟨.none, []⟩ }) ∧
    (∀ q, (Variant.timeQuery q).inRange s.cfg = true → s.cfg.inInt (msecMark s.cfg s.start s.lineT) = false →
      exec (.dispatch (.timeQuery q)) s = .refused .markOutsideInt) ∧
    (∀ r, (Variant.timeReply r).inRange s.cfg = true →
      exec (.dispatch (.timeReply r)) s = .next { s with out := ⟨.none, []⟩ }) ∧
    (∀ p, (Variant.profileStart p).inRange s.cfg = true →
      exec (.dispatch (.profileStart p)) s =
        .next { s with out := ⟨.none, [.unhandled s.cfg.pfxPs (.profileStart p)]⟩ })

/-- R207, R208, R209: the schema bytes of each form of schema name, for whatever the registry holds, and the message
MK_MSG makes; nothing but the output changes. -/
def Obligations.SchemaNamesResolveByForm : Prop :=
  ∀ s : State, s.phase = .running →
    exec (.schemaResolve []) s = .next { s with out := ⟨.bytes [], []⟩ } ∧
    (∀ rest, exec (.schemaResolve (ascii "json:" ++ rest)) s = .next { s with out := ⟨.bytes rest, []⟩ }) ∧
    (∀ name, ∃ b, exec (.schemaLookup name) s = .next { s with out := ⟨.bytes b, []⟩ } ∧
      exec (.schemaResolve (ascii "fox:" ++ name)) s = .next { s with
        out := ⟨.bytes (if b = [] then ascii "ERROR:NOTFOUND:" ++ name else b), []⟩ }) ∧
    (∀ n : Bytes, n ≠ [] → ¬ (ascii "json:" <+: n) → ¬ (ascii "fox:" <+: n) →
      exec (.schemaResolve n) s = .next { s with out := ⟨.bytes (ascii "ERROR:INVALID:" ++ n), []⟩ }) ∧
    (∀ p : Publish, (Variant.publish p).inRange s.cfg = true →
      ∃ b, exec (.schemaResolve p.schemaName) s = .next { s with out := ⟨.bytes b, []⟩ } ∧
        exec (.mkMsg p) s = .next { s with out := ⟨.message ⟨p.topic, p.body, b, 0, p.msec⟩, []⟩ })

/-- R210: DRAIN returns the queue, oldest first, and empties it; a second DRAIN returns the empty sequence. Nothing
else changes. -/
def Obligations.DrainReturnsAndEmptiesQueue : Prop :=
  ∀ s : State, s.phase = .running →
    ∃ t, exec .drain s = .next t ∧ t = { s with mq := [], out := ⟨.messages s.mq, []⟩ } ∧
      exec .drain t = .next { t with out := ⟨.messages [], []⟩ }

/-- R211, R212 (b), (c): NEXT_SEND with nothing due, or with something due while the transmit buffer is not empty,
returns the empty byte string and changes no state. -/
def Obligations.NextSendIdleOrGatedChangesNothing : Prop :=
  ∀ (s : State) (now : Time) (txEmpty : Bool), s.phase = .running →
    ((s.pendV = false ∧ now < s.nextQ) ∨ txEmpty = false) →
    exec (.nextSend now txEmpty) s = .next { s with out := ⟨.bytes [], []⟩ }

/-- R174, R175, R211, R212 (a): with a reply pending NEXT_SEND returns the framed reply, clearing only PEND_V, and a
query due at the time of the following call is returned by that call; with none pending a due query is returned
framed, writing only NEXT_Q. That a query is sent for every INT_W, also below 29 where its stamp need not be an INT,
is the model's choice (log 25). -/
def Obligations.ReplyIsSentBeforeQuery : Prop :=
  ∀ (s : State) (now : Time), s.phase = .running → s.cfg.legal = true →
    (s.pendV = true → s.cfg.inInt (msecMark s.cfg s.start now) = true →
      ∃ (b : Bytes) (t : State),
        lineSer s.cfg (plEnc s.cfg (.timeReply { s.pend with txMsec := msecMark s.cfg s.start now })) = some b ∧
        exec (.nextSend now true) s = .next t ∧
        t = { s with pendV := false, out := ⟨.bytes (b ++ [s.cfg.nl]), []⟩ } ∧
        ∀ now' : Time, s.nextQ ≤ now' → s.cfg.inCalendar now' = true →
          ∃ b' : Bytes,
            lineSer s.cfg (plEnc s.cfg (.timeQuery ⟨(utcPack s.cfg now').1, (utcPack s.cfg now').2, 0, 0⟩)) =
              some b' ∧
            exec (.nextSend now' true) t = .next { t with
              nextQ := max (s.nextQ + 5 * s.cfg.tps) (now' + 5 * s.cfg.tps - s.cfg.tps)
              out := ⟨.bytes (b' ++ [s.cfg.nl]), []⟩ }) ∧
    (s.pendV = false → s.nextQ ≤ now → s.cfg.inCalendar now = true →
      ∃ b : Bytes,
        lineSer s.cfg (plEnc s.cfg (.timeQuery ⟨(utcPack s.cfg now).1, (utcPack s.cfg now).2, 0, 0⟩)) = some b ∧
        exec (.nextSend now true) s = .next { s with
          nextQ := max (s.nextQ + 5 * s.cfg.tps) (now + 5 * s.cfg.tps - s.cfg.tps)
          out := ⟨.bytes (b ++ [s.cfg.nl]), []⟩ })

/-- R171, R172, R211: NEXT_SEND is refused exactly where, with the transmit buffer empty, a pending reply's mark does
not fit an INT, or, with none pending, a due query's time is outside the calendar range. That a query's stamp is not
checked against INT, so that there is no other refusal for an INT_W below 29 either, is the model's choice (log 25). -/
def Obligations.NextSendRefusesOnlyOutOfRangeTimes : Prop :=
  ∀ (s : State) (now : Time) (txEmpty : Bool), s.phase = .running →
    (exec (.nextSend now txEmpty) s = .refused .markOutsideInt ↔
      txEmpty = true ∧ s.pendV = true ∧ s.cfg.inInt (msecMark s.cfg s.start now) = false) ∧
    (exec (.nextSend now txEmpty) s = .refused .timeOutsideCalendar ↔
      txEmpty = true ∧ s.pendV = false ∧ s.nextQ ≤ now ∧ s.cfg.inCalendar now = false) ∧
    ∀ r, exec (.nextSend now txEmpty) s = .refused r → r = .markOutsideInt ∨ r = .timeOutsideCalendar

/-- R211, R212 (f): what NEXT_SEND returns is empty, or one line without NL followed by one NL, that LINE_PARSE
accepts as valid and that decodes to a TimeReply or a TimeQuery. INT_W of at least 29 holds the packed stamps (log
25). -/
def Obligations.SentLinesParseBackAsTimeSync : Prop :=
  ∀ (s t : State) (now : Time) (txEmpty : Bool) (b : Bytes), s.Inv → 29 ≤ s.cfg.intW →
    exec (.nextSend now txEmpty) s = .next t → t.out.result = .bytes b →
    b = [] ∨ ∃ (line : Bytes) (l : Line) (v : Variant),
      b = line ++ [s.cfg.nl] ∧ s.cfg.nl ∉ line ∧ lineParse s.cfg line = .ok l .valid ∧
      plDec s.cfg l = .known v ∧ ((∃ r, v = .timeReply r) ∨ ∃ q, v = .timeQuery q)

/-- R268: with the default parameters no line NEXT_SEND returns is longer than 133 bytes, its NL counted. -/
def Obligations.SentLinesAreAtMost133Bytes : Prop :=
  ∀ (s t : State) (now : Time) (txEmpty : Bool) (b : Bytes), s.Inv → s.cfg = Params.default →
    exec (.nextSend now txEmpty) s = .next t → t.out.result = .bytes b → b.length ≤ 133

/-- R273: a query the block sends, fed back to it on an empty accumulator, sets its own pending reply with the
query's stamp, without an event and without a message. INT_W of at least 29 holds the stamp (log 25). -/
def Obligations.LoopedBackQuerySetsOwnReply : Prop :=
  ∀ (s : State) (now w : Time), s.Inv → s.phase = .running → 29 ≤ s.cfg.intW → s.cfg.chunkMax = none →
    s.acc = [] → s.pendV = false → s.nextQ ≤ now → s.cfg.inCalendar now = true →
    s.cfg.inInt (msecMark s.cfg s.start w) = true →
    ∃ (t u : State) (b : Bytes), exec (.nextSend now true) s = .next t ∧ t.out.result = .bytes b ∧
      exec (.feed b w) t = .next u ∧
      u = { t with
        lineT := w
        pendV := true
        pend := ⟨(utcPack s.cfg now).1, (utcPack s.cfg now).2, msecMark s.cfg s.start w, 0, s.fpId, s.fpLen⟩
        out := ⟨.none, []⟩ }

/-- R28, R38: while no reply is pending, the fields of the pending slot are not read: FEED, DRAIN and NEXT_SEND
answer with the same outputs and the same other state whatever they hold, unless a query then fills the slot. -/
def Obligations.EmptyPendingSlotIsNotRead : Prop :=
  ∀ (s t : State) (r : TimeReply) (i : Instr), s.pendV = false →
    (i = .drain ∨ (∃ data w, i = .feed data w) ∨ ∃ now e, i = .nextSend now e) →
    exec i s = .next t →
    exec i { s with pend := r } = .next { t with pend := if t.pendV then t.pend else r }

/-! ### Reset, stops, and the whole machine -/

/-- R38, R260, and log 15 for every phase, every T0 and every PROFILE_LEN in the INT range, negative ones too:
RESET(T0) with configuration inputs in the INT range completes and leaves every
element at the value the spec gives; S.LINE_T and the fields of S.TS.PEND are left open (log 2, log 3), so nothing
is said of them. Parameters and waiting inputs stay. -/
def Obligations.ResetConstructsTheSession : Prop :=
  ∀ (s : State) (t0 : Time) (id len : Int), s.cfg.inInt id = true → s.cfg.inInt len = true →
    ∃ t, exec (.reset t0 id len) s = .next t ∧
      t.acc = [] ∧ t.mq = [] ∧ t.start = t0 ∧ t.nextQ = t0 ∧ t.pendV = false ∧ t.fpId = id ∧ t.fpLen = len ∧
      t.profile = ⟨id, len⟩ ∧ t.phase = .running ∧ t.out = ⟨.none, []⟩ ∧ t.cfg = s.cfg ∧ t.inbox = s.inbox

/-- R92 (g): the reserved command code is refused in every state. -/
def Obligations.ReservedCodeIsRefused : Prop :=
  ∀ s : State, exec .reservedOp3 s = .refused .reservedCommand

/-- R11, R103, R104, R126, R144, R172, R201, R261 (4), with log 13 for the names of the refusals: an operation is
refused for an operand outside the domain its rule states exactly where the operand is not well-formed, UTC_PACK under
a name of its own; and the domains of CK_DEC, CK_VERIFY, LINE_SER, ENC_INT, FEED and RESET are the stated ones. Not
refused, by the model's choice, are a byte string with NL for LINE_PARSE and LINE_PROCESS (log 14), and for RESET a T0
outside the range of R172 and a negative PROFILE_LEN (log 15). -/
def Obligations.OperandsOutsideDomainAreRefused : Prop :=
  ∀ s : State, s.phase = .running →
    (∀ i : Instr, (∀ now, i ≠ .utcPack now) →
      (exec i s = .refused .operandOutsideDomain ↔ wellFormed s.cfg i = false)) ∧
    (∀ now, exec (.utcPack now) s = .refused .timeOutsideCalendar ↔
      now < 0 ∨ 253402300800 * (s.cfg.tps : Int) ≤ now) ∧
    (∀ f : Bytes, (f.length ≠ 3 ∨ ∃ x ∈ f, isB64Url x = false) →
      exec (.ckDec f) s = .refused .operandOutsideDomain ∧
      ∀ span, exec (.ckVerify span f) s = .refused .operandOutsideDomain) ∧
    (∀ p, exec (.lineSer ⟨p, []⟩) s = .refused .operandOutsideDomain) ∧
    (∀ v, s.cfg.inInt v = false → exec (.encInt v) s = .refused .operandOutsideDomain) ∧
    (∀ (data : Bytes) (w : Time) (m : Nat), s.cfg.chunkMax = some m → m < data.length →
      exec (.feed data w) s = .refused .operandOutsideDomain) ∧
    (∀ t0 id len, s.cfg.inInt id = false ∨ s.cfg.inInt len = false →
      exec (.reset t0 id len) s = .refused .operandOutsideDomain)

/-- R230: the code and severity columns of the event table. -/
def Obligations.EventTableCodesAndSeverities : Prop :=
  (EventClass.struct.code, EventClass.struct.severity) = (1, Severity.debug) ∧
  (EventClass.cksum.code, EventClass.cksum.severity) = (2, Severity.warning) ∧
  (EventClass.unknown.code, EventClass.unknown.severity) = (3, Severity.debug) ∧
  (EventClass.decode.code, EventClass.decode.severity) = (4, Severity.warning) ∧
  (EventClass.contract.code, EventClass.contract.severity) = (5, Severity.fault) ∧
  (EventClass.overflow.code, EventClass.overflow.severity) = (6, Severity.warning) ∧
  (EventClass.unhandled.code, EventClass.unhandled.severity) = (7, Severity.debug)

/-- R21, R200, R247, and log 5 for the inputs: a step takes the next input and runs the instruction it encodes; with
no input waiting the block holds its state. -/
def Obligations.StepRunsTheDecodedInput : Prop :=
  (∀ (s : State) (p : PortInput) (rest : List PortInput) (i : Instr), s.inbox = p :: rest →
    decode s.cfg (.port p) = .ok i → step s = exec i { s with inbox := rest }) ∧
  (∀ s : State, s.inbox = [] → step s = .next s)

/-- R37, R38: the state after reset has the invariants. -/
def Obligations.ResetStateHasInvariants : Prop := State.Inv State.reset

/-- R37: every operation, and so every step, keeps the invariants, from every state that has them. -/
def Obligations.EveryStepKeepsInvariants : Prop :=
  (∀ (i : Instr) (s t : State), s.Inv → exec i s = .next t → t.Inv) ∧
  (∀ s t : State, s.Inv → step s = .next t → t.Inv)

/-- R22 to R24, R26 to R29, R37 (d), (e): which operations can write which element: the accumulator and the line
timestamp FEED and RESET only; the schedule a query or RESET only, and it never decreases but by RESET; the pending
slot is filled by TS_ONQ and the operations that hand it a TimeQuery and emptied by TS_GET and the NEXT_SEND that
sends; the queue is appended to by the operations that hand on a Publish and emptied by DRAIN; the epoch, fingerprint
and profile RESET only; parameters and inputs none; the phase only RESET and a serializer. -/
def Obligations.StateIsWrittenOnlyByItsOperations : Prop :=
  ∀ (i : Instr) (s t : State), s.cfg.legal = true → exec i s = .next t → (∀ t0 a b, i ≠ .reset t0 a b) →
    ((∀ data w, i ≠ .feed data w) → t.acc = s.acc ∧ t.lineT = s.lineT) ∧
    ((∀ now, i ≠ .tsGet now) → (∀ now, i ≠ .nextSend now true) → t.nextQ = s.nextQ) ∧
    s.nextQ ≤ t.nextQ ∧
    (¬ i.mayFillSlot → t.pend = s.pend ∧ (t.pendV = true → s.pendV = true)) ∧
    (¬ i.mayEmptySlot → s.pendV = true → t.pendV = true) ∧
    (¬ i.mayEnqueue → i ≠ .drain → t.mq = s.mq) ∧ (i ≠ .drain → s.mq <+: t.mq) ∧
    t.start = s.start ∧ t.fpId = s.fpId ∧ t.fpLen = s.fpLen ∧ t.profile = s.profile ∧
    t.cfg = s.cfg ∧ t.inbox = s.inbox ∧ t.freeCtr = s.freeCtr ∧
    ((∀ l, i ≠ .lineSer l) → t.phase = s.phase)

/-- R200, R235, R242: from a running state with the invariants no step faults and none leaves the running phase:
CONTRACT cannot be reached through the external operations. -/
def Obligations.ContractUnreachableFromOutside : Prop :=
  ∀ s : State, s.Inv → s.phase = .running →
    SafeAnswer (step s) ∧ ∀ t, step s = .next t → t.phase = .running

/-- R70, R121 to R124, R92 (d), (e): LINE_PARSE answers Struct exactly for the byte strings outside the grammar of
rule R70; so a line whose last three bytes before trailing whitespace are neither B64URL nor the bypass token, one
shorter than that, and one with nothing but whitespace before the field are Struct. What LINE_PARSE makes of a string
that holds NL, outside the operand of R120, is the model's choice (log 14). -/
def Obligations.StructIsExactlyOutsideTheGrammar : Prop :=
  ∀ (s : State) (b : Bytes), s.phase = .running → s.cfg.legal = true →
    (exec (.lineParse b) s = .next { s with out := ⟨.parse .structural, []⟩ } ↔ ¬ s.cfg.LineGrammar b) ∧
    (∀ core trail : Bytes, b = core ++ trail → (∀ x ∈ trail, s.cfg.isWs x = true) → core.length < 3 →
      exec (.lineParse b) s = .next { s with out := ⟨.parse .structural, []⟩ }) ∧
    (∀ before f trail : Bytes, b = before ++ f ++ trail → (∀ x ∈ trail, s.cfg.isWs x = true) →
      f.length = 3 → (f.getLast?.all fun x => !s.cfg.isWs x) = true →
      ((f ≠ s.cfg.bypass ∧ ¬ ∀ x ∈ f, isB64Url x = true) ∨ ∀ x ∈ before, s.cfg.isWs x = true) →
      exec (.lineParse b) s = .next { s with out := ⟨.parse .structural, []⟩ })
end

