-- ==== Sys2Proof/Laws/Codec.lean ====
section
/-! SUPPORT. What the pure functions of the checksum codec, the bounded queue, the framer and the registry answer,
said once. -/

namespace Sys2Proof

/-! ### Checksum fields -/

theorem ckDec_eq_some {c : Params} {f : Bytes} {v : U18} :
    ckDec c f = some v ↔ ∃ f0 f1 f2, f = [f0, f1, f2] ∧ isB64Url f0 = true ∧ isB64Url f1 = true ∧
      isB64Url f2 = true ∧ v = ckAssemble (c.b64Val f0) (c.b64Val f1) (c.b64Val f2) := by
  unfold ckDec
  split
  · rename_i f0 f1 f2
    split
    · rename_i h
      simp only [Bool.and_eq_true] at h
      constructor
      · intro e; cases e; exact ⟨f0, f1, f2, rfl, h.1.1, h.1.2, h.2, rfl⟩
      · rintro ⟨_, _, _, he, -, -, -, rfl⟩; cases he; rfl
    · rename_i h
      simp only [Bool.and_eq_true, not_and, Bool.not_eq_true] at h
      simp only [reduceCtorEq, false_iff, not_exists, not_and]
      intro g0 g1 g2 e; cases e
      intro a b d; simp [h ⟨a, b⟩] at d
  · rename_i h
    simp only [reduceCtorEq, false_iff, not_exists, not_and]
    intro g0 g1 g2 e; exact absurd e (h g0 g1 g2)

theorem ckDec_isSome {c : Params} {f : Bytes} :
    (ckDec c f).isSome = true ↔ f.length = 3 ∧ f.all isB64Url = true := by
  rw [Option.isSome_iff_exists]
  constructor
  · rintro ⟨v, h⟩
    obtain ⟨f0, f1, f2, rfl, h0, h1, h2, -⟩ := ckDec_eq_some.1 h
    simp [h0, h1, h2]
  · rintro ⟨hl, ha⟩
    obtain ⟨f0, f1, f2, rfl⟩ := List.length_eq_three.1 hl
    simp only [List.all_cons, List.all_nil, Bool.and_true, Bool.and_eq_true] at ha
    exact ⟨_, ckDec_eq_some.2 ⟨f0, f1, f2, rfl, ha.1, ha.2.1, ha.2.2, rfl⟩⟩

theorem ckVerify_eq_some {c : Params} {span f : Bytes} {r : Bool × U18 × U18} :
    ckVerify c span f = some r ↔
      ∃ v, ckDec c f = some v ∧ r = (decide (v = crc18 c span), v, crc18 c span) := by
  simp only [ckVerify, Option.map_eq_some_iff]
  exact exists_congr fun v => and_congr_right fun _ => eq_comm

@[simp] theorem ckEnc_length (c : Params) (v : U18) : (ckEnc c v).length = 3 := rfl

/-! ### The queue and the pad -/

theorem Params.queueHasRoom_iff {c : Params} {n : Nat} :
    c.queueHasRoom n = true ↔ ∀ d, c.mqDepth = some d → n < d := by
  simp [Params.queueHasRoom, Option.all_eq_true]

/-- A bounded queue takes an element at its end, or stays as it is (log 16). -/
theorem Params.pushQueue_cases {α : Type} (c : Params) (q : List α) (a : α) :
    (c.queueHasRoom q.length = true ∧ c.pushQueue q a = q ++ [a]) ∨
      (c.queueHasRoom q.length = false ∧ c.pushQueue q a = q) := by
  cases h : c.queueHasRoom q.length <;> simp [Params.pushQueue, h]

theorem Params.isPrefix_pushQueue {α : Type} (c : Params) (q : List α) (a : α) : q <+: c.pushQueue q a := by
  rcases c.pushQueue_cases q a with ⟨-, h⟩ | ⟨-, h⟩ <;> simp [h]

/-- An unbounded queue takes every element (rule R24). -/
theorem Params.pushQueue_unbounded {α : Type} {c : Params} (h : c.mqDepth = none) (q : List α) (a : α) :
    c.pushQueue q a = q ++ [a] := by
  simp [Params.pushQueue, Params.queueHasRoom, h]

/-- The depth of a queue bounds its length. -/
theorem Params.pushQueue_length {α : Type} {c : Params} {q : List α} {a : α} {d : Nat}
    (hd : c.mqDepth = some d) (hq : q.length ≤ d) : (c.pushQueue q a).length ≤ d := by
  rcases c.pushQueue_cases q a with ⟨hr, h⟩ | ⟨-, h⟩
  · have := Params.queueHasRoom_iff.1 hr d hd
    simp only [h, List.length_append, List.length_singleton]; omega
  · rw [h]; exact hq

/-- With CRC_SPAN_PAD = false the span is the prefix and the payload (rule R105). -/
theorem Params.span_of_no_pad {c : Params} (h : c.crcSpanPad = false) (before : Bytes) (l : Line) :
    c.span before l = l.pfx ++ l.payload := by
  simp [Params.span, Params.pad, h]

/-! ### Stripping -/

theorem rstripBy_append (p : Byte → Bool) (b : Bytes) :
    ∃ trail, b = rstripBy p b ++ trail ∧ ∀ x ∈ trail, p x = true := by
  refine ⟨(b.reverse.takeWhile p).reverse, ?_, ?_⟩
  · rw [rstripBy, ← List.reverse_append, List.takeWhile_append_dropWhile, List.reverse_reverse]
  · intro x hx
    exact List.mem_takeWhile_imp (List.mem_reverse.1 hx)

/-! ### Lines -/

/-- The checksum field is the last three bytes before trailing whitespace (rule R121). -/
theorem splitCkField_eq_some {c : Params} {l b ck : Bytes} (h : splitCkField c l = some (b, ck)) :
    ck.length = 3 ∧ rstripBy c.isWs l = b ++ ck ∧ (ck = c.bypass ∨ ck.all isB64Url = true) := by
  unfold splitCkField at h
  dsimp only at h
  split at h
  · cases h
  · rename_i hlen
    split at h
    · rename_i hck
      simp only [Option.some.injEq, Prod.mk.injEq] at h
      obtain ⟨rfl, rfl⟩ := h
      refine ⟨by simp; omega, (List.take_append_drop _ _).symm, ?_⟩
      simpa using hck
    · cases h

theorem lineParse_eq_ok {c : Params} {l : Bytes} {line : Line} {v : Verdict}
    (h : lineParse c l = .ok line v) :
    ∃ b ck, splitCkField c l = some (b, ck) ∧ splitLine c b = some line ∧
      ((ck = c.bypass ∧ v = .bypass) ∨
        (ck ≠ c.bypass ∧ v = .valid ∧ ckDec c ck = some (crc18 c (c.span b line)))) := by
  unfold lineParse at h
  split at h
  · cases h
  · rename_i b ck hs
    split at h
    · cases h
    · rename_i line' hl
      refine ⟨b, ck, hs, ?_⟩
      unfold lineVerdict at h
      split at h
      · rename_i hb; cases h; exact ⟨hl, .inl ⟨hb, rfl⟩⟩
      · rename_i hb
        split at h
        · cases h
        · rename_i x y hv
          cases h
          obtain ⟨w, hw, hr⟩ := ckVerify_eq_some.1 hv
          simp only [Prod.mk.injEq] at hr
          obtain ⟨h1, -, -⟩ := hr
          have : w = crc18 c (c.span b line) := by simpa using h1.symm
          exact ⟨hl, .inr ⟨hb, rfl, this ▸ hw⟩⟩
        · cases h

/-! ### Payloads -/

theorem findDescriptor_eq_some {c : Params} {p : Bytes} {d : Descriptor}
    (h : findDescriptor c p = some d) : d ∈ registry c ∧ d.pfx = p := by
  refine ⟨List.mem_of_find?_eq_some h, ?_⟩
  have := List.find?_some h
  simpa using this

theorem plDec_eq_known {c : Params} {l : Line} {v : Variant} (h : plDec c l = .known v) :
    ∃ d els vs, findDescriptor c l.pfx = some d ∧ splitArray c l.payload = some els ∧
      decFields c d.fields els = some vs ∧ variantOfValues d.name vs = some v := by
  unfold plDec at h
  split at h
  · cases h
  · rename_i d hd
    split at h
    · cases h
    · rename_i els hs
      split at h
      · cases h
      · rename_i w hw
        cases h
        obtain ⟨vs, h1, h2⟩ := Option.bind_eq_some_iff.1 hw
        exact ⟨d, els, vs, hd, hs, h1, h2⟩

theorem plDec_eq_unknown {c : Params} {l : Line} : plDec c l = .unknown ↔ findDescriptor c l.pfx = none := by
  unfold plDec
  split
  · rename_i h; simp [h]
  · rename_i d hd
    simp only [hd, reduceCtorEq, iff_false]
    split
    · simp
    · split <;> simp

/-- A value is built back from its own fields (rule R140). -/
@[simp] theorem variantOfValues_values (c : Params) (v : Variant) :
    variantOfValues (v.descriptor c).name v.values = some v := by
  cases v <;> rfl

end Sys2Proof
end

