-- ==== Sys2Proof/Laws/State.lean ====
section
/-! SUPPORT. One lemma per field of the state per update of it, all true by rfl, so that no proof unfolds a
record update. -/

namespace Sys2Proof.Machine

open Sys2Proof

/-! ### begin -/

@[simp] theorem State.begin_acc (s : State) :
    s.begin.acc = s.acc := rfl

@[simp] theorem State.begin_lineT (s : State) :
    s.begin.lineT = s.lineT := rfl

@[simp] theorem State.begin_mq (s : State) :
    s.begin.mq = s.mq := rfl

@[simp] theorem State.begin_profile (s : State) :
    s.begin.profile = s.profile := rfl

@[simp] theorem State.begin_start (s : State) :
    s.begin.start = s.start := rfl

@[simp] theorem State.begin_nextQ (s : State) :
    s.begin.nextQ = s.nextQ := rfl

@[simp] theorem State.begin_pendV (s : State) :
    s.begin.pendV = s.pendV := rfl

@[simp] theorem State.begin_pend (s : State) :
    s.begin.pend = s.pend := rfl

@[simp] theorem State.begin_fpId (s : State) :
    s.begin.fpId = s.fpId := rfl

@[simp] theorem State.begin_fpLen (s : State) :
    s.begin.fpLen = s.fpLen := rfl

@[simp] theorem State.begin_cfg (s : State) :
    s.begin.cfg = s.cfg := rfl

@[simp] theorem State.begin_phase (s : State) :
    s.begin.phase = s.phase := rfl

@[simp] theorem State.begin_inbox (s : State) :
    s.begin.inbox = s.inbox := rfl

@[simp] theorem State.begin_out (s : State) :
    s.begin.out = ⟨.none, []⟩ := rfl

@[simp] theorem State.begin_freeCtr (s : State) :
    s.begin.freeCtr = s.freeCtr := rfl

/-! ### emit -/

@[simp] theorem State.emit_acc (s : State) (e : Event) :
    (s.emit e).acc = s.acc := rfl

@[simp] theorem State.emit_lineT (s : State) (e : Event) :
    (s.emit e).lineT = s.lineT := rfl

@[simp] theorem State.emit_mq (s : State) (e : Event) :
    (s.emit e).mq = s.mq := rfl

@[simp] theorem State.emit_profile (s : State) (e : Event) :
    (s.emit e).profile = s.profile := rfl

@[simp] theorem State.emit_start (s : State) (e : Event) :
    (s.emit e).start = s.start := rfl

@[simp] theorem State.emit_nextQ (s : State) (e : Event) :
    (s.emit e).nextQ = s.nextQ := rfl

@[simp] theorem State.emit_pendV (s : State) (e : Event) :
    (s.emit e).pendV = s.pendV := rfl

@[simp] theorem State.emit_pend (s : State) (e : Event) :
    (s.emit e).pend = s.pend := rfl

@[simp] theorem State.emit_fpId (s : State) (e : Event) :
    (s.emit e).fpId = s.fpId := rfl

@[simp] theorem State.emit_fpLen (s : State) (e : Event) :
    (s.emit e).fpLen = s.fpLen := rfl

@[simp] theorem State.emit_cfg (s : State) (e : Event) :
    (s.emit e).cfg = s.cfg := rfl

@[simp] theorem State.emit_phase (s : State) (e : Event) :
    (s.emit e).phase = s.phase := rfl

@[simp] theorem State.emit_inbox (s : State) (e : Event) :
    (s.emit e).inbox = s.inbox := rfl

@[simp] theorem State.emit_out (s : State) (e : Event) :
    (s.emit e).out = ⟨s.out.result, s.out.events ++ [e]⟩ := rfl

@[simp] theorem State.emit_freeCtr (s : State) (e : Event) :
    (s.emit e).freeCtr = s.freeCtr := rfl

/-! ### finish -/

@[simp] theorem State.finish_acc (s : State) (r : Result) :
    (s.finish r).acc = s.acc := rfl

@[simp] theorem State.finish_lineT (s : State) (r : Result) :
    (s.finish r).lineT = s.lineT := rfl

@[simp] theorem State.finish_mq (s : State) (r : Result) :
    (s.finish r).mq = s.mq := rfl

@[simp] theorem State.finish_profile (s : State) (r : Result) :
    (s.finish r).profile = s.profile := rfl

@[simp] theorem State.finish_start (s : State) (r : Result) :
    (s.finish r).start = s.start := rfl

@[simp] theorem State.finish_nextQ (s : State) (r : Result) :
    (s.finish r).nextQ = s.nextQ := rfl

@[simp] theorem State.finish_pendV (s : State) (r : Result) :
    (s.finish r).pendV = s.pendV := rfl

@[simp] theorem State.finish_pend (s : State) (r : Result) :
    (s.finish r).pend = s.pend := rfl

@[simp] theorem State.finish_fpId (s : State) (r : Result) :
    (s.finish r).fpId = s.fpId := rfl

@[simp] theorem State.finish_fpLen (s : State) (r : Result) :
    (s.finish r).fpLen = s.fpLen := rfl

@[simp] theorem State.finish_cfg (s : State) (r : Result) :
    (s.finish r).cfg = s.cfg := rfl

@[simp] theorem State.finish_phase (s : State) (r : Result) :
    (s.finish r).phase = s.phase := rfl

@[simp] theorem State.finish_inbox (s : State) (r : Result) :
    (s.finish r).inbox = s.inbox := rfl

@[simp] theorem State.finish_out (s : State) (r : Result) :
    (s.finish r).out = ⟨r, s.out.events⟩ := rfl

@[simp] theorem State.finish_freeCtr (s : State) (r : Result) :
    (s.finish r).freeCtr = s.freeCtr := rfl

/-! ### accAppend -/

@[simp] theorem State.accAppend_acc (s : State) (b : Bytes) :
    (s.accAppend b).acc = s.acc ++ b := rfl

@[simp] theorem State.accAppend_lineT (s : State) (b : Bytes) :
    (s.accAppend b).lineT = s.lineT := rfl

@[simp] theorem State.accAppend_mq (s : State) (b : Bytes) :
    (s.accAppend b).mq = s.mq := rfl

@[simp] theorem State.accAppend_profile (s : State) (b : Bytes) :
    (s.accAppend b).profile = s.profile := rfl

@[simp] theorem State.accAppend_start (s : State) (b : Bytes) :
    (s.accAppend b).start = s.start := rfl

@[simp] theorem State.accAppend_nextQ (s : State) (b : Bytes) :
    (s.accAppend b).nextQ = s.nextQ := rfl

@[simp] theorem State.accAppend_pendV (s : State) (b : Bytes) :
    (s.accAppend b).pendV = s.pendV := rfl

@[simp] theorem State.accAppend_pend (s : State) (b : Bytes) :
    (s.accAppend b).pend = s.pend := rfl

@[simp] theorem State.accAppend_fpId (s : State) (b : Bytes) :
    (s.accAppend b).fpId = s.fpId := rfl

@[simp] theorem State.accAppend_fpLen (s : State) (b : Bytes) :
    (s.accAppend b).fpLen = s.fpLen := rfl

@[simp] theorem State.accAppend_cfg (s : State) (b : Bytes) :
    (s.accAppend b).cfg = s.cfg := rfl

@[simp] theorem State.accAppend_phase (s : State) (b : Bytes) :
    (s.accAppend b).phase = s.phase := rfl

@[simp] theorem State.accAppend_inbox (s : State) (b : Bytes) :
    (s.accAppend b).inbox = s.inbox := rfl

@[simp] theorem State.accAppend_out (s : State) (b : Bytes) :
    (s.accAppend b).out = s.out := rfl

@[simp] theorem State.accAppend_freeCtr (s : State) (b : Bytes) :
    (s.accAppend b).freeCtr = s.freeCtr := rfl

/-! ### accClear -/

@[simp] theorem State.accClear_acc (s : State) :
    s.accClear.acc = [] := rfl

@[simp] theorem State.accClear_lineT (s : State) :
    s.accClear.lineT = s.lineT := rfl

@[simp] theorem State.accClear_mq (s : State) :
    s.accClear.mq = s.mq := rfl

@[simp] theorem State.accClear_profile (s : State) :
    s.accClear.profile = s.profile := rfl

@[simp] theorem State.accClear_start (s : State) :
    s.accClear.start = s.start := rfl

@[simp] theorem State.accClear_nextQ (s : State) :
    s.accClear.nextQ = s.nextQ := rfl

@[simp] theorem State.accClear_pendV (s : State) :
    s.accClear.pendV = s.pendV := rfl

@[simp] theorem State.accClear_pend (s : State) :
    s.accClear.pend = s.pend := rfl

@[simp] theorem State.accClear_fpId (s : State) :
    s.accClear.fpId = s.fpId := rfl

@[simp] theorem State.accClear_fpLen (s : State) :
    s.accClear.fpLen = s.fpLen := rfl

@[simp] theorem State.accClear_cfg (s : State) :
    s.accClear.cfg = s.cfg := rfl

@[simp] theorem State.accClear_phase (s : State) :
    s.accClear.phase = s.phase := rfl

@[simp] theorem State.accClear_inbox (s : State) :
    s.accClear.inbox = s.inbox := rfl

@[simp] theorem State.accClear_out (s : State) :
    s.accClear.out = s.out := rfl

@[simp] theorem State.accClear_freeCtr (s : State) :
    s.accClear.freeCtr = s.freeCtr := rfl

/-! ### setLineT -/

@[simp] theorem State.setLineT_acc (s : State) (t : Time) :
    (s.setLineT t).acc = s.acc := rfl

@[simp] theorem State.setLineT_lineT (s : State) (t : Time) :
    (s.setLineT t).lineT = t := rfl

@[simp] theorem State.setLineT_mq (s : State) (t : Time) :
    (s.setLineT t).mq = s.mq := rfl

@[simp] theorem State.setLineT_profile (s : State) (t : Time) :
    (s.setLineT t).profile = s.profile := rfl

@[simp] theorem State.setLineT_start (s : State) (t : Time) :
    (s.setLineT t).start = s.start := rfl

@[simp] theorem State.setLineT_nextQ (s : State) (t : Time) :
    (s.setLineT t).nextQ = s.nextQ := rfl

@[simp] theorem State.setLineT_pendV (s : State) (t : Time) :
    (s.setLineT t).pendV = s.pendV := rfl

@[simp] theorem State.setLineT_pend (s : State) (t : Time) :
    (s.setLineT t).pend = s.pend := rfl

@[simp] theorem State.setLineT_fpId (s : State) (t : Time) :
    (s.setLineT t).fpId = s.fpId := rfl

@[simp] theorem State.setLineT_fpLen (s : State) (t : Time) :
    (s.setLineT t).fpLen = s.fpLen := rfl

@[simp] theorem State.setLineT_cfg (s : State) (t : Time) :
    (s.setLineT t).cfg = s.cfg := rfl

@[simp] theorem State.setLineT_phase (s : State) (t : Time) :
    (s.setLineT t).phase = s.phase := rfl

@[simp] theorem State.setLineT_inbox (s : State) (t : Time) :
    (s.setLineT t).inbox = s.inbox := rfl

@[simp] theorem State.setLineT_out (s : State) (t : Time) :
    (s.setLineT t).out = s.out := rfl

@[simp] theorem State.setLineT_freeCtr (s : State) (t : Time) :
    (s.setLineT t).freeCtr = s.freeCtr := rfl

/-! ### enqueue -/

@[simp] theorem State.enqueue_acc (s : State) (m : IncomingMessage) :
    (s.enqueue m).acc = s.acc := rfl

@[simp] theorem State.enqueue_lineT (s : State) (m : IncomingMessage) :
    (s.enqueue m).lineT = s.lineT := rfl

@[simp] theorem State.enqueue_mq (s : State) (m : IncomingMessage) :
    (s.enqueue m).mq = s.cfg.pushQueue s.mq m := rfl

@[simp] theorem State.enqueue_profile (s : State) (m : IncomingMessage) :
    (s.enqueue m).profile = s.profile := rfl

@[simp] theorem State.enqueue_start (s : State) (m : IncomingMessage) :
    (s.enqueue m).start = s.start := rfl

@[simp] theorem State.enqueue_nextQ (s : State) (m : IncomingMessage) :
    (s.enqueue m).nextQ = s.nextQ := rfl

@[simp] theorem State.enqueue_pendV (s : State) (m : IncomingMessage) :
    (s.enqueue m).pendV = s.pendV := rfl

@[simp] theorem State.enqueue_pend (s : State) (m : IncomingMessage) :
    (s.enqueue m).pend = s.pend := rfl

@[simp] theorem State.enqueue_fpId (s : State) (m : IncomingMessage) :
    (s.enqueue m).fpId = s.fpId := rfl

@[simp] theorem State.enqueue_fpLen (s : State) (m : IncomingMessage) :
    (s.enqueue m).fpLen = s.fpLen := rfl

@[simp] theorem State.enqueue_cfg (s : State) (m : IncomingMessage) :
    (s.enqueue m).cfg = s.cfg := rfl

@[simp] theorem State.enqueue_phase (s : State) (m : IncomingMessage) :
    (s.enqueue m).phase = s.phase := rfl

@[simp] theorem State.enqueue_inbox (s : State) (m : IncomingMessage) :
    (s.enqueue m).inbox = s.inbox := rfl

@[simp] theorem State.enqueue_out (s : State) (m : IncomingMessage) :
    (s.enqueue m).out = s.out := rfl

@[simp] theorem State.enqueue_freeCtr (s : State) (m : IncomingMessage) :
    (s.enqueue m).freeCtr = s.freeCtr := rfl

/-! ### emptyQueue -/

@[simp] theorem State.emptyQueue_acc (s : State) :
    s.emptyQueue.acc = s.acc := rfl

@[simp] theorem State.emptyQueue_lineT (s : State) :
    s.emptyQueue.lineT = s.lineT := rfl

@[simp] theorem State.emptyQueue_mq (s : State) :
    s.emptyQueue.mq = [] := rfl

@[simp] theorem State.emptyQueue_profile (s : State) :
    s.emptyQueue.profile = s.profile := rfl

@[simp] theorem State.emptyQueue_start (s : State) :
    s.emptyQueue.start = s.start := rfl

@[simp] theorem State.emptyQueue_nextQ (s : State) :
    s.emptyQueue.nextQ = s.nextQ := rfl

@[simp] theorem State.emptyQueue_pendV (s : State) :
    s.emptyQueue.pendV = s.pendV := rfl

@[simp] theorem State.emptyQueue_pend (s : State) :
    s.emptyQueue.pend = s.pend := rfl

@[simp] theorem State.emptyQueue_fpId (s : State) :
    s.emptyQueue.fpId = s.fpId := rfl

@[simp] theorem State.emptyQueue_fpLen (s : State) :
    s.emptyQueue.fpLen = s.fpLen := rfl

@[simp] theorem State.emptyQueue_cfg (s : State) :
    s.emptyQueue.cfg = s.cfg := rfl

@[simp] theorem State.emptyQueue_phase (s : State) :
    s.emptyQueue.phase = s.phase := rfl

@[simp] theorem State.emptyQueue_inbox (s : State) :
    s.emptyQueue.inbox = s.inbox := rfl

@[simp] theorem State.emptyQueue_out (s : State) :
    s.emptyQueue.out = s.out := rfl

@[simp] theorem State.emptyQueue_freeCtr (s : State) :
    s.emptyQueue.freeCtr = s.freeCtr := rfl

/-! ### setPending -/

@[simp] theorem State.setPending_acc (s : State) (r : TimeReply) :
    (s.setPending r).acc = s.acc := rfl

@[simp] theorem State.setPending_lineT (s : State) (r : TimeReply) :
    (s.setPending r).lineT = s.lineT := rfl

@[simp] theorem State.setPending_mq (s : State) (r : TimeReply) :
    (s.setPending r).mq = s.mq := rfl

@[simp] theorem State.setPending_profile (s : State) (r : TimeReply) :
    (s.setPending r).profile = s.profile := rfl

@[simp] theorem State.setPending_start (s : State) (r : TimeReply) :
    (s.setPending r).start = s.start := rfl

@[simp] theorem State.setPending_nextQ (s : State) (r : TimeReply) :
    (s.setPending r).nextQ = s.nextQ := rfl

@[simp] theorem State.setPending_pendV (s : State) (r : TimeReply) :
    (s.setPending r).pendV = true := rfl

@[simp] theorem State.setPending_pend (s : State) (r : TimeReply) :
    (s.setPending r).pend = r := rfl

@[simp] theorem State.setPending_fpId (s : State) (r : TimeReply) :
    (s.setPending r).fpId = s.fpId := rfl

@[simp] theorem State.setPending_fpLen (s : State) (r : TimeReply) :
    (s.setPending r).fpLen = s.fpLen := rfl

@[simp] theorem State.setPending_cfg (s : State) (r : TimeReply) :
    (s.setPending r).cfg = s.cfg := rfl

@[simp] theorem State.setPending_phase (s : State) (r : TimeReply) :
    (s.setPending r).phase = s.phase := rfl

@[simp] theorem State.setPending_inbox (s : State) (r : TimeReply) :
    (s.setPending r).inbox = s.inbox := rfl

@[simp] theorem State.setPending_out (s : State) (r : TimeReply) :
    (s.setPending r).out = s.out := rfl

@[simp] theorem State.setPending_freeCtr (s : State) (r : TimeReply) :
    (s.setPending r).freeCtr = s.freeCtr := rfl

/-! ### clearPending -/

@[simp] theorem State.clearPending_acc (s : State) :
    s.clearPending.acc = s.acc := rfl

@[simp] theorem State.clearPending_lineT (s : State) :
    s.clearPending.lineT = s.lineT := rfl

@[simp] theorem State.clearPending_mq (s : State) :
    s.clearPending.mq = s.mq := rfl

@[simp] theorem State.clearPending_profile (s : State) :
    s.clearPending.profile = s.profile := rfl

@[simp] theorem State.clearPending_start (s : State) :
    s.clearPending.start = s.start := rfl

@[simp] theorem State.clearPending_nextQ (s : State) :
    s.clearPending.nextQ = s.nextQ := rfl

@[simp] theorem State.clearPending_pendV (s : State) :
    s.clearPending.pendV = false := rfl

@[simp] theorem State.clearPending_pend (s : State) :
    s.clearPending.pend = s.pend := rfl

@[simp] theorem State.clearPending_fpId (s : State) :
    s.clearPending.fpId = s.fpId := rfl

@[simp] theorem State.clearPending_fpLen (s : State) :
    s.clearPending.fpLen = s.fpLen := rfl

@[simp] theorem State.clearPending_cfg (s : State) :
    s.clearPending.cfg = s.cfg := rfl

@[simp] theorem State.clearPending_phase (s : State) :
    s.clearPending.phase = s.phase := rfl

@[simp] theorem State.clearPending_inbox (s : State) :
    s.clearPending.inbox = s.inbox := rfl

@[simp] theorem State.clearPending_out (s : State) :
    s.clearPending.out = s.out := rfl

@[simp] theorem State.clearPending_freeCtr (s : State) :
    s.clearPending.freeCtr = s.freeCtr := rfl

/-! ### schedule -/

@[simp] theorem State.schedule_acc (s : State) (t : Time) :
    (s.schedule t).acc = s.acc := rfl

@[simp] theorem State.schedule_lineT (s : State) (t : Time) :
    (s.schedule t).lineT = s.lineT := rfl

@[simp] theorem State.schedule_mq (s : State) (t : Time) :
    (s.schedule t).mq = s.mq := rfl

@[simp] theorem State.schedule_profile (s : State) (t : Time) :
    (s.schedule t).profile = s.profile := rfl

@[simp] theorem State.schedule_start (s : State) (t : Time) :
    (s.schedule t).start = s.start := rfl

@[simp] theorem State.schedule_nextQ (s : State) (t : Time) :
    (s.schedule t).nextQ = t := rfl

@[simp] theorem State.schedule_pendV (s : State) (t : Time) :
    (s.schedule t).pendV = s.pendV := rfl

@[simp] theorem State.schedule_pend (s : State) (t : Time) :
    (s.schedule t).pend = s.pend := rfl

@[simp] theorem State.schedule_fpId (s : State) (t : Time) :
    (s.schedule t).fpId = s.fpId := rfl

@[simp] theorem State.schedule_fpLen (s : State) (t : Time) :
    (s.schedule t).fpLen = s.fpLen := rfl

@[simp] theorem State.schedule_cfg (s : State) (t : Time) :
    (s.schedule t).cfg = s.cfg := rfl

@[simp] theorem State.schedule_phase (s : State) (t : Time) :
    (s.schedule t).phase = s.phase := rfl

@[simp] theorem State.schedule_inbox (s : State) (t : Time) :
    (s.schedule t).inbox = s.inbox := rfl

@[simp] theorem State.schedule_out (s : State) (t : Time) :
    (s.schedule t).out = s.out := rfl

@[simp] theorem State.schedule_freeCtr (s : State) (t : Time) :
    (s.schedule t).freeCtr = s.freeCtr := rfl

/-! ### takeContract -/

@[simp] theorem State.takeContract_acc (s : State) (p : Bytes) :
    (s.takeContract p).acc = s.acc := rfl

@[simp] theorem State.takeContract_lineT (s : State) (p : Bytes) :
    (s.takeContract p).lineT = s.lineT := rfl

@[simp] theorem State.takeContract_mq (s : State) (p : Bytes) :
    (s.takeContract p).mq = s.mq := rfl

@[simp] theorem State.takeContract_profile (s : State) (p : Bytes) :
    (s.takeContract p).profile = s.profile := rfl

@[simp] theorem State.takeContract_start (s : State) (p : Bytes) :
    (s.takeContract p).start = s.start := rfl

@[simp] theorem State.takeContract_nextQ (s : State) (p : Bytes) :
    (s.takeContract p).nextQ = s.nextQ := rfl

@[simp] theorem State.takeContract_pendV (s : State) (p : Bytes) :
    (s.takeContract p).pendV = s.pendV := rfl

@[simp] theorem State.takeContract_pend (s : State) (p : Bytes) :
    (s.takeContract p).pend = s.pend := rfl

@[simp] theorem State.takeContract_fpId (s : State) (p : Bytes) :
    (s.takeContract p).fpId = s.fpId := rfl

@[simp] theorem State.takeContract_fpLen (s : State) (p : Bytes) :
    (s.takeContract p).fpLen = s.fpLen := rfl

@[simp] theorem State.takeContract_cfg (s : State) (p : Bytes) :
    (s.takeContract p).cfg = s.cfg := rfl

@[simp] theorem State.takeContract_phase (s : State) (p : Bytes) :
    (s.takeContract p).phase = .stuck p := rfl

@[simp] theorem State.takeContract_inbox (s : State) (p : Bytes) :
    (s.takeContract p).inbox = s.inbox := rfl

@[simp] theorem State.takeContract_out (s : State) (p : Bytes) :
    (s.takeContract p).out = ⟨.none, s.out.events ++ [.contract p]⟩ := rfl

@[simp] theorem State.takeContract_freeCtr (s : State) (p : Bytes) :
    (s.takeContract p).freeCtr = s.freeCtr := rfl

/-! ### construct -/

@[simp] theorem State.construct_acc (s : State) (t0 : Time) (id len : Int) :
    (s.construct t0 id len).acc = [] := rfl

@[simp] theorem State.construct_lineT (s : State) (t0 : Time) (id len : Int) :
    (s.construct t0 id len).lineT = Config.unspecifiedLineT s.freeCtr := rfl

@[simp] theorem State.construct_mq (s : State) (t0 : Time) (id len : Int) :
    (s.construct t0 id len).mq = [] := rfl

@[simp] theorem State.construct_profile (s : State) (t0 : Time) (id len : Int) :
    (s.construct t0 id len).profile = ⟨id, len⟩ := rfl

@[simp] theorem State.construct_start (s : State) (t0 : Time) (id len : Int) :
    (s.construct t0 id len).start = t0 := rfl

@[simp] theorem State.construct_nextQ (s : State) (t0 : Time) (id len : Int) :
    (s.construct t0 id len).nextQ = t0 := rfl

@[simp] theorem State.construct_pendV (s : State) (t0 : Time) (id len : Int) :
    (s.construct t0 id len).pendV = false := rfl

@[simp] theorem State.construct_pend (s : State) (t0 : Time) (id len : Int) :
    (s.construct t0 id len).pend = unspecifiedPend s.freeCtr := rfl

@[simp] theorem State.construct_fpId (s : State) (t0 : Time) (id len : Int) :
    (s.construct t0 id len).fpId = id := rfl

@[simp] theorem State.construct_fpLen (s : State) (t0 : Time) (id len : Int) :
    (s.construct t0 id len).fpLen = len := rfl

@[simp] theorem State.construct_cfg (s : State) (t0 : Time) (id len : Int) :
    (s.construct t0 id len).cfg = s.cfg := rfl

@[simp] theorem State.construct_phase (s : State) (t0 : Time) (id len : Int) :
    (s.construct t0 id len).phase = .running := rfl

@[simp] theorem State.construct_inbox (s : State) (t0 : Time) (id len : Int) :
    (s.construct t0 id len).inbox = s.inbox := rfl

@[simp] theorem State.construct_out (s : State) (t0 : Time) (id len : Int) :
    (s.construct t0 id len).out = ⟨.none, []⟩ := rfl

@[simp] theorem State.construct_freeCtr (s : State) (t0 : Time) (id len : Int) :
    (s.construct t0 id len).freeCtr = s.freeCtr + 1 := rfl

/-! ### withFetchWord -/

@[simp] theorem State.withFetchWord_acc (s : State) (nbits w : Nat) :
    (s.withFetchWord nbits w).acc = s.acc := rfl

@[simp] theorem State.withFetchWord_lineT (s : State) (nbits w : Nat) :
    (s.withFetchWord nbits w).lineT = s.lineT := rfl

@[simp] theorem State.withFetchWord_mq (s : State) (nbits w : Nat) :
    (s.withFetchWord nbits w).mq = s.mq := rfl

@[simp] theorem State.withFetchWord_profile (s : State) (nbits w : Nat) :
    (s.withFetchWord nbits w).profile = s.profile := rfl

@[simp] theorem State.withFetchWord_start (s : State) (nbits w : Nat) :
    (s.withFetchWord nbits w).start = s.start := rfl

@[simp] theorem State.withFetchWord_nextQ (s : State) (nbits w : Nat) :
    (s.withFetchWord nbits w).nextQ = s.nextQ := rfl

@[simp] theorem State.withFetchWord_pendV (s : State) (nbits w : Nat) :
    (s.withFetchWord nbits w).pendV = s.pendV := rfl

@[simp] theorem State.withFetchWord_pend (s : State) (nbits w : Nat) :
    (s.withFetchWord nbits w).pend = s.pend := rfl

@[simp] theorem State.withFetchWord_fpId (s : State) (nbits w : Nat) :
    (s.withFetchWord nbits w).fpId = s.fpId := rfl

@[simp] theorem State.withFetchWord_fpLen (s : State) (nbits w : Nat) :
    (s.withFetchWord nbits w).fpLen = s.fpLen := rfl

@[simp] theorem State.withFetchWord_cfg (s : State) (nbits w : Nat) :
    (s.withFetchWord nbits w).cfg = s.cfg := rfl

@[simp] theorem State.withFetchWord_phase (s : State) (nbits w : Nat) :
    (s.withFetchWord nbits w).phase = s.phase := rfl

@[simp] theorem State.withFetchWord_inbox (s : State) (nbits w : Nat) :
    (s.withFetchWord nbits w).inbox = portOfWord nbits w :: s.inbox := rfl

@[simp] theorem State.withFetchWord_out (s : State) (nbits w : Nat) :
    (s.withFetchWord nbits w).out = s.out := rfl

@[simp] theorem State.withFetchWord_freeCtr (s : State) (nbits w : Nat) :
    (s.withFetchWord nbits w).freeCtr = s.freeCtr := rfl

end Sys2Proof.Machine
end

