-- ==== Sys2Proof/Laws/Ops.lean ====
section
/-! SUPPORT. What each shared operation over the state can do, said once: sequencing, the guards, the
synchronizer, dispatch, one line, serialization. A proof cites these and does not unfold the operation. -/

namespace Sys2Proof.Machine

open Sys2Proof

/-! ### Sequencing and guards -/

@[simp] theorem Ans.next_andThen {α β : Type} (a : α) (k : α → Ans β) :
    Ans.andThen (.next a) k = k a := rfl

@[simp] theorem Ans.fault_andThen {α β : Type} (r : Fault) (k : α → Ans β) :
    Ans.andThen (.fault r) k = .fault r := rfl

@[simp] theorem Ans.refused_andThen {α β : Type} (r : Refusal) (k : α → Ans β) :
    Ans.andThen (.refused r) k = .refused r := rfl

theorem Ans.andThen_eq_next {α β : Type} {o : Ans α} {k : α → Ans β} {b : β} :
    o.andThen k = .next b ↔ ∃ a, o = .next a ∧ k a = .next b := by
  cases o <;> simp

theorem Ans.andThen_eq_refused {α β : Type} {o : Ans α} {k : α → Ans β} {r : Refusal} :
    o.andThen k = .refused r ↔ o = .refused r ∨ ∃ a, o = .next a ∧ k a = .refused r := by
  cases o <;> simp

theorem Ans.andThen_eq_fault {α β : Type} {o : Ans α} {k : α → Ans β} {r : Fault} :
    o.andThen k = .fault r ↔ o = .fault r ∨ ∃ a, o = .next a ∧ k a = .fault r := by
  cases o <;> simp

theorem Ans.andThen_assoc {α β γ : Type} (o : Ans α) (k : α → Ans β) (h : β → Ans γ) :
    (o.andThen k).andThen h = o.andThen fun a => (k a).andThen h := by
  cases o <;> rfl

theorem whenRunning_of_running {s : State} (k : State → Ans State) (h : s.phase = .running) :
    whenRunning s k = k s.begin := by
  simp [whenRunning, h]

theorem whenRunning_eq_next {s t : State} {k : State → Ans State} :
    whenRunning s k = .next t ↔ s.phase = .running ∧ k s.begin = .next t := by
  unfold whenRunning; split <;> simp_all

theorem whenRunning_eq_fault {s : State} {k : State → Ans State} {r : Fault} :
    whenRunning s k = .fault r ↔
      (s.phase = .running ∧ k s.begin = .fault r) ∨ ((∃ p, s.phase = .stuck p) ∧ r = .stuckAfterContract) := by
  cases r
  unfold whenRunning; split <;> simp_all

theorem inDomain_eq_next {ok : Bool} {k : Ans State} {t : State} :
    inDomain ok k = .next t ↔ ok = true ∧ k = .next t := by
  cases ok <;> simp [inDomain]

theorem inDomain_eq_fault {ok : Bool} {k : Ans State} {r : Fault} :
    inDomain ok k = .fault r ↔ ok = true ∧ k = .fault r := by
  cases ok <;> simp [inDomain]

@[simp] theorem inDomain_true (k : Ans State) : inDomain true k = k := rfl

@[simp] theorem inDomain_false (k : Ans State) : inDomain false k = .refused .operandOutsideDomain := rfl

theorem answer_eq_next {s t : State} {r : Result} : answer s r = .next t ↔ t = s.finish r := by
  simp [answer, eq_comm]

theorem done_eq_next {s t : State} : done s = .next t ↔ t = s := by
  simp [done, eq_comm]

/-! ### The synchronizer -/

theorem State.mark_eq_next {s : State} {t : Time} {m : Int} :
    s.mark t = .next m ↔ s.cfg.inInt (msecMark s.cfg s.start t) = true ∧ m = msecMark s.cfg s.start t := by
  unfold State.mark
  split
  · rename_i h; simp only [h, Host.Outcome.next.injEq, true_and]; exact eq_comm
  · rename_i h; simp [h]

theorem State.mark_of_inInt {s : State} {t : Time} (h : s.cfg.inInt (msecMark s.cfg s.start t) = true) :
    s.mark t = .next (msecMark s.cfg s.start t) := by
  simp [State.mark, h]

theorem State.mark_ne_fault {s : State} {t : Time} {r : Fault} : s.mark t ≠ .fault r := by
  unfold State.mark; split <;> simp

theorem stampOf_eq_next {c : Params} {now : Time} {d : Int × Int} :
    stampOf c now = .next d ↔ c.inCalendar now = true ∧ d = utcPack c now := by
  unfold stampOf
  split
  · rename_i h; simp only [h, Host.Outcome.next.injEq, true_and]; exact eq_comm
  · rename_i h; simp [h]

theorem stampOf_of_inCalendar {c : Params} {now : Time} (h : c.inCalendar now = true) :
    stampOf c now = .next (utcPack c now) := by
  simp [stampOf, h]

theorem stampOf_ne_fault {c : Params} {now : Time} {r : Fault} : stampOf c now ≠ .fault r := by
  unfold stampOf; split <;> simp

theorem State.due_iff {s : State} {now : Time} : s.due now = true ↔ s.nextQ ≤ now := by
  simp [State.due]

/-- TS_GET takes one of its three branches (rules R174 to R176). -/
theorem State.tsGet_eq_next {s : State} {now : Time} {r : Option Variant × State} :
    s.tsGet now = .next r ↔
      (s.pendV = true ∧ s.cfg.inInt (msecMark s.cfg s.start now) = true ∧
        r = (some (.timeReply { s.pend with txMsec := msecMark s.cfg s.start now }), s.clearPending)) ∨
      (s.pendV = false ∧ s.nextQ ≤ now ∧ s.cfg.inCalendar now = true ∧
        r = (some (.timeQuery ⟨(utcPack s.cfg now).1, (utcPack s.cfg now).2, 0, 0⟩),
          s.schedule (slipLimited s.cfg s.nextQ now))) ∨
      (s.pendV = false ∧ now < s.nextQ ∧ r = (none, s)) := by
  unfold State.tsGet State.tsGetReply State.tsGetQuery
  cases hp : s.pendV
  · by_cases hd : s.nextQ ≤ now
    · simp only [Bool.false_eq_true, if_false, State.due_iff, hd, if_true, Ans.andThen_eq_next,
        stampOf_eq_next, Host.Outcome.next.injEq, false_and, false_or, true_and, not_lt.2 hd, or_false]
      constructor
      · rintro ⟨d, ⟨hc, rfl⟩, rfl⟩; exact ⟨hc, rfl⟩
      · rintro ⟨hc, rfl⟩; exact ⟨_, ⟨hc, rfl⟩, rfl⟩
    · simp only [Bool.false_eq_true, if_false, State.due_iff, hd, Host.Outcome.next.injEq, false_and,
        false_or, true_and, lt_of_not_ge hd]
      exact eq_comm
  · simp only [if_true, Ans.andThen_eq_next, State.mark_eq_next, Host.Outcome.next.injEq, true_and,
      Bool.true_eq_false, false_and, or_false]
    constructor
    · rintro ⟨m, ⟨hm, rfl⟩, rfl⟩; exact ⟨hm, rfl⟩
    · rintro ⟨hm, rfl⟩; exact ⟨_, ⟨hm, rfl⟩, rfl⟩

theorem State.tsGet_ne_fault {s : State} {now : Time} {r : Fault} : s.tsGet now ≠ .fault r := by
  unfold State.tsGet State.tsGetReply State.tsGetQuery
  split
  · simp [Ans.andThen_eq_fault, State.mark_ne_fault]
  · split <;> simp [Ans.andThen_eq_fault, stampOf_ne_fault]

theorem State.tsOnq_eq_next {s t : State} {q : TimeQuery} {w : Time} :
    s.tsOnq q w = .next t ↔ s.cfg.inInt (msecMark s.cfg s.start w) = true ∧
      t = s.setPending ⟨q.yyyymmdd, q.hhmmssmmm, msecMark s.cfg s.start w, 0, s.fpId, s.fpLen⟩ := by
  simp only [State.tsOnq, Ans.andThen_eq_next, State.mark_eq_next, Host.Outcome.next.injEq]
  constructor
  · rintro ⟨m, ⟨hm, rfl⟩, rfl⟩; exact ⟨hm, rfl⟩
  · rintro ⟨hm, rfl⟩; exact ⟨_, ⟨hm, rfl⟩, rfl⟩

@[simp] theorem State.tsOnr_eq (s : State) (r : TimeReply) (w : Time) : s.tsOnr r w = .next s := rfl

/-! ### Dispatch and one line -/

/-- DISPATCH does one of four things (rule R206). -/
theorem State.dispatch_eq_next {s t : State} {v : Variant} (h : s.dispatch v = .next t) :
    (∃ q, v = .timeQuery q ∧ s.cfg.inInt (msecMark s.cfg s.start s.lineT) = true ∧
      t = s.setPending ⟨q.yyyymmdd, q.hhmmssmmm, msecMark s.cfg s.start s.lineT, 0, s.fpId, s.fpLen⟩) ∨
    (∃ r, v = .timeReply r ∧ t = s) ∨
    (∃ p, v = .publish p ∧ t = s.enqueue (mkMsg Config.schemaLookup p)) ∨
    (∃ p, v = .profileStart p ∧ t = s.emit (.unhandled s.cfg.pfxPs (.profileStart p))) := by
  cases v with
  | timeQuery q => exact .inl ⟨q, rfl, State.tsOnq_eq_next.1 h⟩
  | timeReply r => exact .inr (.inl ⟨r, rfl, by simpa [State.dispatch, eq_comm] using h⟩)
  | publish p => exact .inr (.inr (.inl ⟨p, rfl, by simpa [State.dispatch, eq_comm] using h⟩))
  | profileStart p => exact .inr (.inr (.inr ⟨p, rfl, by simpa [State.dispatch, eq_comm] using h⟩))

/-- DISPATCH is refused for a mark outside INT only (rule R171). -/
theorem State.dispatch_refused {s : State} {v : Variant} {r : Refusal} (h : s.dispatch v = .refused r) :
    r = .markOutsideInt := by
  cases v <;> simp [State.dispatch, State.tsOnq, State.mark] at h
  split at h <;> simp_all

theorem State.dispatch_ne_fault {s : State} {v : Variant} {r : Fault} : s.dispatch v ≠ .fault r := by
  cases v <;> simp [State.dispatch, State.tsOnq, Ans.andThen_eq_fault, State.mark_ne_fault]

/-- The events that report a dropped line (rules R231 to R234). -/
def Event.reportsLine : Event → Prop
  | .struct _ => True
  | .cksum _ _ _ => True
  | .unknown _ _ => True
  | .decode _ _ => True
  | .contract _ => False
  | .overflow _ => False
  | .unhandled _ _ => False

/-- LINE_PROCESS emits one report and drops the line, or dispatches the value decoded from it (rule R205). -/
theorem State.lineProcess_cases (s : State) (b : Bytes) :
    (∃ e, Event.reportsLine e ∧ s.lineProcess b = .next (s.emit e)) ∨
    (∃ l verdict v, lineParse s.cfg b = .ok l verdict ∧ plDec s.cfg l = .known v ∧
      s.lineProcess b = s.dispatch v) := by
  unfold State.lineProcess
  cases hp : lineParse s.cfg b with
  | structural => exact .inl ⟨.struct b, trivial, rfl⟩
  | cksum received computed => exact .inl ⟨.cksum b received computed, trivial, rfl⟩
  | ok l verdict =>
    cases hd : plDec s.cfg l with
    | unknown => exact .inl ⟨.unknown l.pfx l.payload, trivial, by simp [hd]⟩
    | decodeError => exact .inl ⟨.decode l.pfx l.payload, trivial, by simp [hd]⟩
    | known v => exact .inr ⟨l, verdict, v, rfl, hd, by simp [hd]⟩

theorem State.lineProcess_refused {s : State} {b : Bytes} {r : Refusal} (h : s.lineProcess b = .refused r) :
    r = .markOutsideInt := by
  rcases s.lineProcess_cases b with ⟨e, -, he⟩ | ⟨_, _, v, -, -, hd⟩
  · rw [he] at h; cases h
  · exact State.dispatch_refused (hd ▸ h)

theorem State.lineProcess_ne_fault {s : State} {b : Bytes} {r : Fault} : s.lineProcess b ≠ .fault r := by
  rcases s.lineProcess_cases b with ⟨e, -, h⟩ | ⟨_, _, v, -, -, h⟩
  · simp [h]
  · rw [h]; exact State.dispatch_ne_fault

/-! ### Serialization -/

theorem State.serialize_of_word {s : State} {l : Line} {term : Bytes} (h : l.pfx.all isWord = true) :
    s.serialize l term = s.finish (.bytes (frameLine l (ckFieldOf s.cfg .value (framedBytes l) l) ++ term)) := by
  simp [State.serialize, lineSer, h]

theorem State.serialize_of_not_word {s : State} {l : Line} {term : Bytes} (h : l.pfx.all isWord = false) :
    s.serialize l term = s.takeContract l.pfx := by
  simp [State.serialize, lineSer, h]

/-- The prefixes of a legal set of parameters are of word characters (rule R7). -/
theorem legal_pfx_word {c : Params} (h : c.legal = true) (v : Variant) :
    (plEnc c v).pfx.all isWord = true := by
  have hall : c.registeredPrefixes.all (·.all isWord) = true := by
    simp only [Params.legal, Bool.and_eq_true] at h; exact h.2.1
  rw [List.all_eq_true] at hall
  refine hall _ ?_
  cases v <;> simp [plEnc, Variant.descriptor, publishDescriptor, timeQueryDescriptor,
    timeReplyDescriptor, profileStartDescriptor, Params.registeredPrefixes]

/-- NEXT_SEND returns the empty byte string and nothing changes, or TS_GET takes a payload and the line of it is
returned (rule R211). -/
theorem State.nextSend_eq_next {s t : State} {now : Time} {e : Bool} (hl : s.cfg.legal = true)
    (h : s.nextSend now e = .next t) :
    t = s.finish (.bytes []) ∨
    ∃ v s', s.tsGet now = .next (some v, s') ∧ e = true ∧
      t = s'.finish (.bytes (frameLine (plEnc s.cfg v)
        (ckFieldOf s'.cfg .value (framedBytes (plEnc s.cfg v)) (plEnc s.cfg v)) ++ [s.cfg.nl])) := by
  unfold State.nextSend at h
  split at h
  · exact .inl (answer_eq_next.1 h)
  · split at h
    · exact .inl (answer_eq_next.1 h)
    · rename_i he
      obtain ⟨⟨o, s'⟩, hg, hk⟩ := Ans.andThen_eq_next.1 h
      cases o with
      | none =>
        rcases State.tsGet_eq_next.1 hg with ⟨-, -, hr⟩ | ⟨-, -, -, hr⟩ | ⟨-, -, hr⟩
        · simp at hr
        · simp at hr
        · obtain ⟨-, rfl⟩ := Prod.mk.inj hr
          exact .inl (answer_eq_next.1 hk)
      | some v =>
        refine .inr ⟨v, s', hg, by simpa using he, ?_⟩
        simp only [State.serialize_of_word (legal_pfx_word hl v)] at hk
        cases hk; rfl

theorem State.nextSend_ne_fault {s : State} {now : Time} {e : Bool} {r : Fault} :
    s.nextSend now e ≠ .fault r := by
  unfold State.nextSend
  split
  · simp [answer]
  · split
    · simp [answer]
    · rw [Ne, Ans.andThen_eq_fault, not_or]
      refine ⟨State.tsGet_ne_fault, ?_⟩
      rintro ⟨⟨o, s'⟩, -, hk⟩
      cases o <;> simp [answer] at hk

end Sys2Proof.Machine
end

