-- ==== Sys2Proof/Laws/PerInstr.lean ====
section
/-! SUPPORT. The per-instruction family EncodedUnlessInternal: an instruction has an encoding exactly when its
row of spec/opcode_table.json is not an internal one. -/

namespace Sys2Proof.Laws.EncodedUnlessInternal

open Sys2Proof

/-- The encoder answers for every row but the internal ones, whatever the parameters. -/
def Statement (i : Instr) : Prop :=
  ∀ c : Params, (encode c i).isSome = true ↔ i.format ≠ .internal

theorem feed : ∀ data at_, Statement (.feed data at_) :=
  fun _ _ _ => iff_of_true rfl (fun h => nomatch h)

theorem drain : Statement (.drain) :=
  fun _ => iff_of_true rfl (fun h => nomatch h)

theorem nextSend : ∀ now txEmpty, Statement (.nextSend now txEmpty) :=
  fun _ _ _ => iff_of_true rfl (fun h => nomatch h)

theorem reservedOp3 : Statement (.reservedOp3) :=
  fun _ => iff_of_true rfl (fun h => nomatch h)

theorem reset : ∀ t0 profileId profileLen, Statement (.reset t0 profileId profileLen) :=
  fun _ _ _ _ => iff_of_true rfl (fun h => nomatch h)

theorem linePublish : ∀ ck p, Statement (.linePublish ck p) :=
  fun _ _ _ => iff_of_true rfl (fun h => nomatch h)

theorem lineTq : ∀ ck q, Statement (.lineTq ck q) :=
  fun _ _ _ => iff_of_true rfl (fun h => nomatch h)

theorem lineTr : ∀ ck r, Statement (.lineTr ck r) :=
  fun _ _ _ => iff_of_true rfl (fun h => nomatch h)

theorem linePs : ∀ ck p, Statement (.linePs ck p) :=
  fun _ _ _ => iff_of_true rfl (fun h => nomatch h)

theorem lineUnknown : ∀ ck l, Statement (.lineUnknown ck l) :=
  fun _ _ _ => iff_of_true rfl (fun h => nomatch h)

theorem ckfieldValue : ∀ c0 c1 c2, Statement (.ckfieldValue c0 c1 c2) :=
  fun _ _ _ _ => iff_of_true rfl (fun h => nomatch h)

theorem ckfieldBypass : Statement (.ckfieldBypass) :=
  fun _ => iff_of_true rfl (fun h => nomatch h)

theorem crc18 : ∀ span, Statement (.crc18 span) :=
  fun _ _ => iff_of_false (fun h => nomatch h) (fun h => h rfl)

theorem ckEnc : ∀ v, Statement (.ckEnc v) :=
  fun _ _ => iff_of_false (fun h => nomatch h) (fun h => h rfl)

theorem ckDec : ∀ field, Statement (.ckDec field) :=
  fun _ _ => iff_of_false (fun h => nomatch h) (fun h => h rfl)

theorem ckVerify : ∀ span field, Statement (.ckVerify span field) :=
  fun _ _ _ => iff_of_false (fun h => nomatch h) (fun h => h rfl)

theorem lineParse : ∀ l, Statement (.lineParse l) :=
  fun _ _ => iff_of_false (fun h => nomatch h) (fun h => h rfl)

theorem lineSer : ∀ line, Statement (.lineSer line) :=
  fun _ _ => iff_of_false (fun h => nomatch h) (fun h => h rfl)

theorem plEnc : ∀ v, Statement (.plEnc v) :=
  fun _ _ => iff_of_false (fun h => nomatch h) (fun h => h rfl)

theorem plDec : ∀ line, Statement (.plDec line) :=
  fun _ _ => iff_of_false (fun h => nomatch h) (fun h => h rfl)

theorem splitArray : ∀ p, Statement (.splitArray p) :=
  fun _ _ => iff_of_false (fun h => nomatch h) (fun h => h rfl)

theorem encInt : ∀ v, Statement (.encInt v) :=
  fun _ _ => iff_of_false (fun h => nomatch h) (fun h => h rfl)

theorem decInt : ∀ e, Statement (.decInt e) :=
  fun _ _ => iff_of_false (fun h => nomatch h) (fun h => h rfl)

theorem encStr : ∀ b, Statement (.encStr b) :=
  fun _ _ => iff_of_false (fun h => nomatch h) (fun h => h rfl)

theorem decStr : ∀ e, Statement (.decStr e) :=
  fun _ _ => iff_of_false (fun h => nomatch h) (fun h => h rfl)

theorem encRaw : ∀ b, Statement (.encRaw b) :=
  fun _ _ => iff_of_false (fun h => nomatch h) (fun h => h rfl)

theorem decRaw : ∀ e, Statement (.decRaw e) :=
  fun _ _ => iff_of_false (fun h => nomatch h) (fun h => h rfl)

theorem msec : ∀ t, Statement (.msec t) :=
  fun _ _ => iff_of_false (fun h => nomatch h) (fun h => h rfl)

theorem utcPack : ∀ now, Statement (.utcPack now) :=
  fun _ _ => iff_of_false (fun h => nomatch h) (fun h => h rfl)

theorem tsHas : ∀ now, Statement (.tsHas now) :=
  fun _ _ => iff_of_false (fun h => nomatch h) (fun h => h rfl)

theorem tsGet : ∀ now, Statement (.tsGet now) :=
  fun _ _ => iff_of_false (fun h => nomatch h) (fun h => h rfl)

theorem tsOnq : ∀ q at_, Statement (.tsOnq q at_) :=
  fun _ _ _ => iff_of_false (fun h => nomatch h) (fun h => h rfl)

theorem tsOnr : ∀ r at_, Statement (.tsOnr r at_) :=
  fun _ _ _ => iff_of_false (fun h => nomatch h) (fun h => h rfl)

theorem lineProcess : ∀ line, Statement (.lineProcess line) :=
  fun _ _ => iff_of_false (fun h => nomatch h) (fun h => h rfl)

theorem dispatch : ∀ v, Statement (.dispatch v) :=
  fun _ _ => iff_of_false (fun h => nomatch h) (fun h => h rfl)

theorem schemaLookup : ∀ name, Statement (.schemaLookup name) :=
  fun _ _ => iff_of_false (fun h => nomatch h) (fun h => h rfl)

theorem schemaResolve : ∀ schemaName, Statement (.schemaResolve schemaName) :=
  fun _ _ => iff_of_false (fun h => nomatch h) (fun h => h rfl)

theorem mkMsg : ∀ p, Statement (.mkMsg p) :=
  fun _ _ => iff_of_false (fun h => nomatch h) (fun h => h rfl)

end Sys2Proof.Laws.EncodedUnlessInternal
end

