-- ==== Sys2Proof/Laws/Session.lean ====
section
/-! SUPPORT. FEED over lines and tails, said once, and the accumulator: its read, its write, and that every
operation on it keeps its form (Memory.wf). -/

namespace Sys2Proof.Machine

open Sys2Proof

/-! ### Lines and tails of a chunk -/

@[simp] theorem splitLines_nil (nl : Byte) : splitLines nl [] = ([], []) := rfl

theorem splitLines_nl (nl : Byte) (bs : Bytes) :
    splitLines nl (nl :: bs) = ([] :: (splitLines nl bs).1, (splitLines nl bs).2) := by
  simp [splitLines]

/-- The tail of a chunk holds no newline. -/
theorem splitLines_tail_no_nl (nl : Byte) (data : Bytes) : nl ∉ (splitLines nl data).2 := by
  induction data with
  | nil => simp
  | cons b bs ih =>
    simp only [splitLines]
    split
    · exact ih
    · rename_i hb
      split
      · simp only [List.mem_cons, not_or]; exact ⟨fun h => hb h.symm, ih⟩
      · exact ih

/-- No line of a chunk holds a newline. -/
theorem splitLines_lines_no_nl (nl : Byte) (data : Bytes) : ∀ l ∈ (splitLines nl data).1, nl ∉ l := by
  induction data with
  | nil => simp
  | cons b bs ih =>
    simp only [splitLines]
    split
    · simp only [List.mem_cons, forall_eq_or_imp]; exact ⟨by simp, ih⟩
    · rename_i hb
      split
      · simp
      · rename_i l ls hl
        rw [hl] at ih
        simp only [List.mem_cons, forall_eq_or_imp, not_or] at ih ⊢
        exact ⟨⟨fun h => hb h.symm, ih.1⟩, ih.2⟩

/-- The lines, each with its newline, and the tail are the chunk. -/
theorem splitLines_join (nl : Byte) (data : Bytes) :
    ((splitLines nl data).1.map (· ++ [nl])).flatten ++ (splitLines nl data).2 = data := by
  induction data with
  | nil => simp
  | cons b bs ih =>
    simp only [splitLines]
    split
    · rename_i hb; simp only [List.map_cons, List.flatten_cons, List.append_assoc, ih]; simp [hb]
    · split
      · rename_i hl; rw [hl] at ih; simpa using ih
      · rename_i l ls hl; rw [hl] at ih; simpa using ih

/-- A chunk without a newline is its own tail. -/
theorem splitLines_of_no_nl {nl : Byte} {data : Bytes} (h : nl ∉ data) : splitLines nl data = ([], data) := by
  induction data with
  | nil => rfl
  | cons b bs ih =>
    simp only [List.mem_cons, not_or] at h
    simp [splitLines, ih h.2, Ne.symm h.1]

/-! ### FEED -/

@[simp] theorem State.feedLines_nil (s : State) (w : Time) : s.feedLines w [] = .next s := rfl

@[simp] theorem State.feedLines_cons (s : State) (w : Time) (p : Bytes) (ps : List Bytes) :
    s.feedLines w (p :: ps) = (s.feedLine w p).andThen fun s' => s'.feedLines w ps := rfl

/-- What every line keeps, all the lines of a chunk keep. -/
theorem State.feedLines_induct {R : State → State → Prop} (hrefl : ∀ s, R s s)
    (htrans : ∀ s t u, R s t → R t u → R s u) {w : Time} {ps : List Bytes}
    (hline : ∀ s t p, p ∈ ps → s.feedLine w p = .next t → R s t) :
    ∀ {s t : State}, s.feedLines w ps = .next t → R s t := by
  induction ps with
  | nil => intro s t h; cases h; exact hrefl _
  | cons p ps ih =>
    intro s t h
    obtain ⟨u, hu, ht⟩ := Ans.andThen_eq_next.1 h
    exact htrans s u t (hline s u p (by simp) hu)
      (ih (fun s t q hq => hline s t q (by simp [hq])) ht)

theorem State.feedLine_ne_fault {s : State} {w : Time} {p : Bytes} {r : Fault} :
    s.feedLine w p ≠ .fault r := State.lineProcess_ne_fault

theorem State.feedLines_ne_fault {w : Time} {r : Fault} :
    ∀ {ps : List Bytes} {s : State}, s.feedLines w ps ≠ .fault r := by
  intro ps
  induction ps with
  | nil => simp
  | cons p ps ih =>
    intro s
    simp only [State.feedLines_cons, Ne, Ans.andThen_eq_fault, not_or, not_exists, not_and]
    exact ⟨State.feedLine_ne_fault, fun u _ => ih⟩

theorem State.feed_eq_next {s t : State} {data : Bytes} {w : Time} :
    s.feed data w = .next t ↔ ∃ u, s.feedLines w (splitLines s.cfg.nl data).1 = .next u ∧
      t = u.feedTail w (splitLines s.cfg.nl data).2 := by
  simp only [State.feed, Ans.andThen_eq_next, Host.Outcome.next.injEq]
  exact exists_congr fun u => and_congr_right fun _ => eq_comm

/-- FEED is refused for a mark outside INT only (rule R171). -/
theorem State.feedLines_refused {w : Time} {r : Refusal} :
    ∀ {ps : List Bytes} {s : State}, s.feedLines w ps = .refused r → r = .markOutsideInt := by
  intro ps
  induction ps with
  | nil => intro s h; cases h
  | cons p ps ih =>
    intro s h
    rcases Ans.andThen_eq_refused.1 h with h | ⟨u, -, h⟩
    · exact State.lineProcess_refused h
    · exact ih h

theorem State.feed_refused {s : State} {data : Bytes} {w : Time} {r : Refusal}
    (h : s.feed data w = .refused r) : r = .markOutsideInt := by
  rcases Ans.andThen_eq_refused.1 h with h | ⟨u, -, h⟩
  · exact State.feedLines_refused h
  · cases h

theorem State.feed_ne_fault {s : State} {data : Bytes} {w : Time} {r : Fault} : s.feed data w ≠ .fault r := by
  simp [State.feed, Ans.andThen_eq_fault, State.feedLines_ne_fault]

/-- A line changes the line timestamp, empties the accumulator, and does one thing more: an event, the pending
slot, or a message (rules R202, R203, R205, R206). -/
theorem State.feedLine_eq_next {s t : State} {w : Time} {p : Bytes} (h : s.feedLine w p = .next t) :
    ∃ u, u = (s.stampLine w).accClear ∧
      ((∃ e, t = u.emit e) ∨ (∃ r, t = u.setPending r) ∨ t = u ∨ ∃ m, t = u.enqueue m) := by
  refine ⟨_, rfl, ?_⟩
  rcases (s.stampLine w).accClear.lineProcess_cases (s.acc ++ p) with ⟨e, -, he⟩ | ⟨_, _, v, -, -, hd⟩
  · rw [State.feedLine, he] at h; cases h; exact .inl ⟨e, rfl⟩
  · rw [State.feedLine, hd] at h
    rcases State.dispatch_eq_next h with ⟨_, _, _, ht⟩ | ⟨_, _, ht⟩ | ⟨_, _, ht⟩ | ⟨_, _, ht⟩
    · exact .inr (.inl ⟨_, ht⟩)
    · exact .inr (.inr (.inl ht))
    · exact .inr (.inr (.inr ⟨_, ht⟩))
    · exact .inl ⟨_, ht⟩

@[simp] theorem State.stampLine_acc (s : State) (w : Time) : (s.stampLine w).acc = s.acc := by
  unfold State.stampLine; split <;> rfl

@[simp] theorem State.stampLine_cfg (s : State) (w : Time) : (s.stampLine w).cfg = s.cfg := by
  unfold State.stampLine; split <;> rfl

@[simp] theorem State.checkOverflow_cfg (s : State) : s.checkOverflow.cfg = s.cfg := by
  unfold State.checkOverflow; split <;> rfl

@[simp] theorem State.feedTail_cfg (s : State) (w : Time) (b : Bytes) : (s.feedTail w b).cfg = s.cfg := by
  unfold State.feedTail; split <;> simp

/-- A line leaves the accumulator empty and the parameters as they are. -/
theorem State.feedLine_acc_cfg {s t : State} {w : Time} {p : Bytes} (h : s.feedLine w p = .next t) :
    t.acc = [] ∧ t.cfg = s.cfg := by
  obtain ⟨u, rfl, ⟨e, rfl⟩ | ⟨r, rfl⟩ | rfl | ⟨m, rfl⟩⟩ := State.feedLine_eq_next h <;> simp

/-! ### The accumulator -/

theorem memRead_eq_some {m : Memory} {a n : Nat} {v : Bytes} :
    memRead m a n = some v ↔ a + n ≤ m.length ∧ v = (m.drop a).take n := by
  unfold memRead; split <;> simp_all [eq_comm]

/-- What a write puts at the end is read back. -/
theorem memRead_memWrite_same {m m' : Memory} {v : Bytes} (h : memWrite m m.length v = some m') :
    memRead m' m.length v.length = some v := by
  simp only [memWrite, if_true, Option.some.injEq] at h
  subst h
  simp [memRead]

/-- A write leaves every byte before it alone. -/
theorem memRead_memWrite_other {m m' : Memory} {v : Bytes} {a n : Nat}
    (h : memWrite m m.length v = some m') (hn : a + n ≤ m.length) : memRead m' a n = memRead m a n := by
  simp only [memWrite, if_true, Option.some.injEq] at h
  subst h
  have h1 : a + n ≤ m.length + v.length := by omega
  simp only [memRead, List.length_append, h1, hn, if_true, Option.some.injEq]
  rw [List.drop_append_of_le_length (by omega), List.take_append_of_le_length (by simp; omega)]

/-- Appending to the accumulator is MemWrite at its end (rule R12). -/
theorem memWrite_accAppend (s : State) (b : Bytes) :
    memWrite s.acc s.acc.length b = some (s.accAppend b).acc := by
  simp [memWrite]

theorem Memory.wf_iff {c : Params} {m : Memory} : Memory.wf c m = true ↔ m.length < c.accMax ∧ c.nl ∉ m := by
  simp only [Memory.wf, Bool.and_eq_true, decide_eq_true_eq, List.all_eq_true, bne_iff_ne]
  exact and_congr_right fun _ => ⟨fun h hm => h _ hm rfl, fun h x hx e => h (e ▸ hx)⟩

theorem Memory.wf_nil {c : Params} (h : 1 ≤ c.accMax) : Memory.wf c [] = true :=
  Memory.wf_iff.2 ⟨h, by simp⟩

theorem legal_accMax {c : Params} (h : c.legal = true) : 1 ≤ c.accMax := by
  simp only [Params.legal, Bool.and_eq_true, decide_eq_true_eq] at h; exact h.1.2.1.1.1.1.1

/-- MemWrite of bytes without a newline keeps the form while the bound is not reached. -/
theorem memWrite_wf {c : Params} {m m' : Memory} {a : Nat} {v : Bytes} (hm : Memory.wf c m = true)
    (h : memWrite m a v = some m') (hv : c.nl ∉ v) (hb : m'.length < c.accMax) : Memory.wf c m' = true := by
  unfold memWrite at h
  split at h
  · cases h
    rw [Memory.wf_iff] at hm ⊢
    exact ⟨hb, by simp [hm.2, hv]⟩
  · cases h

theorem State.accClear_wf {s : State} (h : s.cfg.legal = true) : Memory.wf s.cfg s.accClear.acc = true :=
  Memory.wf_nil (legal_accMax h)

/-- The size test restores the form of an accumulator without newlines (rule R204). -/
theorem State.checkOverflow_wf {s : State} (h : s.cfg.legal = true) (hn : s.cfg.nl ∉ s.acc) :
    Memory.wf s.cfg s.checkOverflow.acc = true := by
  unfold State.checkOverflow
  split
  · exact Memory.wf_nil (legal_accMax h)
  · rename_i hb; exact Memory.wf_iff.2 ⟨by omega, hn⟩

theorem State.feedTail_wf {s : State} {w : Time} {b : Bytes} (h : s.cfg.legal = true)
    (hm : Memory.wf s.cfg s.acc = true) (hb : s.cfg.nl ∉ b) : Memory.wf s.cfg (s.feedTail w b).acc = true := by
  unfold State.feedTail
  split
  · exact hm
  · have := State.checkOverflow_wf (s := (s.stampLine w).accAppend b) (by simpa using h)
      (by simp [(Memory.wf_iff.1 hm).2, hb])
    simpa using this

/-- FEED keeps the form of the accumulator. -/
theorem State.feed_wf {s t : State} {data : Bytes} {w : Time} (hl : s.cfg.legal = true)
    (hm : Memory.wf s.cfg s.acc = true) (h : s.feed data w = .next t) :
    t.cfg = s.cfg ∧ Memory.wf t.cfg t.acc = true := by
  obtain ⟨u, hu, rfl⟩ := State.feed_eq_next.1 h
  have key : u.cfg = s.cfg ∧ (Memory.wf s.cfg s.acc = true → Memory.wf u.cfg u.acc = true) := by
    have := State.feedLines_induct
      (R := fun a b => a.cfg.legal = true → b.cfg = a.cfg ∧
        (Memory.wf a.cfg a.acc = true → Memory.wf b.cfg b.acc = true))
      (fun a _ => ⟨rfl, id⟩)
      (fun a b c hab hbc ha => by
        obtain ⟨h1, h2⟩ := hab ha
        obtain ⟨h3, h4⟩ := hbc (h1 ▸ ha)
        exact ⟨h3.trans h1, fun x => h4 (h2 x)⟩)
      (fun a b p _ hab ha => by
        obtain ⟨h1, h2⟩ := State.feedLine_acc_cfg hab
        exact ⟨h2, fun _ => by rw [h1, h2]; exact Memory.wf_nil (legal_accMax ha)⟩) hu
    exact this hl
  have hnb := splitLines_tail_no_nl s.cfg.nl data
  have := State.feedTail_wf (w := w) (by rw [key.1]; exact hl) (key.2 hm) (by rw [key.1]; exact hnb)
  exact ⟨by simp [key.1], by simpa using this⟩

/-- The accumulator of the reset state has the form. -/
theorem reset_memory_wf : Memory.wf State.reset.cfg State.reset.acc = true := by decide

end Sys2Proof.Machine
end

