-- ==== Sys2Proof/Tests/Slice0.lean ====
section
/-! SUPPORT. Tests: the operand checks refuse ill-formed terms, words written out from the spec's encodings
decode to their instructions, one or two vectors of 95_test_vectors.md per operation, and a witness for the
hypotheses of every obligation that has some. Expected values are the spec's; each test names its vector. -/

namespace Sys2Proof.Tests

open Sys2Proof Sys2Proof.Machine

-- one theorem after the other: each waits for the kernel, and the waiting threads would fill the memory
set_option Elab.async false

/-! ### Helpers -/

def c : Params := Params.default

/-- A chunk limit of four bytes. -/
def c4 : Params := { Params.default with chunkMax := some 4 }

/-- A state with a fingerprint, as in program P3. -/
def s0 : State := { State.reset with profile := ⟨48879, 3⟩, fpId := 48879, fpLen := 3 }

/-- The pending reply of program P3. -/
def reply0 : TimeReply := ⟨20261108, 153400250, 2000, 0, 48879, 3⟩

/-- `s0` with a reply pending and the next query at 5000. -/
def sPend : State := { s0 with pendV := true, pend := reply0, nextQ := 5000 }

/-- `s0` after a CONTRACT fault. -/
def sStuck : State := { s0 with phase := .stuck [0x2D] }

/-- `s0` with an accumulator bound of four bytes and one byte received. -/
def sSmall : State := { s0 with cfg := { Params.default with accMax := 4 }, acc := [0x78], lineT := 10 }

/-- What a next state holds. -/
def nextGet {α : Type} (f : State → α) : Ans State → Option α
  | .next s => some (f s)
  | .fault _ => none
  | .refused _ => none

def refusal? : Ans State → Option Refusal
  | .next _ => none
  | .fault _ => none
  | .refused r => some r

/-- `["x":3]` with braces for brackets. -/
def objX3 : Bytes := [0x7B] ++ ascii "\"x\":3" ++ [0x7D]

/-- The payload of scenario S1. -/
def payS1 : Bytes := ascii "[1,2," ++ objX3 ++ ascii "]"

/-- The line of scenario S1 with a given field. -/
def lineS1 (field : String) : Bytes := ascii "PFX" ++ payS1 ++ ascii field

/-- The object of program P1, key `a`, value 1. -/
def objA1 : Bytes := [0x7B] ++ ascii "\"a\":1" ++ [0x7D]

def query0 : TimeQuery := ⟨20261108, 153400250, 0, 0⟩

def tooBig : Int := 9223372036854775808

/-! ### Well-formedness: each check refuses an ill-formed term -/

theorem test_wf_chunk_over_max : wellFormed c4 (.feed [1, 2, 3, 4, 5] 0) = false := by decide
theorem test_wf_reset_id : wellFormed c (.reset 0 tooBig 0) = false := by decide
theorem test_wf_reset_len : wellFormed c (.reset 0 0 (-tooBig - 1)) = false := by decide
theorem test_wf_publish_msec : wellFormed c (.linePublish .value ⟨[], [0x31], tooBig, []⟩) = false := by
  decide +kernel
theorem test_wf_publish_body : wellFormed c (.linePublish .value ⟨[], ascii "1 ", 0, []⟩) = false := by
  decide +kernel
theorem test_wf_publish_body_nl :
    wellFormed c (.linePublish .value ⟨[], ascii "[1,\n2]", 0, []⟩) = false := by decide +kernel
theorem test_wf_tq : wellFormed c (.lineTq .value ⟨0, 0, tooBig, 0⟩) = false := by decide +kernel
theorem test_wf_tr : wellFormed c (.lineTr .value ⟨0, 0, 0, tooBig, 0, 0⟩) = false := by decide +kernel
theorem test_wf_ps : wellFormed c (.linePs .value ⟨tooBig, 0, [], [], []⟩) = false := by decide +kernel
theorem test_wf_unknown_registered : wellFormed c (.lineUnknown .value ⟨ascii "TQ", ascii "[1]"⟩) = false := by
  decide +kernel
theorem test_wf_unknown_prefix : wellFormed c (.lineUnknown .value ⟨ascii "A-", ascii "[1]"⟩) = false := by
  decide +kernel
theorem test_wf_unknown_payload : wellFormed c (.lineUnknown .value ⟨ascii "A", ascii "1 2"⟩) = false := by
  decide +kernel
theorem test_wf_unknown_empty : wellFormed c (.lineUnknown .value ⟨ascii "A", []⟩) = false := by
  decide +kernel
theorem test_wf_unknown_nl : wellFormed c (.lineUnknown .value ⟨ascii "A", ascii "[\n]"⟩) = false := by
  decide +kernel
theorem test_wf_ckDec : wellFormed c (.ckDec (ascii "X=b")) = false := by decide +kernel
theorem test_wf_ckVerify : wellFormed c (.ckVerify [] (ascii "~~~")) = false := by decide +kernel
theorem test_wf_lineSer : wellFormed c (.lineSer ⟨ascii "T", []⟩) = false := by decide
theorem test_wf_plEnc : wellFormed c (.plEnc (.timeQuery ⟨tooBig, 0, 0, 0⟩)) = false := by decide
theorem test_wf_encInt : wellFormed c (.encInt tooBig) = false := by decide
theorem test_wf_decStr : wellFormed c (.decStr (ascii "\"a")) = false := by decide +kernel
theorem test_wf_utcPack : wellFormed c (.utcPack (-1)) = false := by decide
theorem test_wf_tsOnq : wellFormed c (.tsOnq ⟨0, tooBig, 0, 0⟩ 0) = false := by decide
theorem test_wf_tsOnr : wellFormed c (.tsOnr ⟨0, 0, 0, 0, 0, tooBig⟩ 0) = false := by decide
theorem test_wf_dispatch : wellFormed c (.dispatch (.timeQuery ⟨0, 0, 0, tooBig⟩)) = false := by decide
theorem test_wf_mkMsg : wellFormed c (.mkMsg ⟨[], [], -tooBig - 1, []⟩) = false := by decide

/-! ### Decoding: words written out from the spec's encodings -/

/-- Rule R91: the command codes, and bits above `op[1:0]` that the port does not carry. -/
theorem test_decode_port_codes :
    decodeTableWord 8 0 = some (.feed [] 0) ∧ decodeTableWord 8 1 = some .drain ∧
    decodeTableWord 8 2 = some (.nextSend 0 false) ∧ decodeTableWord 8 3 = some .reservedOp3 := by decide

/-- Rule R93 of program P1, step 3: the nine operand bytes of FEED. -/
theorem test_decode_port_feed :
    decode c (.port (.command 0 [0x3A, 0x31, 0x7D, 0x5D, 0x42, 0x72, 0x4D, 0x0D, 0x0A] 250 1)) =
      .ok (.feed [0x3A, 0x31, 0x7D, 0x5D, 0x42, 0x72, 0x4D, 0x0D, 0x0A] 250) := by decide

theorem test_decode_port_nextSend :
    decode c (.port (.command 2 [0x31] 1555 1)) = .ok (.nextSend 1555 true) := by decide

theorem test_decode_reset : decode c (.port (.reset 1000 7 2)) = .ok (.reset 1000 7 2) := by decide

/-- Vector V4: a Publish with all four fields. -/
theorem test_decode_publish :
    decode c (.line (ascii "[\"door\",true,777,\"bogus\"]Q5q")) =
      .ok (.linePublish .value ⟨ascii "door", ascii "true", 777, ascii "bogus"⟩) := by decide +kernel

/-- Scenario S6: the bypass token. -/
theorem test_decode_publish_bypass :
    decode c (.line (ascii "[\"t\",1]~~~")) = .ok (.linePublish .bypass ⟨ascii "t", ascii "1", 0, []⟩) := by
  decide +kernel

/-- Program P2, step 2, its 20 bytes before the NL. -/
theorem test_decode_tq :
    decode c (.line [0x54, 0x51, 0x5B, 0x31, 0x39, 0x37, 0x30, 0x30, 0x31, 0x30, 0x31, 0x2C, 0x31, 0x35, 0x35,
      0x35, 0x5D, 0x62, 0x32, 0x35]) = .ok (.lineTq .value ⟨19700101, 1555, 0, 0⟩) := by decide +kernel

/-- Program P3, step 5. -/
theorem test_decode_tr :
    decode c (.line (ascii "TR[20261108,153400250,2000,2250,48879,3]QM9")) =
      .ok (.lineTr .value ⟨20261108, 153400250, 2000, 2250, 48879, 3⟩) := by decide +kernel

/-- Vector V4. -/
theorem test_decode_ps :
    decode c (.line (ascii "PS[48879,3,\"fw\",\"\",\"run\"]RpW")) =
      .ok (.linePs .value ⟨48879, 3, ascii "fw", [], ascii "run"⟩) := by decide +kernel

/-- Scenario S1. -/
theorem test_decode_unknown :
    decode c (.line (lineS1 "Xwb")) = .ok (.lineUnknown .value ⟨ascii "PFX", payS1⟩) := by decide +kernel

/-- Rule R76: `X` is 23, `w` is 48, `b` is 27. -/
theorem test_decode_ckfield_value : decode c (.ckfield (ascii "Xwb")) = .ok (.ckfieldValue 23 48 27) := by
  decide +kernel

theorem test_decode_ckfield_bypass : decode c (.ckfield (ascii "~~~")) = .ok .ckfieldBypass := by
  decide +kernel

/-- Vectors V2 and V7: rejected by name. -/
theorem test_decode_rejects :
    decode c (.line (ascii "hello")) = .reject .structural ∧
    decode c (.line (lineS1 "Xwc")) = .reject (.cksum 0x17C1C 0x17C1B) ∧
    decode c (.line (ascii "TQ[1]~~~")) = .reject (.payload (ascii "TQ") (ascii "[1]")) ∧
    decode c (.ckfield (ascii "X=b")) = .reject .ckField := by decide +kernel

/-! ### One step each, from the vectors -/

/-- Program P5, steps 2 to 4: the timestamp of the line's first byte. -/
theorem test_feed_line_time :
    nextGet (fun s => (s.acc, s.pendV, s.pend, s.out.events))
      (exec (.feed (ascii "\n") 1900) { State.reset with
        start := 1000, nextQ := 1000, fpId := 7, fpLen := 2, profile := ⟨7, 2⟩, lineT := 1100
        acc := ascii "TQ[20261108,153400250]jKG" }) =
      some ([], true, ⟨20261108, 153400250, 100, 0, 7, 2⟩, []) := by decide +kernel

/-- Rule R204 (a) with a bound of four bytes. -/
theorem test_feed_overflow :
    nextGet (fun s => (s.acc, s.lineT, s.out.events)) (exec (.feed [0x78, 0x78, 0x78] 20) sSmall) =
      some ([], 10, [.overflow 4]) := by decide +kernel

/-- Vector V6, DRAIN. -/
theorem test_drain :
    nextGet (fun s => (s.mq, s.out)) (exec .drain { s0 with mq := [⟨ascii "a", ascii "1", [], 0, 0⟩] }) =
      some ([], ⟨.messages [⟨ascii "a", ascii "1", [], 0, 0⟩], []⟩) := by decide +kernel

/-- Vector V6, NEXT_SEND gating. -/
theorem test_nextSend_query :
    nextGet (fun s => (s.nextQ, s.out)) (exec (.nextSend 0 true) s0) =
      some (5000, ⟨.bytes (ascii "TQ[19700101,0]gUF\n"), []⟩) := by decide +kernel

/-- Program P3, step 5. -/
theorem test_nextSend_reply :
    nextGet (fun s => (s.pendV, s.nextQ, s.out)) (exec (.nextSend 2250 true) sPend) =
      some (false, 5000,
        ⟨.bytes (ascii "TR[20261108,153400250,2000,2250,48879,3]QM9\n"), []⟩) := by decide +kernel

/-- Rule R92 (g). -/
theorem test_reservedOp3 : refusal? (exec .reservedOp3 s0) = some .reservedCommand := by decide

/-- Rule R38, after a CONTRACT fault (rule R235). -/
theorem test_reset :
    nextGet (fun s => (s.start, s.nextQ, s.pendV, s.fpId, s.fpLen, s.phase)) (exec (.reset 1000 7 2) sStuck) =
      some (1000, 1000, false, 7, 2, .running) := by decide +kernel

/-- Scenario S5: an empty schema name. -/
theorem test_linePublish :
    nextGet (fun s => (s.mq, s.out.events)) (exec (.linePublish .value ⟨ascii "t", objA1, 0, []⟩) s0) =
      some ([⟨ascii "t", objA1, [], 0, 0⟩], []) := by decide +kernel

/-- Vector V5, TS_ONQ through a received line. -/
theorem test_lineTq :
    nextGet (fun s => (s.pendV, s.pend)) (exec (.lineTq .value query0) { s0 with lineT := 2000 }) =
      some (true, reply0) := by decide +kernel

/-- Vector V7: no event, no effect. -/
theorem test_lineTr :
    nextGet id (exec (.lineTr .value ⟨19700101, 0, 40, 41, 0, 0⟩) s0) = some s0 := by decide +kernel

/-- Vector V7. -/
theorem test_linePs :
    nextGet (·.out.events) (exec (.linePs .value ⟨48879, 3, [], [], []⟩) s0) =
      some [.unhandled (ascii "PS") (.profileStart ⟨48879, 3, [], [], []⟩)] := by decide +kernel

/-- Vector V7. -/
theorem test_lineUnknown :
    nextGet (·.out.events) (exec (.lineUnknown .value ⟨ascii "PFX", payS1⟩) s0) =
      some [.unknown (ascii "PFX") payS1] := by decide +kernel

theorem test_ckfieldValue :
    nextGet (·.out.result) (exec (.ckfieldValue 23 48 27) s0) = some (.value18 0x17C1B) := by decide +kernel

theorem test_ckfieldBypass :
    nextGet (·.out.result) (exec .ckfieldBypass s0) = some (.verdict .bypass) := by decide

/-- Vector V1. -/
theorem test_crc18 :
    nextGet (·.out.result) (exec (.crc18 (ascii "123456789")) s0) = some (.value18 0x23A17) := by
  decide +kernel

/-- Vector V1, the carries into `c1` and `c0`. -/
theorem test_ckEnc :
    nextGet (·.out.result) (exec (.ckEnc 0x00040) s0) = some (.bytes (ascii "ABA")) ∧
    nextGet (·.out.result) (exec (.ckEnc 0x20000) s0) = some (.bytes (ascii "gAA")) := by decide +kernel

/-- Vector V1. -/
theorem test_ckDec :
    nextGet (·.out.result) (exec (.ckDec (ascii "A__")) s0) = some (.value18 0x00FFF) ∧
    refusal? (exec (.ckDec (ascii "X=b")) s0) = some .operandOutsideDomain := by decide +kernel

/-- Vector V1. -/
theorem test_ckVerify :
    nextGet (·.out.result) (exec (.ckVerify (ascii "PFX" ++ payS1) (ascii "Xwc")) s0) =
      some (.verify false 0x17C1C 0x17C1B) := by decide +kernel

/-- Vector V2: leading whitespace, a padded bare token. -/
theorem test_lineParse_bare :
    nextGet (·.out.result) (exec (.lineParse (ascii " T 42 al3")) s0) =
      some (.parse (.ok ⟨ascii "T", ascii "42"⟩ .valid)) := by decide +kernel

/-- Vector V2: three payload edges. -/
theorem test_lineParse_edges :
    lineParse c (ascii "X[1,2]~~~~") = .structural ∧
    lineParse c (ascii " \"a b\" ~~~") = .ok ⟨[], ascii "\"a b\""⟩ .bypass ∧
    lineParse c (ascii " null ZK0") = .ok ⟨[], ascii "null"⟩ .valid := by decide +kernel

/-- Vector V3. -/
theorem test_lineSer :
    nextGet (·.out.result) (exec (.lineSer ⟨ascii "PFX", payS1⟩) s0) = some (.bytes (lineS1 "Xwb")) ∧
    nextGet (·.out.result) (exec (.lineSer ⟨[], ascii "42"⟩) s0) = some (.bytes (ascii " 42 VcS")) := by
  decide +kernel

/-- Rule R235: the event, no result, and the block stuck. -/
theorem test_lineSer_contract :
    nextGet (fun s => (s.out, s.phase)) (exec (.lineSer ⟨ascii "A B", ascii "1"⟩) s0) =
      some (⟨.none, [.contract (ascii "A B")]⟩, .stuck (ascii "A B")) := by decide +kernel

/-- Vector V4: the trailing run of defaults, and a default before a value that is none. -/
theorem test_plEnc :
    nextGet (·.out.result) (exec (.plEnc (.timeReply ⟨19700101, 1555, 0, 0, 0, 3⟩)) s0) =
      some (.line ⟨ascii "TR", ascii "[19700101,1555,0,0,0,3]"⟩) ∧
    nextGet (·.out.result) (exec (.plEnc (.timeQuery ⟨19700101, 0, 0, 0⟩)) s0) =
      some (.line ⟨ascii "TQ", ascii "[19700101,0]"⟩) := by decide +kernel

/-- Vector V4: whitespace between elements; arity. -/
theorem test_plDec :
    nextGet (·.out.result) (exec (.plDec ⟨[], ascii "[ \"t\" , [1, 2] , 7 ]"⟩) s0) =
      some (.decoded (.known (.publish ⟨ascii "t", ascii "[1, 2]", 7, []⟩))) ∧
    nextGet (·.out.result) (exec (.plDec ⟨ascii "TQ", ascii "[1,2,3,4,5]"⟩) s0) =
      some (.decoded .decodeError) := by decide +kernel

/-- Vector V4: a comma and a bracket inside a string. -/
theorem test_splitArray :
    nextGet (·.out.result) (exec (.splitArray (ascii "[\"a,b]\",1]")) s0) =
      some (.elements (some [ascii "\"a,b]\"", ascii "1"])) ∧
    nextGet (·.out.result) (exec (.splitArray (ascii "[1,]")) s0) = some (.elements none) := by
  decide +kernel

theorem test_encInt :
    nextGet (·.out.result) (exec (.encInt (-tooBig)) s0) =
      some (.bytes (ascii "-9223372036854775808")) := by decide +kernel

/-- Vector V4: `-0` is 0; a leading zero and a value past the range are errors. -/
theorem test_decInt :
    nextGet (·.out.result) (exec (.decInt (ascii "-0")) s0) = some (.intOrError (some 0)) ∧
    nextGet (·.out.result) (exec (.decInt (ascii "01")) s0) = some (.intOrError none) ∧
    nextGet (·.out.result) (exec (.decInt (ascii "9223372036854775808")) s0) = some (.intOrError none) := by
  decide +kernel

/-- Vector V4: the escapes ENC_STR emits. -/
theorem test_encStr :
    nextGet (·.out.result) (exec (.encStr [0x61, 0x22, 0x5C, 0x0A, 0x01]) s0) =
      some (.bytes (ascii "\"a\\\"\\\\\\n\\u0001\"")) := by decide +kernel

/-- Vector V4: UTF-8 of an escape and of a surrogate pair. -/
theorem test_decStr :
    nextGet (·.out.result) (exec (.decStr (ascii "\"\\u00e9\\ud83d\\ude00\"")) s0) =
      some (.bytesOrError (some [0xC3, 0xA9, 0xF0, 0x9F, 0x98, 0x80])) := by decide +kernel

theorem test_encRaw : nextGet (·.out.result) (exec (.encRaw objX3) s0) = some (.bytes objX3) := by
  decide +kernel

theorem test_decRaw : nextGet (·.out.result) (exec (.decRaw objX3) s0) = some (.bytes objX3) := by
  decide +kernel

/-- Rule R171, its ties at a TPS of a million. -/
theorem test_msec :
    nextGet (·.out.result) (exec (.msec 2250) s0) = some (.int 2250) ∧
    nextGet (·.out.result)
      (exec (.msec 2250500) { s0 with cfg := { Params.default with tps := 1000000 } }) =
      some (.int 2250) ∧
    nextGet (·.out.result)
      (exec (.msec 2251500) { s0 with cfg := { Params.default with tps := 1000000 } }) =
      some (.int 2252) := by decide +kernel

/-- Vector V5. -/
theorem test_utcPack :
    nextGet (·.out.result) (exec (.utcPack 951782400000) s0) = some (.stamp 20000229 0) ∧
    nextGet (·.out.result) (exec (.utcPack 4107542400000) s0) = some (.stamp 21000301 0) ∧
    nextGet (·.out.result) (exec (.utcPack 253402300799999) s0) = some (.stamp 99991231 235959999) := by
  decide +kernel

/-- Vector V5. -/
theorem test_tsHas :
    nextGet (·.out.result) (exec (.tsHas 5554) { s0 with nextQ := 5555 }) = some (.bool false) ∧
    nextGet (·.out.result) (exec (.tsHas 5555) { s0 with nextQ := 5555 }) = some (.bool true) := by
  decide +kernel

/-- Vector V5: a slip. -/
theorem test_tsGet_slip :
    nextGet (fun s => (s.nextQ, s.out.result)) (exec (.tsGet 6556) { s0 with nextQ := 5555 }) =
      some (10556, .payload (some (.timeQuery ⟨19700101, 6556, 0, 0⟩))) := by decide +kernel

/-- Vector V5: the reply branch. -/
theorem test_tsGet_reply :
    nextGet (fun s => (s.pendV, s.nextQ, s.out.result)) (exec (.tsGet 2250) sPend) =
      some (false, 5000, .payload (some (.timeReply ⟨20261108, 153400250, 2000, 2250, 48879, 3⟩))) := by
  decide +kernel

/-- Vector V5: the pending reply is overwritten. -/
theorem test_tsOnq :
    nextGet (fun s => (s.pendV, s.pend)) (exec (.tsOnq ⟨20261108, 153403360, 9, 9⟩ 5110) sPend) =
      some (true, ⟨20261108, 153403360, 5110, 0, 48879, 3⟩) := by decide +kernel

/-- Vector V5. -/
theorem test_tsOnr :
    nextGet id (exec (.tsOnr ⟨19700101, 0, 40, 41, 0, 0⟩ 90) sPend) = some sPend := by decide +kernel

/-- Vector V7: priority of the checksum over the prefix. -/
theorem test_lineProcess :
    nextGet (·.out.events) (exec (.lineProcess (ascii "tq[19700101,1555]b25")) s0) =
      some [.cksum (ascii "tq[19700101,1555]b25") 0x1BDB9 0x0E17D] := by decide +kernel

theorem test_dispatch :
    nextGet (·.out.events) (exec (.dispatch (.profileStart ⟨1, 2, [], [], []⟩)) s0) =
      some [.unhandled (ascii "PS") (.profileStart ⟨1, 2, [], [], []⟩)] := by decide +kernel

theorem test_schemaLookup (name : Bytes) :
    exec (.schemaLookup name) s0 = .next { s0 with out := ⟨.bytes (Config.schemaLookup name), []⟩ } := rfl

/-- Vector V6. -/
theorem test_schemaResolve :
    nextGet (·.out.result) (exec (.schemaResolve (ascii "json:bool")) s0) = some (.bytes (ascii "bool")) ∧
    nextGet (·.out.result) (exec (.schemaResolve (ascii "JSON:int")) s0) =
      some (.bytes (ascii "ERROR:INVALID:JSON:int")) := by decide +kernel

theorem test_mkMsg :
    nextGet (·.out.result) (exec (.mkMsg ⟨ascii "door", ascii "true", 777, ascii "bogus"⟩) s0) =
      some (.message ⟨ascii "door", ascii "true", ascii "ERROR:INVALID:bogus", 0, 777⟩) := by decide +kernel

/-! ### A step -/

theorem test_step_runs_first_input :
    nextGet (fun s => (s.inbox, s.nextQ)) (step { s0 with inbox := [.command 2 [] 0 1, .command 1 [] 0 0] }) =
      some ([.command 1 [] 0 0], 5000) := by decide +kernel

theorem test_step_withFetchWord :
    nextGet (·.out.result) (step (State.reset.withFetchWord 8 1)) = some (.messages []) := by decide +kernel

theorem test_stuck_faults : exec .drain sStuck = .fault .stuckAfterContract := rfl

/-! ### Witnesses: concrete data that meet the hypotheses of each obligation together -/

theorem witness_running : s0.phase = .running ∧ s0.cfg.legal = true := by decide +kernel

theorem witness_CrcIsPolynomialRemainder : s0.phase = .running ∧ s0.cfg.crcXorOut = 0 := by decide

theorem witness_CrcIsLinear :
    c.crcXorOut = 0 ∧ (ascii "abcd").length = (ascii "wxyz").length := by decide +kernel

theorem witness_CrcStreamsThroughByteTable : c.crcXorOut = 0 := by decide

/-- The widest burst, 18 bits, and one of a single bit. -/
theorem witness_CrcDetectsShortBursts :
    c.crcPoly.getLsbD 0 = true ∧
    (bitsOf [0x80, 0x00, 0x40] = [] ++ ([true] ++ List.replicate 16 false ++ [true]) ++ List.replicate 6 false ∧
      bitsOf [0x00, 0x00, 0x00] = [] ++ List.replicate 18 false ++ List.replicate 6 false) ∧
    (bitsOf [0x01] = List.replicate 7 false ++ [true] ++ [] ∧
      bitsOf [0x00] = List.replicate 7 false ++ [false] ++ []) := by decide +kernel

/-- The fields of the least and the largest value. -/
theorem witness_ChecksumFieldEncodingIsBijective :
    s0.phase = .running ∧ s0.cfg.legal = true ∧
    (ascii "AAA").length = 3 ∧ (ascii "AAA").all isB64Url = true ∧
    (ascii "___").length = 3 ∧ (ascii "___").all isB64Url = true := by decide +kernel

theorem witness_VerifyComparesReceivedWithComputed :
    s0.phase = .running ∧ (ascii "Xwb").length = 3 ∧ (ascii "Xwb").all isB64Url = true := by decide +kernel

theorem witness_ChecksumFieldFormsYieldTheirMeaning : s0.phase = .running := rfl

/-- A structured payload of two bytes, and a bare token of one byte under the empty prefix. -/
theorem witness_LineSerThenParseRestoresLine :
    s0.phase = .running ∧ s0.cfg.legal = true ∧
    ((ascii "X").all isWord = true ∧ structuredShape (ascii "[]") = true) ∧
    (([] : Bytes).all isWord = true ∧ ascii "7" ≠ [] ∧ (∀ b ∈ ascii "7", s0.cfg.isWs b = false) ∧
      (ascii "7").head?.any isOpener = false ∧ (ascii "7").getLast?.any isCloser = false) := by
  decide +kernel

theorem witness_ChecksumFieldDecidesVerdict :
    s0.phase = .running ∧ s0.cfg.legal = true ∧ (ascii "PFX").all isWord = true ∧
    structuredShape payS1 = true ∧ (ascii "Xwc").length = 3 ∧ (ascii "Xwc").all isB64Url = true := by
  decide +kernel

theorem witness_AcceptedLinesAreCheckedOrBypassed :
    s0.phase = .running ∧ s0.cfg.legal = true ∧
    lineParse s0.cfg (lineS1 "Xwb") = .ok ⟨ascii "PFX", payS1⟩ .valid ∧
    lineParse s0.cfg (lineS1 "~~~") = .ok ⟨ascii "PFX", payS1⟩ .bypass ∧
    lineParse s0.cfg (lineS1 "Xwc") = .cksum 0x17C1C 0x17C1B := by decide +kernel

/-- Rules R122 to R124: the longest run is the prefix and A goes before C; C where neither A nor B applies. -/
theorem test_lineParse_reading :
    lineParse c (ascii " a[1] ~~~") = .ok ⟨ascii "a", ascii "[1]"⟩ .bypass ∧
    lineParse c (ascii "X  7  ~~~") = .ok ⟨ascii "X", ascii "7"⟩ .bypass ∧
    lineParse c (ascii " 3.14 ~~~") = .ok ⟨[], ascii "3.14"⟩ .bypass := by decide +kernel

/-- The reading of `X  7  `: prefix `X`, no structured payload, the bare token `7`. -/
theorem test_lineReading : c.LineReading (ascii "X  7  ") ⟨ascii "X", ascii "7"⟩ := by
  refine ⟨[], ascii "X", ascii "  7  ", by decide +kernel, by simp, by decide +kernel, by decide +kernel,
    by decide +kernel, .inr (.inl ⟨?_, rfl, ascii "  ", ascii "  ", by decide +kernel⟩)⟩
  rintro ⟨q, gapA, gapB, h, -, hq⟩
  have e : ascii "  7  " = [0x20, 0x20, 0x37, 0x20, 0x20] := by decide +kernel
  have hm : ∀ x ∈ q, x = 0x20 ∨ x = 0x37 := by
    intro x hx
    have : x ∈ ascii "  7  " := by rw [h]; simp [hx]
    rw [e] at this; simpa [or_comm] using this
  rcases hq with ⟨m, rfl⟩ | ⟨m, rfl⟩ | ⟨m, rfl⟩
  · have := hm 0x22 (by simp); revert this; decide
  · have := hm 0x7B (by simp); revert this; decide
  · have := hm 0x5B (by simp); revert this; decide

theorem witness_LineSerEmitsSeparatorsByEdges :
    s0.phase = .running ∧ ([] : Bytes).all isWord = true ∧ ascii "4" ≠ [] := by decide +kernel

theorem witness_BadPrefixTakesContractFault :
    s0.phase = .running ∧ ascii "1" ≠ [] ∧ (ascii "A-").all isWord = false := by decide +kernel

theorem witness_OnlyResetLeavesStuckPhase_stuck :
    (∃ p, sStuck.phase = .stuck p) ∧ Instr.drain ≠ .reservedOp3 ∧
    ∀ t0 a b, Instr.drain ≠ .reset t0 a b := ⟨⟨_, rfl⟩, by decide, by simp⟩

theorem witness_OnlyResetLeavesStuckPhase_unconstructed :
    ({ s0 with phase := .unconstructed } : State).phase = .unconstructed := rfl

/-- The ends of the INT range. -/
theorem witness_OnlyResetLeavesStuckPhase_reset :
    sStuck.cfg.inInt (-tooBig) = true ∧ sStuck.cfg.inInt (tooBig - 1) = true := by decide

/-- A Publish of a JSON object, and a TimeReply of the ends of the INT range. -/
theorem witness_PayloadRoundTripThroughFrame :
    s0.phase = .running ∧ s0.cfg.legal = true ∧
    ((Variant.publish ⟨[0x22, 0x0A], objX3, 0, []⟩).inRange s0.cfg = true ∧
      (Variant.publish ⟨[0x22, 0x0A], objX3, 0, []⟩).rawContract s0.cfg = true) ∧
    ((Variant.timeReply ⟨-tooBig, tooBig - 1, 0, 0, 0, 0⟩).inRange s0.cfg = true ∧
      (Variant.timeReply ⟨-tooBig, tooBig - 1, 0, 0, 0, 0⟩).rawContract s0.cfg = true) := by decide +kernel

theorem witness_EncoderOmitsMaximalDefaultRun :
    s0.phase = .running ∧ (Variant.timeQuery ⟨0, 0, 0, 0⟩).inRange s0.cfg = true := by decide

/-- The empty array is a payload, the empty byte string is none. -/
theorem witness_SplitArrayAcceptsExactlyTheGrammar :
    s0.phase = .running ∧ 1 ≤ s0.cfg.jsonMaxDepth ∧ JsonPayload s0.cfg [] [0x5B, 0x5D] ∧
    ¬ ∃ els, JsonPayload s0.cfg els [] := by
  refine ⟨rfl, by decide, ⟨[], [0x5B, 0x5D], [], by simp [JsonWs], .empty (w := []) (by simp [JsonWs]),
    by simp [JsonWs], rfl⟩, ?_⟩
  rintro ⟨els, w, a, w', -, ha, -, h⟩
  have : a = [] := by
    have := h.symm; simp at this; exact this.2.1
  subst this
  cases ha

theorem witness_DecoderChecksArityAndTypes :
    s0.phase = .running ∧ s0.cfg.legal = true ∧ timeQueryDescriptor s0.cfg ∈ registry s0.cfg ∧
    ascii "TQ" = (timeQueryDescriptor s0.cfg).pfx ∧
    splitArray s0.cfg (ascii "[1,2]") = some [ascii "1", ascii "2"] := by decide +kernel

theorem witness_DecoderLooksUpWholePrefix :
    s0.phase = .running ∧ ascii "TQX" ∉ s0.cfg.registeredPrefixes ∧
    ascii "TQ" ∈ s0.cfg.registeredPrefixes ∧ splitArray s0.cfg (ascii "42") = none := by decide +kernel

theorem witness_EncIntIsShortestDecimal :
    s0.phase = .running ∧ s0.cfg.inInt 0 = true ∧ s0.cfg.inInt (-tooBig) = true ∧
    s0.cfg.inInt (tooBig - 1) = true := by decide

/-- `0` has the form of an integer literal. -/
theorem witness_DecIntAcceptsIntegerLiteralsInRange :
    s0.phase = .running ∧ s0.cfg.inInt 0 = true ∧ JsonIntPart [0x30] ∧ JsonIntPart [0x39, 0x30] :=
  ⟨rfl, by decide, .inl rfl, .inr ⟨0x39, [0x30], rfl, by decide, by decide, by decide⟩⟩

/-- A string with every form of escape, a lone high surrogate, and a value that is no string. -/
theorem witness_StringCodecRoundTrip :
    s0.phase = .running ∧ s0.cfg.isElement (ascii "\"a\\/\\n\\u00e9\\ud83d\\ude00\"") = true ∧
    s0.cfg.isElement (ascii "\"\\ud83d\"") = true ∧ s0.cfg.isElement (ascii "1") = true := by
  decide +kernel

/-- The pieces of a string: a byte, an escape, and a surrogate pair as rule R147 writes its value. -/
theorem test_strText :
    StrText (ascii "\"a\\/\\ud83d\\ude00\"") [0x61, 0x2F, 0xF0, 0x9F, 0x98, 0x80] := by
  refine ⟨[(ascii "a", [0x61]), (ascii "\\/", [0x2F]),
    (ascii "\\ud83d" ++ ascii "\\ude00", utf8 (0x10000 + (0xD83D - 0xD800) * 0x400 + (0xDE00 - 0xDC00)))], ?_,
    by decide +kernel, by decide +kernel⟩
  have hi : UnicodeEscape (ascii "\\ud83d") 0xD83D :=
    ⟨0x64, 0x38, 0x33, 0x64, 13, 8, 3, 13, by decide +kernel, .inr (.inl (by decide)), .inl (by decide),
      .inl (by decide), .inr (.inl (by decide)), rfl⟩
  have lo : UnicodeEscape (ascii "\\ude00") 0xDE00 :=
    ⟨0x64, 0x65, 0x30, 0x30, 13, 14, 0, 0, by decide +kernel, .inr (.inl (by decide)), .inr (.inl (by decide)),
      .inl (by decide), .inl (by decide), rfl⟩
  have ha : ascii "a" = [0x61] := by decide +kernel
  have hs : ascii "\\/" = [0x5C, 0x2F] := by decide +kernel
  simp only [List.mem_cons, List.not_mem_nil, or_false, forall_eq_or_imp, forall_eq, ha, hs]
  exact ⟨.plain 0x61 (by decide) (by decide) (by decide), .slash,
    .pair hi lo (by decide) (by decide) (by decide) (by decide)⟩

theorem witness_RawCodecIsIdentity : s0.phase = .running := rfl

/-- A line row in each checksum form, a checksum field and a command. -/
theorem witness_DecodeOfEncodeIsIdentity :
    c.legal = true ∧
    (wellFormed c (.lineTq .value ⟨19700101, 1555, 0, 0⟩) = true ∧
      encode c (.lineTq .value ⟨19700101, 1555, 0, 0⟩) = some (.line (ascii "TQ[19700101,1555]b25"))) ∧
    (wellFormed c (.lineUnknown .bypass ⟨ascii "T", ascii "42"⟩) = true ∧
      encode c (.lineUnknown .bypass ⟨ascii "T", ascii "42"⟩) = some (.line (ascii "T 42 ~~~"))) ∧
    (wellFormed c (.ckfieldValue 63 0 63) = true ∧
      encode c (.ckfieldValue 63 0 63) = some (.ckfield (ascii "_A_"))) ∧
    (wellFormed c (.feed [0x0A] (-1)) = true ∧
      encode c (.feed [0x0A] (-1)) = some (.port (.command 0 [0x0A] (-1) 0))) := by decide +kernel

theorem witness_DecodedLinesAreWellFormed :
    c.legal = true ∧ c.nl ∉ ascii "TQ[1,2]~~~" ∧
    decode c (.line (ascii "TQ[1,2]~~~")) = .ok (.lineTq .bypass ⟨1, 2, 0, 0⟩) := by decide +kernel

/-- Marks inside and just outside the INT range. -/
theorem witness_MsecRoundsHalfEven :
    s0.phase = .running ∧ 1 ≤ s0.cfg.tps ∧
    s0.cfg.inInt (msecMark s0.cfg s0.start (tooBig - 1)) = true ∧
    s0.cfg.inInt (msecMark s0.cfg s0.start tooBig) = false := by decide +kernel

/-- Both ends of the calendar range, and one tick past each. -/
theorem witness_UtcPackIsTheCalendarInstant :
    s0.phase = .running ∧ 1 ≤ s0.cfg.tps ∧ s0.cfg.inCalendar 0 = true ∧
    s0.cfg.inCalendar 253402300799999 = true ∧ s0.cfg.inCalendar (-1) = false ∧
    s0.cfg.inCalendar 253402300800000 = false := by decide

theorem witness_TsHasIffPendingOrDue : s0.phase = .running := rfl

theorem witness_TsGetTakesOneOfThreeBranches_reply :
    sPend.phase = .running ∧ sPend.pendV = true ∧
    sPend.cfg.inInt (msecMark sPend.cfg sPend.start 2250) = true := by decide +kernel

/-- Due at exactly the scheduled tick. -/
theorem witness_TsGetTakesOneOfThreeBranches_query :
    s0.phase = .running ∧ s0.pendV = false ∧ s0.nextQ ≤ 0 ∧ s0.cfg.inCalendar 0 = true := by decide

/-- A mark, and a query time, one tick past its range. -/
theorem witness_TsGetTakesOneOfThreeBranches_refused :
    (sPend.phase = .running ∧ sPend.pendV = true ∧
      sPend.cfg.inInt (msecMark sPend.cfg sPend.start tooBig) = false) ∧
    (s0.phase = .running ∧ s0.pendV = false ∧ s0.nextQ ≤ 253402300800000 ∧
      s0.cfg.inCalendar 253402300800000 = false) := by decide +kernel

theorem witness_TsGetTakesOneOfThreeBranches_idle :
    s0.phase = .running ∧ s0.pendV = false ∧ -1 < s0.nextQ := by decide

/-- On time, exactly one grace late, and one tick more. -/
theorem witness_SlipLimitedScheduleSpacing :
    s0.phase = .running ∧ 1 ≤ s0.cfg.tps ∧ s0.pendV = false ∧
    (s0.nextQ ≤ 0 ∧ s0.cfg.inCalendar 0 = true ∧ 0 ≤ s0.nextQ + s0.cfg.tps) ∧
    (s0.nextQ ≤ 1000 ∧ s0.cfg.inCalendar 1000 = true ∧ 1000 ≤ s0.nextQ + s0.cfg.tps) ∧
    (s0.nextQ ≤ 1001 ∧ s0.cfg.inCalendar 1001 = true ∧ s0.nextQ + s0.cfg.tps < 1001) := by decide

theorem witness_LastQueryWins :
    s0.phase = .running ∧ (Variant.timeQuery query0).inRange s0.cfg = true ∧
    (Variant.timeQuery ⟨20261108, 153403360, 9, 9⟩).inRange s0.cfg = true ∧
    s0.cfg.inInt (msecMark s0.cfg s0.start 5100) = true ∧
    s0.cfg.inInt (msecMark s0.cfg s0.start 5110) = true ∧
    s0.cfg.inInt (msecMark s0.cfg s0.start tooBig) = false := by decide +kernel

theorem witness_ReceivedReplyHasNoEffect :
    s0.phase = .running ∧ (Variant.timeReply reply0).inRange s0.cfg = true := by decide

/-- A chunk of CHUNK_MAX bytes. -/
theorem witness_FeedIsTheRuleLoop :
    ({ s0 with cfg := c4 } : State).phase = .running ∧
    ({ s0 with cfg := c4 } : State).cfg.chunkOk [1, 2, 3, 4] = true := by decide

theorem witness_ChunkBoundariesCarryNoMeaning :
    sSmall.cfg.chunkMax = none ∧ (sSmall.acc ++ [0x79, 0x79]).length < sSmall.cfg.accMax ∧
    exec (.feed [0x79, 0x79] 20) sSmall = .next { sSmall with acc := [0x78, 0x79, 0x79] } ∧
    exec (.feed [0x79] 20) { sSmall with acc := [0x78, 0x79, 0x79] } =
      .next { sSmall with acc := [], out := ⟨.none, [.overflow 4]⟩ } :=
  ⟨rfl, by decide, rfl, rfl⟩

/-- A tick whose mark does not fit an INT, and a query line fed at it. -/
def queryLine : Bytes := ascii "TQ[1,2]~~~"

theorem queryLine_isQueryLine : s0.cfg.IsQueryLine queryLine :=
  ⟨.bypass, ⟨1, 2, 0, 0⟩, by decide +kernel⟩

/-- A chunk without a newline completes no line. -/
theorem witness_FeedCompletesAndKeepsSchedule :
    sSmall.phase = .running ∧ sSmall.cfg.chunkOk (ascii "x") = true ∧
    ∀ line t, sSmall.Completes (ascii "x") 20 line t → sSmall.cfg.IsQueryLine line →
      sSmall.cfg.inInt (msecMark sSmall.cfg sSmall.start t) = true := by
  refine ⟨rfl, rfl, ?_⟩
  have hx : ascii "x" = [0x78] := by decide +kernel
  rintro line t (⟨p, r, h, -⟩ | ⟨p, r, h, -⟩) <;>
    · have : (0x0A : Byte) ∈ ascii "x" := by rw [h]; simp [sSmall, s0, State.reset, Params.default]
      rw [hx] at this; exact absurd this (by decide)

/-- The first line of a chunk, at the last tick whose mark fits an INT and at the next one. -/
theorem witness_FeedCompletesAndKeepsSchedule_marks (w : Time) :
    s0.phase = .running ∧ s0.cfg.chunkOk (queryLine ++ [0x0A]) = true ∧
    s0.Completes (queryLine ++ [0x0A]) w queryLine w ∧ s0.cfg.IsQueryLine queryLine ∧
    s0.cfg.inInt (msecMark s0.cfg s0.start (tooBig - 1)) = true ∧
    s0.cfg.inInt (msecMark s0.cfg s0.start tooBig) = false :=
  ⟨rfl, rfl, .inl ⟨queryLine, [], by simp [s0, State.reset, Params.default], by decide +kernel, rfl, rfl⟩,
    queryLine_isQueryLine, by decide +kernel, by decide +kernel⟩

theorem test_feed_refused :
    refusal? (exec (.feed (queryLine ++ [0x0A]) tooBig) s0) = some .markOutsideInt := by decide +kernel

/-- One byte below the bound, and at it. -/
theorem witness_ChunkTailAppendsOrOverflows :
    sSmall.phase = .running ∧ sSmall.cfg.chunkOk [1, 2, 3] = true ∧
    (([1, 2] : Bytes) ≠ [] ∧ sSmall.cfg.nl ∉ ([1, 2] : Bytes) ∧ sSmall.acc.length + 2 < sSmall.cfg.accMax) ∧
    (([1, 2, 3] : Bytes) ≠ [] ∧ sSmall.cfg.nl ∉ ([1, 2, 3] : Bytes) ∧
      sSmall.cfg.accMax ≤ sSmall.acc.length + 3) := by decide

theorem witness_LineTimeIsWrittenBeforeItIsRead : s0.acc = [] ∧ ([0x0A] : Bytes) ≠ [] := by decide

/-- The accumulator overflows: one event without a newline in the chunk. -/
theorem witness_FeedEventsBoundedByLines :
    exec (.feed [0x79, 0x79, 0x79] 20) sSmall =
      .next { sSmall with acc := [], out := ⟨.none, [.overflow 4]⟩ } := rfl

/-- A line of each class. -/
theorem witness_LineProcessReportsFirstClass :
    s0.phase = .running ∧ s0.cfg.legal = true ∧
    (s0.cfg.nl ∉ ([] : Bytes) ∧ decodeLine s0.cfg [] = .reject .structural) ∧
    (s0.cfg.nl ∉ lineS1 "Xwc" ∧ decodeLine s0.cfg (lineS1 "Xwc") = .reject (.cksum 0x17C1C 0x17C1B)) ∧
    (s0.cfg.nl ∉ lineS1 "Xwb" ∧ decodeLine s0.cfg (lineS1 "Xwb") =
      .ok (.lineUnknown .value ⟨ascii "PFX", payS1⟩)) ∧
    (s0.cfg.nl ∉ ascii "[]~~~" ∧ decodeLine s0.cfg (ascii "[]~~~") = .reject (.payload [] (ascii "[]"))) ∧
    (s0.cfg.nl ∉ ascii "TQ[1,2]~~~" ∧ decodeLine s0.cfg (ascii "TQ[1,2]~~~") =
      .ok (.lineTq .bypass ⟨1, 2, 0, 0⟩)) := by decide +kernel

theorem witness_LineRowsHaveTheirEffect :
    s0.phase = .running ∧
    wellFormed s0.cfg (.linePublish .bypass ⟨[], ascii "null", tooBig - 1, []⟩) = true ∧
    (wellFormed s0.cfg (.lineTq .value query0) = true ∧
      s0.cfg.inInt (msecMark s0.cfg s0.start s0.lineT) = true) ∧
    wellFormed s0.cfg (.lineTr .value reply0) = true ∧
    wellFormed s0.cfg (.linePs .value ⟨0, 0, [], [], []⟩) = true ∧
    wellFormed s0.cfg (.lineUnknown .value ⟨ascii "T", ascii "7"⟩) = true := by decide +kernel

/-- The line timestamp at which the clauses on a refused TimeQuery hold. -/
theorem witness_LineTime_outside :
    ({ s0 with lineT := tooBig } : State).phase = .running ∧ s0.cfg.IsQueryLine queryLine ∧
    wellFormed s0.cfg (.lineTq .value query0) = true ∧ (Variant.timeQuery query0).inRange s0.cfg = true ∧
    s0.cfg.inInt (msecMark s0.cfg s0.start tooBig) = false :=
  ⟨rfl, queryLine_isQueryLine, by decide +kernel, by decide +kernel, by decide +kernel⟩

theorem witness_LineProcessAndDispatchComplete :
    s0.phase = .running ∧ s0.cfg.inInt (msecMark s0.cfg s0.start s0.lineT) = true ∧
    (Variant.publish ⟨[], [], tooBig - 1, []⟩).inRange s0.cfg = true ∧
    (Variant.timeQuery ⟨-tooBig, 0, 0, 0⟩).inRange s0.cfg = true ∧
    (Variant.timeReply reply0).inRange s0.cfg = true ∧
    (Variant.profileStart ⟨1, 2, [], [], []⟩).inRange s0.cfg = true := by decide +kernel

/-- One byte short of `json:`, and of `fox:`. -/
theorem witness_SchemaNamesResolveByForm :
    s0.phase = .running ∧
    (ascii "json" ≠ [] ∧ ¬ (ascii "json:" <+: ascii "json") ∧ ¬ (ascii "fox:" <+: ascii "json")) ∧
    (ascii "fox" ≠ [] ∧ ¬ (ascii "json:" <+: ascii "fox") ∧ ¬ (ascii "fox:" <+: ascii "fox")) ∧
    (Variant.publish ⟨[], [], 0, ascii "bogus"⟩).inRange s0.cfg = true := by decide +kernel

theorem witness_DrainReturnsAndEmptiesQueue : s0.phase = .running := rfl

/-- One tick before the scheduled time; and due while the buffer is not empty. -/
theorem witness_NextSendIdleOrGatedChangesNothing :
    s0.phase = .running ∧ (s0.pendV = false ∧ -1 < s0.nextQ) ∧ sPend.phase = .running := by decide

/-- A reply pending while a query is due at exactly the scheduled tick. -/
theorem witness_ReplyIsSentBeforeQuery :
    sPend.phase = .running ∧ sPend.cfg.legal = true ∧ sPend.pendV = true ∧
    sPend.cfg.inInt (msecMark sPend.cfg sPend.start 5000) = true ∧ sPend.nextQ ≤ 5000 ∧
    sPend.cfg.inCalendar 5000 = true := by decide +kernel

/-- No reply pending, a query due at exactly the scheduled tick. -/
theorem witness_ReplyIsSentBeforeQuery_query :
    s0.phase = .running ∧ s0.cfg.legal = true ∧ s0.pendV = false ∧ s0.nextQ ≤ 0 ∧
    s0.cfg.inCalendar 0 = true := by decide +kernel

/-- A mark, and a query time, one tick past its range. -/
theorem witness_NextSendRefusesOnlyOutOfRangeTimes :
    (sPend.phase = .running ∧ sPend.pendV = true ∧
      sPend.cfg.inInt (msecMark sPend.cfg sPend.start tooBig) = false) ∧
    (s0.phase = .running ∧ s0.pendV = false ∧ s0.nextQ ≤ 253402300800000 ∧
      s0.cfg.inCalendar 253402300800000 = false) := by decide +kernel

/-- A state with a reply pending and a message queued that has the invariants. -/
theorem witness_Inv : State.Inv { sPend with mq := [⟨[], [], [], 0, 7⟩] } where
  legal := by decide +kernel
  acc_form := by decide
  pending_form := fun _ => ⟨rfl, rfl, rfl, by decide⟩
  schedule := by decide
  fingerprint := ⟨rfl, rfl⟩
  fingerprint_int := by decide
  queue := by decide
  queue_depth := fun _ h => by cases h

theorem witness_Inv_idle : State.Inv s0 where
  legal := by decide +kernel
  acc_form := by decide
  pending_form := fun h => absurd h (by decide)
  schedule := by decide
  fingerprint := ⟨rfl, rfl⟩
  fingerprint_int := by decide
  queue := by decide
  queue_depth := fun _ h => by cases h

/-- The state NEXT_SEND(2250, 1) of program P3 leaves. -/
def sSent : State :=
  { sPend with
    pendV := false
    out := ⟨.bytes (ascii "TR[20261108,153400250,2000,2250,48879,3]QM9\n"), []⟩ }

theorem witness_send : exec (.nextSend 2250 true) sPend = .next sSent := by
  have h : nextGet id (exec (.nextSend 2250 true) sPend) = some sSent := by decide +kernel
  revert h
  cases exec (.nextSend 2250 true) sPend <;> simp [nextGet]

theorem witness_Inv_pending : State.Inv sPend where
  legal := by decide +kernel
  acc_form := by decide
  pending_form := fun _ => ⟨rfl, rfl, rfl, by decide⟩
  schedule := by decide
  fingerprint := ⟨rfl, rfl⟩
  fingerprint_int := by decide
  queue := by decide
  queue_depth := fun _ h => by cases h

theorem witness_SentLinesParseBackAsTimeSync :
    State.Inv sPend ∧ 29 ≤ sPend.cfg.intW ∧ exec (.nextSend 2250 true) sPend = .next sSent ∧
    sSent.out.result = .bytes (ascii "TR[20261108,153400250,2000,2250,48879,3]QM9\n") :=
  ⟨witness_Inv_pending, by decide, witness_send, rfl⟩

theorem witness_SentLinesAreAtMost133Bytes :
    State.Inv sPend ∧ sPend.cfg = Params.default ∧ exec (.nextSend 2250 true) sPend = .next sSent ∧
    sSent.out.result = .bytes (ascii "TR[20261108,153400250,2000,2250,48879,3]QM9\n") :=
  ⟨witness_Inv_pending, rfl, witness_send, rfl⟩

theorem witness_LoopedBackQuerySetsOwnReply :
    State.Inv s0 ∧ s0.phase = .running ∧ 29 ≤ s0.cfg.intW ∧ s0.cfg.chunkMax = none ∧ s0.acc = [] ∧
    s0.pendV = false ∧ s0.nextQ ≤ 0 ∧ s0.cfg.inCalendar 0 = true ∧
    s0.cfg.inInt (msecMark s0.cfg s0.start 90) = true :=
  ⟨witness_Inv_idle, rfl, by decide, rfl, rfl, rfl, by decide, by decide, by decide +kernel⟩

theorem witness_EmptyPendingSlotIsNotRead :
    s0.pendV = false ∧ exec .drain s0 = .next { s0 with out := ⟨.messages [], []⟩ } := ⟨rfl, rfl⟩

/-- The ends of the INT range. -/
theorem witness_ResetConstructsTheSession :
    s0.cfg.inInt (-tooBig) = true ∧ s0.cfg.inInt (tooBig - 1) = true := by decide

/-- A field with a byte outside B64URL, one of two bytes, a chunk one byte too long, and values just outside the INT
and the calendar range. -/
theorem witness_OperandsOutsideDomainAreRefused :
    s0.phase = .running ∧ (∃ x ∈ ascii "X=b", isB64Url x = false) ∧ (ascii "Xw").length ≠ 3 ∧
    s0.cfg.inInt tooBig = false ∧ s0.cfg.inInt (-tooBig - 1) = false ∧
    (({ s0 with cfg := c4 } : State).cfg.chunkMax = some 4 ∧ 4 < ([1, 2, 3, 4, 5] : Bytes).length) ∧
    (∀ now, Instr.plEnc (.timeQuery ⟨tooBig, 0, 0, 0⟩) ≠ .utcPack now) := by
  refine ⟨rfl, ⟨0x3D, by decide +kernel, by decide⟩, by decide +kernel, by decide, by decide, ⟨rfl, by decide⟩,
    by simp⟩

theorem witness_StepRunsTheDecodedInput :
    ({ s0 with inbox := [.command 1 [] 0 0] } : State).inbox = .command 1 [] 0 0 :: [] ∧
    decode s0.cfg (.port (.command 1 [] 0 0)) = .ok .drain ∧ s0.inbox = [] := by decide

theorem witness_EveryStepKeepsInvariants :
    State.Inv s0 ∧ exec .drain s0 = .next { s0 with out := ⟨.messages [], []⟩ } ∧ step s0 = .next s0 :=
  ⟨witness_Inv_idle, rfl, rfl⟩

theorem witness_StateIsWrittenOnlyByItsOperations :
    sPend.cfg.legal = true ∧ exec (.nextSend 2250 true) sPend = .next sSent ∧
    (∀ t0 a b, Instr.nextSend 2250 true ≠ .reset t0 a b) ∧
    (∀ data w, Instr.nextSend 2250 true ≠ .feed data w) ∧ (∀ now, Instr.nextSend 2250 true ≠ .tsGet now) ∧
    (∀ l, Instr.nextSend 2250 true ≠ .lineSer l) ∧ Instr.nextSend 2250 true ≠ .drain ∧
    ¬ (Instr.nextSend 2250 true).mayFillSlot ∧ ¬ (Instr.nextSend 2250 true).mayEnqueue :=
  ⟨by decide +kernel, witness_send, by simp, by simp, by simp, by simp, by simp, by simp [Instr.mayFillSlot],
    by simp [Instr.mayEnqueue]⟩

/-- DRAIN with a reply pending, for the clauses on the schedule and on a slot that stays full. -/
theorem witness_StateIsWrittenOnlyByItsOperations_drain :
    exec .drain sPend = .next { sPend with out := ⟨.messages [], []⟩ } ∧ sPend.pendV = true ∧
    ¬ Instr.drain.mayEmptySlot ∧ ∀ now, Instr.drain ≠ .nextSend now true :=
  ⟨rfl, rfl, by simp [Instr.mayEmptySlot], by simp⟩

/-- Two bytes before trailing whitespace; a field with `=`; whitespace only before the field; and a line of the
grammar. -/
theorem witness_StructIsExactlyOutsideTheGrammar :
    s0.phase = .running ∧ s0.cfg.legal = true ∧
    ((∀ x ∈ ascii " \r", s0.cfg.isWs x = true) ∧ (ascii "ab").length < 3) ∧
    ((ascii "X=b").length = 3 ∧ ((ascii "X=b").getLast?.all fun x => !s0.cfg.isWs x) = true ∧
      ascii "X=b" ≠ s0.cfg.bypass ∧ ¬ ∀ x ∈ ascii "X=b", isB64Url x = true) ∧
    ((ascii "AAA").length = 3 ∧ ((ascii "AAA").getLast?.all fun x => !s0.cfg.isWs x) = true ∧
      ∀ x ∈ ascii "  ", s0.cfg.isWs x = true) := by decide +kernel

theorem test_lineGrammar : c.LineGrammar (ascii "T 42 al3") :=
  ⟨[], ascii "T", ascii " 42 ", ascii "42", ascii "al3", [], by decide +kernel, by simp, by decide +kernel,
    .inr ⟨ascii " ", ascii " ", by decide +kernel⟩, .inr (by decide +kernel)⟩

/-- MQ_DEPTH = 1 (log 16): a message that finds the queue full is dropped, without an event. -/
theorem test_linePublish_full_queue :
    nextGet (fun s => (s.mq.length, s.out.events)) (exec (.linePublish .value ⟨ascii "t", objA1, 0, []⟩)
      { s0 with cfg := { Params.default with mqDepth := some 1 }, mq := [⟨[], [], [], 0, 0⟩] }) =
      some (1, []) := by decide +kernel

theorem witness_ContractUnreachableFromOutside : State.Inv s0 ∧ s0.phase = .running :=
  ⟨witness_Inv_idle, rfl⟩

end Sys2Proof.Tests
end

/-! ## One step (rules R21, R200, R247) -/

namespace Sys2Proof.Machine

open Sys2Proof

/-- With an input waiting, a step runs what the command port decodes from it. -/
theorem step_of_inbox_cons {s : State} {p : PortInput} {rest : List PortInput} (h : s.inbox = p :: rest) :
    step s = exec (decodePort p) { s with inbox := rest } := by
  simp [step, h]

/-- Without input the block holds its state. -/
theorem step_of_inbox_nil {s : State} (h : s.inbox = []) : step s = .next s := by
  simp [step, h]

/-- A sample of the inputs always decodes, and to one instruction. -/
theorem decode_port_eq_ok {c : Params} {p : PortInput} {i : Instr} :
    decode c (.port p) = .ok i ↔ decodePort p = i := by
  simp [decode]

/-- Settles O55, by the two forms of the inbox. -/
theorem stepRunsTheDecodedInput : Obligations.StepRunsTheDecodedInput := by
  refine ⟨fun s p rest i hin hdec => ?_, fun s hin => step_of_inbox_nil hin⟩
  obtain rfl := decode_port_eq_ok.1 hdec
  exact step_of_inbox_cons hin

end Sys2Proof.Machine

/-! ## MSEC (rules R10, R171) -/

namespace Sys2Proof

/-- Rounding half to even is floor division or one more: the nearer of the two, and between two equally near ones
the even one (rule R10). -/
theorem roundHalfEven_cases (num den : Int) :
    (roundHalfEven num den = num / den ∧ 2 * (num % den) ≤ den ∧
      (2 * (num % den) = den → num / den % 2 = 0)) ∨
    (roundHalfEven num den = num / den + 1 ∧ den ≤ 2 * (num % den) ∧
      (2 * (num % den) = den → (num / den + 1) % 2 = 0)) := by
  unfold roundHalfEven
  dsimp only
  split
  · left; omega
  · split
    · right; omega
    · split
      · left; omega
      · right; omega

/-- The rounded quotient is nearest to the exact one, and even on a tie (rule R10). -/
theorem roundHalfEven_nearest_even {num den : Int} (hden : 0 < den) :
    2 * |num - roundHalfEven num den * den| ≤ den ∧
      (2 * |num - roundHalfEven num den * den| = den → roundHalfEven num den % 2 = 0) := by
  have hnonneg : 0 ≤ num % den := Int.emod_nonneg num hden.ne'
  have hlt : num % den < den := Int.emod_lt_of_pos num hden
  have hfloor : num - num / den * den = num % den := by rw [Int.emod_def, mul_comm]
  have hsucc : num - (num / den + 1) * den = num % den - den := by rw [add_one_mul, ← sub_sub, hfloor]
  rcases roundHalfEven_cases num den with ⟨hq, hnear, heven⟩ | ⟨hq, hnear, heven⟩
  · rw [hq, hfloor, abs_of_nonneg hnonneg]
    exact ⟨hnear, heven⟩
  · rw [hq, hsucc, abs_of_nonpos (by omega)]
    exact ⟨by omega, fun h => heven (by omega)⟩

end Sys2Proof

namespace Sys2Proof.Machine

open Sys2Proof

theorem State.mark_of_not_inInt {s : State} {t : Time} (h : s.cfg.inInt (msecMark s.cfg s.start t) = false) :
    s.mark t = .refused .markOutsideInt := by
  simp [State.mark, h]

/-- MSEC of a running block answers the mark, or the refusal of it (rule R171). -/
theorem exec_msec_of_running {s : State} (hr : s.phase = .running) (t : Time) :
    exec (.msec t) s = (s.begin.mark t).andThen fun m => answer s.begin (.int m) :=
  whenRunning_of_running (fun s => (s.mark t).andThen fun m => answer s (.int m)) hr

/-- Settles O26: the mark is `roundHalfEven` of the quotient, which is the nearest integer. -/
theorem msecRoundsHalfEven : Obligations.MsecRoundsHalfEven := by
  intro s t hr htps
  obtain ⟨hnear, heven⟩ :=
    roundHalfEven_nearest_even (num := (t - s.start) * 1000) (den := s.cfg.tps) (by omega)
  refine ⟨msecMark s.cfg s.start t, hnear, heven, fun hin => ?_, fun hout => ?_⟩
  · rw [exec_msec_of_running hr, State.mark_of_inInt (s := s.begin) hin]
    rfl
  · rw [exec_msec_of_running hr, State.mark_of_not_inInt (s := s.begin) hout]
    rfl

end Sys2Proof.Machine

/-! ## Refusals (rule R11, log 13)

A running operation is refused by one of three guards: the check of its operand (`inDomain`, and CK_DEC's own), the
range of a mark, the range of the calendar. What stands behind the operand check never refuses for the operand. -/

namespace Sys2Proof.Machine

open Sys2Proof

/-! ### What each shared operation can be refused for -/

@[simp] theorem answer_ne_refused {s : State} {r : Result} {why : Refusal} : answer s r ≠ .refused why := nofun

@[simp] theorem done_ne_refused {s : State} {why : Refusal} : done s ≠ .refused why := nofun

theorem State.mark_refused {s : State} {t : Time} {why : Refusal} (h : s.mark t = .refused why) :
    why = .markOutsideInt := by
  unfold State.mark at h
  split at h
  · cases h
  · cases h; rfl

theorem stampOf_eq_refused {c : Params} {now : Time} {why : Refusal} :
    stampOf c now = .refused why ↔ c.inCalendar now = false ∧ why = .timeOutsideCalendar := by
  unfold stampOf
  split
  · rename_i hin; simp [hin]
  · rename_i hout; simp [hout, eq_comm]

theorem State.tsOnq_refused {s : State} {q : TimeQuery} {w : Time} {why : Refusal}
    (h : s.tsOnq q w = .refused why) : why = .markOutsideInt := by
  rcases Ans.andThen_eq_refused.1 h with hmark | ⟨_, -, hset⟩
  · exact State.mark_refused hmark
  · cases hset

/-- TS_GET is refused for the mark of a reply or the stamp of a query only (rules R171, R172). -/
theorem State.tsGet_refused {s : State} {now : Time} {why : Refusal} (h : s.tsGet now = .refused why) :
    why = .markOutsideInt ∨ why = .timeOutsideCalendar := by
  unfold State.tsGet at h
  split at h
  · rcases Ans.andThen_eq_refused.1 h with hmark | ⟨_, -, hreply⟩
    · exact .inl (State.mark_refused hmark)
    · cases hreply
  · split at h
    · rcases Ans.andThen_eq_refused.1 h with hstamp | ⟨_, -, hquery⟩
      · exact .inr (stampOf_eq_refused.1 hstamp).2
      · cases hquery
    · cases h

/-- NEXT_SEND is refused where the TS_GET it calls is (rule R211). -/
theorem State.nextSend_refused {s : State} {now : Time} {e : Bool} {why : Refusal}
    (h : s.nextSend now e = .refused why) : s.tsGet now = .refused why := by
  unfold State.nextSend at h
  split at h
  · cases h
  · split at h
    · cases h
    · rcases Ans.andThen_eq_refused.1 h with hget | ⟨⟨v, s'⟩, -, hsend⟩
      · exact hget
      · cases v <;> cases hsend

/-! ### The operand check -/

/-- An operation without an operand check is not refused for its operand. -/
theorem whenRunning_refused_operand_of_unguarded {s : State} {k : State → Ans State} (hr : s.phase = .running)
    (hk : k s.begin ≠ .refused .operandOutsideDomain) :
    whenRunning s k = .refused .operandOutsideDomain ↔ true = false := by
  rw [whenRunning_of_running k hr]
  exact iff_of_false hk (by decide)

theorem inDomain_refused_operand {ok : Bool} {k : Ans State} (hk : k ≠ .refused .operandOutsideDomain) :
    inDomain ok k = .refused .operandOutsideDomain ↔ ok = false := by
  cases ok
  · exact iff_of_true rfl rfl
  · exact iff_of_false hk (by decide)

/-- An operation behind an operand check is refused for its operand exactly where the check fails. -/
theorem whenRunning_refused_operand_of_guarded {s : State} {ok : State → Bool} {k : State → Ans State}
    (hr : s.phase = .running) (hk : k s.begin ≠ .refused .operandOutsideDomain) :
    whenRunning s (fun s => inDomain (ok s) (k s)) = .refused .operandOutsideDomain ↔ ok s.begin = false := by
  rw [whenRunning_of_running _ hr]
  exact inDomain_refused_operand hk

theorem State.dispatch_ne_refused_operand {s : State} {v : Variant} :
    s.dispatch v ≠ .refused .operandOutsideDomain :=
  fun h => nomatch State.dispatch_refused h

theorem State.tsGet_ne_refused_operand {s : State} {now : Time} :
    s.tsGet now ≠ .refused .operandOutsideDomain :=
  fun h => by rcases State.tsGet_refused h with h | h <;> cases h

/-- CK_DEC is refused exactly where the field has no value (rule R103). -/
theorem exec_ckDec_refused_operand {s : State} (hr : s.phase = .running) (f : Bytes) :
    exec (.ckDec f) s = .refused .operandOutsideDomain ↔ (ckDec s.cfg f).isSome = false := by
  rw [exec, execCkDec, whenRunning_of_running _ hr, State.begin_cfg]
  cases ckDec s.cfg f <;> simp

/-- CK_VERIFY has the domain of CK_DEC (rule R104). -/
theorem exec_ckVerify_refused_operand {s : State} (hr : s.phase = .running) (span f : Bytes) :
    exec (.ckVerify span f) s = .refused .operandOutsideDomain ↔ (ckDec s.cfg f).isSome = false := by
  rw [exec, execCkVerify, whenRunning_of_running _ hr, State.begin_cfg, ckVerify]
  cases ckDec s.cfg f <;> simp

/-- Every row but UTC_PACK is refused for its operand exactly where the operand is not well-formed. -/
theorem exec_refused_operand_iff {s : State} (hr : s.phase = .running) (i : Instr)
    (hi : ∀ now, i ≠ .utcPack now) :
    exec i s = .refused .operandOutsideDomain ↔ wellFormed s.cfg i = false := by
  unfold exec
  cases i with
  | utcPack now => exact absurd rfl (hi now)
  | reservedOp3 => exact iff_of_false nofun nofun
  | reset t0 profileId profileLen => exact inDomain_refused_operand done_ne_refused
  | ckDec f => exact exec_ckDec_refused_operand hr f
  | ckVerify span f => exact exec_ckVerify_refused_operand hr span f
  -- behind an operand check
  | feed data w =>
    exact whenRunning_refused_operand_of_guarded hr fun h => nomatch State.feed_refused h
  | linePublish ck p => exact whenRunning_refused_operand_of_guarded hr State.dispatch_ne_refused_operand
  | lineTq ck q => exact whenRunning_refused_operand_of_guarded hr State.dispatch_ne_refused_operand
  | lineTr ck r => exact whenRunning_refused_operand_of_guarded hr State.dispatch_ne_refused_operand
  | linePs ck p => exact whenRunning_refused_operand_of_guarded hr State.dispatch_ne_refused_operand
  | dispatch v => exact whenRunning_refused_operand_of_guarded hr State.dispatch_ne_refused_operand
  | lineUnknown ck l => exact whenRunning_refused_operand_of_guarded hr done_ne_refused
  | lineSer l => exact whenRunning_refused_operand_of_guarded hr done_ne_refused
  | plEnc v => exact whenRunning_refused_operand_of_guarded hr answer_ne_refused
  | encInt v => exact whenRunning_refused_operand_of_guarded hr answer_ne_refused
  | decStr e => exact whenRunning_refused_operand_of_guarded hr answer_ne_refused
  | mkMsg p => exact whenRunning_refused_operand_of_guarded hr answer_ne_refused
  | tsOnq q w =>
    exact whenRunning_refused_operand_of_guarded hr fun h => nomatch State.tsOnq_refused h
  | tsOnr r w => exact whenRunning_refused_operand_of_guarded hr nofun
  -- defined on every operand, but for the range of a mark or a stamp
  | msec t =>
    refine whenRunning_refused_operand_of_unguarded hr fun h => ?_
    rcases Ans.andThen_eq_refused.1 h with hmark | ⟨_, -, hans⟩
    · cases State.mark_refused hmark
    · cases hans
  | tsGet now =>
    refine whenRunning_refused_operand_of_unguarded hr fun h => ?_
    rcases Ans.andThen_eq_refused.1 h with hget | ⟨_, -, hans⟩
    · exact State.tsGet_ne_refused_operand hget
    · cases hans
  | nextSend now e =>
    exact whenRunning_refused_operand_of_unguarded hr fun h =>
      State.tsGet_ne_refused_operand (State.nextSend_refused h)
  | lineProcess b =>
    exact whenRunning_refused_operand_of_unguarded hr fun h => nomatch State.lineProcess_refused h
  -- defined on every operand
  | drain | ckfieldValue | ckfieldBypass | crc18 | ckEnc | lineParse | plDec | splitArray | decInt | encStr
  | encRaw | decRaw | tsHas | schemaLookup | schemaResolve =>
    exact whenRunning_refused_operand_of_unguarded hr answer_ne_refused

/-! ### The stated domains -/

/-- Outside three bytes of B64URL a checksum field has no value (rule R103). -/
theorem ckDec_isSome_eq_false {c : Params} {f : Bytes}
    (h : f.length ≠ 3 ∨ ∃ x ∈ f, isB64Url x = false) : (ckDec c f).isSome = false := by
  rw [← Bool.not_eq_true, ckDec_isSome, List.all_eq_true]
  rintro ⟨hlen, hall⟩
  rcases h with h | ⟨x, hx, hb⟩
  · exact h hlen
  · simp [hall x hx] at hb

theorem Params.inCalendar_eq_false {c : Params} {now : Time} :
    c.inCalendar now = false ↔ now < 0 ∨ 253402300800 * (c.tps : Int) ≤ now := by
  simp only [Params.inCalendar, Bool.and_eq_false_iff, decide_eq_false_iff_not, not_le, not_lt]

theorem Params.chunkOk_eq_false {c : Params} {data : Bytes} {m : Nat} (hm : c.chunkMax = some m)
    (hlen : m < data.length) : c.chunkOk data = false := by
  simpa [Params.chunkOk, hm] using hlen

/-- UTC_PACK is refused, under a name of its own, exactly outside the calendar (rule R172). -/
theorem exec_utcPack_refused_calendar {s : State} (hr : s.phase = .running) (now : Time) :
    exec (.utcPack now) s = .refused .timeOutsideCalendar ↔ s.cfg.inCalendar now = false := by
  rw [exec, execUtcPack, whenRunning_of_running _ hr, Ans.andThen_eq_refused, stampOf_eq_refused]
  simp

/-- Settles O53, by the case split over the rows in `exec_refused_operand_iff`. -/
theorem operandsOutsideDomainAreRefused : Obligations.OperandsOutsideDomainAreRefused := by
  intro s hr
  have refused : ∀ i : Instr, (∀ now, i ≠ .utcPack now) → wellFormed s.cfg i = false →
      exec i s = .refused .operandOutsideDomain := fun i hi => (exec_refused_operand_iff hr i hi).2
  refine ⟨exec_refused_operand_iff hr, fun now => ?utcPack, fun f hf => ⟨?ckDec, fun span => ?ckVerify⟩,
    fun p => ?lineSer, fun v hv => ?encInt, fun data w m hm hlen => ?feed, fun t0 id len h => ?reset⟩
  case utcPack => exact (exec_utcPack_refused_calendar hr now).trans Params.inCalendar_eq_false
  case ckDec => exact refused _ nofun (ckDec_isSome_eq_false hf)
  case ckVerify => exact refused _ nofun (ckDec_isSome_eq_false hf)
  case lineSer => exact refused _ nofun rfl
  case encInt => exact refused _ nofun hv
  case feed => exact refused _ nofun (Params.chunkOk_eq_false hm hlen)
  case reset => exact refused _ nofun (Bool.and_eq_false_iff.2 h)

end Sys2Proof.Machine

/-! ## What PL_DEC yields (rules R82, R84, R142)

A decoded value is read through its list of fields: each is the decoded text of one element of the payload array, or
the default of a field that was left out. -/

namespace Sys2Proof

theorem Variant.inRange_iff {c : Params} {v : Variant} :
    v.inRange c = true ↔ ∀ n, FieldValue.int n ∈ v.values → c.inInt n = true := by
  simp only [Variant.inRange, List.all_eq_true]
  refine ⟨fun h n hn => h _ hn, fun h fv hfv => ?_⟩
  cases fv with
  | int n => exact h n hfv
  | str b | raw b => rfl

theorem Variant.rawContract_iff {c : Params} {v : Variant} :
    v.rawContract c = true ↔ ∀ b, FieldValue.raw b ∈ v.values → c.isElement b = true ∧ c.nl ∉ b := by
  simp only [Variant.rawContract, List.all_eq_true]
  constructor
  · intro h b hb
    obtain ⟨helem, hnl⟩ := Bool.and_eq_true_iff.1 (h _ hb)
    refine ⟨helem, fun hmem => ?_⟩
    simpa using List.all_eq_true.1 hnl _ hmem
  · intro h fv hfv
    cases fv with
    | int n | str b => rfl
    | raw b =>
      obtain ⟨helem, hnl⟩ := h b hfv
      refine Bool.and_eq_true_iff.2 ⟨helem, List.all_eq_true.2 fun x hx => ?_⟩
      simpa using fun e : x = c.nl => hnl (e ▸ hx)

/-- Zero is an INT of every width (rule R10). -/
@[simp] theorem Params.inInt_zero (c : Params) : c.inInt 0 = true := by
  simp [Params.inInt]

/-- DEC_INT yields values in the INT range only (rule R145). -/
theorem inInt_of_decInt {c : Params} {e : Bytes} {n : Int} (h : decInt c e = some n) : c.inInt n = true := by
  obtain ⟨v, -, hv⟩ := Option.bind_eq_some_iff.1 h
  split at hv
  · rename_i hin
    cases hv
    exact hin
  · cases hv

/-- A decoded field is the text of an element, or a default (rule R142). -/
theorem mem_of_decFields {c : Params} {fv : FieldValue} :
    ∀ {fs : List FieldDesc} {els : List Bytes} {vs : List FieldValue}, decFields c fs els = some vs → fv ∈ vs →
      (∃ f ∈ fs, f.dflt = some fv) ∨ ∃ f ∈ fs, ∃ e ∈ els, decField c f.ty e = some fv := by
  intro fs
  induction fs with
  | nil =>
    intro els vs h hfv
    cases els with
    | nil => cases h; cases hfv
    | cons e es => cases h
  | cons f fs ih =>
    intro els vs h hfv
    cases els with
    | nil =>
      simp only [decFields] at h
      split at h
      · cases h
      · rename_i v hv
        obtain ⟨ws, hws, rfl⟩ := Option.map_eq_some_iff.1 h
        rcases List.mem_cons.1 hfv with rfl | hmem
        · exact .inl ⟨f, by simp, hv⟩
        · rcases ih hws hmem with ⟨g, hg, hd⟩ | ⟨_, _, _, he, _⟩
          · exact .inl ⟨g, by simp [hg], hd⟩
          · cases he
    | cons e es =>
      simp only [decFields] at h
      split at h
      · cases h
      · rename_i v hv
        obtain ⟨ws, hws, rfl⟩ := Option.map_eq_some_iff.1 h
        rcases List.mem_cons.1 hfv with rfl | hmem
        · exact .inr ⟨f, by simp, e, by simp, hv⟩
        · rcases ih hws hmem with ⟨g, hg, hd⟩ | ⟨g, hg, a, ha, hd⟩
          · exact .inl ⟨g, by simp [hg], hd⟩
          · exact .inr ⟨g, by simp [hg], a, by simp [ha], hd⟩

/-- The defaults of the four descriptors are zero and the empty string (rules R87 to R90). -/
theorem registry_dflt {c : Params} {d : Descriptor} (hd : d ∈ registry c) {f : FieldDesc} (hf : f ∈ d.fields)
    {fv : FieldValue} (h : f.dflt = some fv) : fv = .int 0 ∨ fv = .str [] := by
  revert f fv
  simp only [registry, List.mem_cons, List.not_mem_nil, or_false] at hd
  rcases hd with rfl | rfl | rfl | rfl <;>
    simp [publishDescriptor, timeQueryDescriptor, timeReplyDescriptor, profileStartDescriptor, eq_comm]

/-- A value built from a list of fields has those fields. -/
theorem values_of_variantOfValues {name : VariantName} {vs : List FieldValue} {v : Variant}
    (h : variantOfValues name vs = some v) : v.values = vs := by
  unfold variantOfValues at h
  split at h <;> cases h <;> rfl

/-- A field of a decoded value is the decoded text of an element of the payload, or zero, or empty. -/
theorem field_of_plDec_known {c : Params} {l : Line} {v : Variant} (h : plDec c l = .known v) {fv : FieldValue}
    (hfv : fv ∈ v.values) :
    fv = .int 0 ∨ fv = .str [] ∨
      ∃ els, splitArray c l.payload = some els ∧ ∃ ty, ∃ e ∈ els, decField c ty e = some fv := by
  obtain ⟨d, els, vs, hfind, hsplit, hdec, hval⟩ := plDec_eq_known h
  rw [values_of_variantOfValues hval] at hfv
  rcases mem_of_decFields hdec hfv with ⟨f, hf, hd⟩ | ⟨f, -, e, he, hd⟩
  · rcases registry_dflt (findDescriptor_eq_some hfind).1 hf hd with h0 | h0
    · exact .inl h0
    · exact .inr (.inl h0)
  · exact .inr (.inr ⟨els, hsplit, f.ty, e, he, hd⟩)

theorem decField_eq_int {c : Params} {ty : FieldType} {e : Bytes} {n : Int}
    (h : decField c ty e = some (.int n)) : decInt c e = some n := by
  cases ty with
  | int => simpa [decField] using h
  | str | raw => simp [decField] at h

theorem decField_eq_raw {c : Params} {ty : FieldType} {e b : Bytes} (h : decField c ty e = some (.raw b)) :
    b = e := by
  cases ty with
  | raw => simpa [decField, decRaw, eq_comm] using h
  | int | str => simp [decField] at h

/-- The INT fields of a decoded value are in the INT range (rule R142). -/
theorem plDec_known_inRange {c : Params} {l : Line} {v : Variant} (h : plDec c l = .known v) :
    v.inRange c = true := by
  refine Variant.inRange_iff.2 fun n hn => ?_
  rcases field_of_plDec_known h hn with h0 | h0 | ⟨_, -, _, _, -, hdec⟩
  · cases h0; exact c.inInt_zero
  · cases h0
  · exact inInt_of_decInt (decField_eq_int hdec)

end Sys2Proof

/-! ## What an operation can write (rules R22 to R29, R37)

An operation is a sequence of elementary writes, and which of them it may make depends on its row. The invariants and
the write sets of the elements are proved once for each elementary write. -/

namespace Sys2Proof.Machine

open Sys2Proof

/-- A sequence of the elementary writes that the operation `i` may make. -/
inductive Writes (i : Instr) : State → State → Prop where
  /-- the result and the events (rule R35) -/
  | output (s : State) (o : Output) : Writes i s { s with out := o }
  /-- the line timestamp and the accumulator, whose form is kept (rules R202 to R204) -/
  | receive (s : State) (w : Time) (a : Bytes) (hi : ∃ data w, i = .feed data w)
      (ha : s.cfg.legal = true → Memory.wf s.cfg s.acc = true → Memory.wf s.cfg a = true) :
      Writes i s { s with lineT := w, acc := a }
  /-- the pending slot, filled (rule R178) -/
  | fillSlot (s : State) (q : TimeQuery) (rx : Int) (hi : i.mayFillSlot)
      (hq : (Variant.timeQuery q).inRange s.cfg = true) (hrx : s.cfg.inInt rx = true) :
      Writes i s (s.setPending ⟨q.yyyymmdd, q.hhmmssmmm, rx, 0, s.fpId, s.fpLen⟩)
  /-- the pending slot, emptied (rule R174) -/
  | emptySlot (s : State) (hi : i.mayEmptySlot) : Writes i s s.clearPending
  /-- the schedule, after a query (rule R175) -/
  | reschedule (s : State) (now : Time) (hi : i.mayEmptySlot) :
      Writes i s (s.schedule (slipLimited s.cfg s.nextQ now))
  /-- the queue, appended to (rule R206) -/
  | enqueue (s : State) (p : Publish) (hi : i.mayEnqueue) (hp : (Variant.publish p).inRange s.cfg = true) :
      Writes i s (s.enqueue (mkMsg Config.schemaLookup p))
  /-- the queue, emptied (rule R210) -/
  | emptyQueue (s : State) (hi : i = .drain) : Writes i s s.emptyQueue
  /-- the CONTRACT fault (rule R235) -/
  | contract (s : State) (p : Bytes) (hi : ∃ l, i = .lineSer l) : Writes i s (s.takeContract p)
  /-- RESET (rule R260) -/
  | construct (s : State) (t0 : Time) (id len : Int) (hi : i = .reset t0 id len)
      (hid : s.cfg.inInt id = true) (hlen : s.cfg.inInt len = true) : Writes i s (s.construct t0 id len)
  /-- one after the other -/
  | trans {s u t : State} : Writes i s u → Writes i u t → Writes i s t

/-! ### The shared operations -/

section Shared

variable {i : Instr} {s t : State}

theorem Writes.refl (s : State) : Writes i s s := .output s s.out

theorem answer_writes {r : Result} (h : answer s r = .next t) : Writes i s t := by
  rw [answer_eq_next.1 h]
  exact .output s _

theorem done_writes {u : State} (hu : Writes i s u) (h : done u = .next t) : Writes i s t := by
  rwa [done_eq_next.1 h]

theorem andThen_answer_writes {α : Type} {o : Ans α} {r : α → Result}
    (h : (o.andThen fun a => answer s (r a)) = .next t) : Writes i s t := by
  obtain ⟨a, -, ha⟩ := Ans.andThen_eq_next.1 h
  exact answer_writes ha

theorem inDomain_writes {ok : Bool} {k : Ans State} (hk : ok = true → k = .next t → Writes i s t)
    (h : inDomain ok k = .next t) : Writes i s t := by
  obtain ⟨hok, hn⟩ := inDomain_eq_next.1 h
  exact hk hok hn

theorem whenRunning_writes {k : State → Ans State} (h : whenRunning s k = .next t)
    (hk : k s.begin = .next t → Writes i s.begin t) : Writes i s t :=
  .trans (.output s _) (hk (whenRunning_eq_next.1 h).2)

theorem tsOnq_writes {q : TimeQuery} {w : Time} (hi : i.mayFillSlot)
    (hq : (Variant.timeQuery q).inRange s.cfg = true) (h : s.tsOnq q w = .next t) : Writes i s t := by
  obtain ⟨hrx, rfl⟩ := State.tsOnq_eq_next.1 h
  exact .fillSlot s q _ hi hq hrx

/-- DISPATCH fills the slot for a TimeQuery, enqueues a Publish, and writes no other state (rule R206). -/
theorem dispatch_writes {v : Variant} (hv : v.inRange s.cfg = true) (hq : ∀ q, v = .timeQuery q → i.mayFillSlot)
    (hp : ∀ p, v = .publish p → i.mayEnqueue) (h : s.dispatch v = .next t) : Writes i s t := by
  rcases State.dispatch_eq_next h with ⟨q, rfl, hrx, rfl⟩ | ⟨_, -, rfl⟩ | ⟨p, rfl, rfl⟩ | ⟨_, -, rfl⟩
  · exact .fillSlot s q _ (hq q rfl) hv hrx
  · exact .refl _
  · exact .enqueue s p (hp p rfl) hv
  · exact .output s _

theorem lineProcess_writes {b : Bytes} (hq : i.mayFillSlot) (hp : i.mayEnqueue)
    (h : s.lineProcess b = .next t) : Writes i s t := by
  rcases s.lineProcess_cases b with ⟨e, -, he⟩ | ⟨_, _, v, -, hknown, hd⟩
  · rw [he] at h
    cases h
    exact .output s _
  · exact dispatch_writes (plDec_known_inRange hknown) (fun _ _ => hq) (fun _ _ => hp) (hd ▸ h)

/-- TS_GET empties a full slot or, the slot being empty, puts off the schedule (rules R174 to R176). -/
theorem tsGet_writes {now : Time} {r : Option Variant × State} (hi : i.mayEmptySlot)
    (h : s.tsGet now = .next r) : Writes i s r.2 := by
  rcases State.tsGet_eq_next.1 h with ⟨-, -, rfl⟩ | ⟨-, -, -, rfl⟩ | ⟨-, -, rfl⟩
  · exact .emptySlot s hi
  · exact .reschedule s now hi
  · exact .refl s

theorem nextSend_writes {now : Time} {e : Bool} (hl : s.cfg.legal = true)
    (hi : e = true → i.mayEmptySlot) (h : s.nextSend now e = .next t) : Writes i s t := by
  rcases State.nextSend_eq_next hl h with rfl | ⟨v, s', hget, he, rfl⟩
  · exact .output s _
  · exact .trans (tsGet_writes (hi he) hget) (.output s' _)

theorem serialize_writes {l : Line} {term : Bytes} (hi : ∃ l, i = .lineSer l) :
    Writes i s (s.serialize l term) := by
  unfold State.serialize
  split
  · exact .output s _
  · exact .contract s _ hi

end Shared

/-! ### FEED -/

section Feed

variable {i : Instr} {s t : State}

theorem State.stampLine_cases (s : State) (w : Time) :
    (s.acc = [] ∧ s.stampLine w = s.setLineT w) ∨ (s.acc ≠ [] ∧ s.stampLine w = s) := by
  by_cases h : s.acc = [] <;> simp [State.stampLine, h]

theorem stampLine_writes (hi : ∃ data w, i = .feed data w) (w : Time) : Writes i s (s.stampLine w) := by
  rcases s.stampLine_cases w with ⟨-, h⟩ | ⟨-, h⟩ <;> rw [h]
  · exact .receive s w s.acc hi fun _ hm => hm
  · exact .refl s

theorem accClear_writes (hi : ∃ data w, i = .feed data w) : Writes i s s.accClear :=
  .receive s s.lineT [] hi fun hl _ => Memory.wf_nil (legal_accMax hl)

theorem feedLine_writes {data : Bytes} {w w' : Time} {part : Bytes} (h : s.feedLine w part = .next t) :
    Writes (.feed data w') s t :=
  have hi : ∃ d v, Instr.feed data w' = .feed d v := ⟨_, _, rfl⟩
  .trans (stampLine_writes hi w) <| .trans (accClear_writes hi) <|
    lineProcess_writes (.inr (.inr (.inr (.inr hi)))) (.inr (.inr (.inr hi))) h

/-- What the tail of a chunk does: nothing, or it is appended, or it overflows the accumulator (rule R204). -/
theorem State.feedTail_cases (s : State) (w : Time) (tail : Bytes) :
    s.feedTail w tail = s ∨
    s.feedTail w tail = (s.stampLine w).accAppend tail ∨
    ∃ n, s.feedTail w tail = (s.stampLine w).accClear.emit (.overflow n) := by
  unfold State.feedTail
  split
  · exact .inl rfl
  · unfold State.checkOverflow
    split
    · exact .inr (.inr ⟨_, rfl⟩)
    · exact .inr (.inl rfl)

theorem feedTail_writes (hi : ∃ data w, i = .feed data w) (w : Time) {tail : Bytes} (hnl : s.cfg.nl ∉ tail) :
    Writes i s (s.feedTail w tail) := by
  have hwf : s.cfg.legal = true → Memory.wf s.cfg s.acc = true → Memory.wf s.cfg (s.feedTail w tail).acc = true :=
    fun hl hm => State.feedTail_wf hl hm hnl
  rcases s.feedTail_cases w tail with h | h | ⟨n, h⟩ <;> rw [h] at hwf ⊢
  · exact .refl s
  · exact .trans (stampLine_writes hi w)
      (.receive _ (s.stampLine w).lineT _ hi (by simpa using hwf))
  · exact .trans (stampLine_writes hi w) (.trans (accClear_writes hi) (.output _ _))

theorem feed_writes {data : Bytes} {w : Time} (h : s.feed data w = .next t) : Writes (.feed data w) s t := by
  obtain ⟨u, hu, rfl⟩ := State.feed_eq_next.1 h
  have hlines : Writes (.feed data w) s u ∧ u.cfg = s.cfg :=
    State.feedLines_induct (R := fun a b => Writes (.feed data w) a b ∧ b.cfg = a.cfg)
      (fun a => ⟨.refl a, rfl⟩)
      (fun _ _ _ ⟨hab, hab'⟩ ⟨hbc, hbc'⟩ => ⟨.trans hab hbc, hbc'.trans hab'⟩)
      (fun _ _ _ _ hline => ⟨feedLine_writes hline, (State.feedLine_acc_cfg hline).2⟩) hu
  have hnl : u.cfg.nl ∉ (splitLines s.cfg.nl data).2 := by
    rw [hlines.2]
    exact splitLines_tail_no_nl s.cfg.nl data
  exact .trans hlines.1 (feedTail_writes ⟨_, _, rfl⟩ w hnl)

end Feed

/-! ### Every row -/

/-- Every operation is a sequence of the writes its row may make. -/
theorem exec_writes {i : Instr} {s t : State} (hl : s.cfg.legal = true) (h : exec i s = .next t) :
    Writes i s t := by
  unfold exec at h
  cases i with
  | feed data w => exact whenRunning_writes h (inDomain_writes fun _ => feed_writes)
  | drain => exact whenRunning_writes h fun h => .trans (.emptyQueue _ rfl) (answer_writes h)
  | nextSend now e => exact whenRunning_writes h (nextSend_writes hl fun he => .inr ⟨now, by rw [he]⟩)
  | reservedOp3 => cases h
  | reset t0 id len =>
    refine inDomain_writes (fun hok => ?_) h
    obtain ⟨hid, hlen⟩ := Bool.and_eq_true_iff.1 hok
    exact done_writes (.construct s t0 id len rfl hid hlen)
  -- a received value
  | linePublish ck p =>
    exact whenRunning_writes h (inDomain_writes fun hok => dispatch_writes (Bool.and_eq_true_iff.1 hok).1
      (fun _ => nofun) fun _ _ => .inl ⟨ck, p, rfl⟩)
  | lineTq ck q =>
    exact whenRunning_writes h (inDomain_writes fun hok => dispatch_writes hok
      (fun _ _ => .inr (.inl ⟨ck, q, rfl⟩)) fun _ => nofun)
  | lineTr ck r =>
    exact whenRunning_writes h (inDomain_writes fun hok => dispatch_writes hok (fun _ => nofun) fun _ => nofun)
  | linePs ck p =>
    exact whenRunning_writes h (inDomain_writes fun hok => dispatch_writes hok (fun _ => nofun) fun _ => nofun)
  | lineUnknown ck l => exact whenRunning_writes h (inDomain_writes fun _ => done_writes (.output _ _))
  | lineProcess b =>
    exact whenRunning_writes h (lineProcess_writes (.inr (.inr (.inr (.inl ⟨b, rfl⟩))))
      (.inr (.inr (.inl ⟨b, rfl⟩))))
  | dispatch v =>
    exact whenRunning_writes h (inDomain_writes fun hok => dispatch_writes hok
      (fun q hq => .inr (.inr (.inl ⟨q, congrArg _ hq⟩))) fun p hp => .inr (.inl ⟨p, congrArg _ hp⟩))
  | tsOnq q w => exact whenRunning_writes h (inDomain_writes fun hok => tsOnq_writes (.inl ⟨q, w, rfl⟩) hok)
  | tsOnr r w => exact whenRunning_writes h (inDomain_writes fun _ h => done_writes (.refl _) h)
  -- a value to send
  | tsGet now =>
    refine whenRunning_writes h fun h => ?_
    obtain ⟨r, hget, hans⟩ := Ans.andThen_eq_next.1 h
    exact .trans (tsGet_writes (.inl ⟨now, rfl⟩) hget) (answer_writes hans)
  | lineSer l =>
    exact whenRunning_writes h (inDomain_writes fun _ => done_writes (serialize_writes ⟨l, rfl⟩))
  -- a result and nothing else
  | msec | utcPack => exact whenRunning_writes h andThen_answer_writes
  | plEnc | encInt | decStr | mkMsg => exact whenRunning_writes h (inDomain_writes fun _ => answer_writes)
  | ckDec | ckVerify =>
    refine whenRunning_writes h fun h => ?_
    split at h
    · exact answer_writes h
    · cases h
  | ckfieldValue | ckfieldBypass | crc18 | ckEnc | lineParse | plDec | splitArray | decInt | encStr | encRaw
  | decRaw | tsHas | schemaLookup | schemaResolve => exact whenRunning_writes h answer_writes

end Sys2Proof.Machine

/-! ### The invariants (rule R37) -/

namespace Sys2Proof.Machine

open Sys2Proof

/-- A slot filled from a query has the form of a pending reply (rule R178). -/
theorem setPending_pendingForm {s : State} {q : TimeQuery} {rx : Int} (hs : s.Inv)
    (hq : (Variant.timeQuery q).inRange s.cfg = true) (hrx : s.cfg.inInt rx = true) :
    (s.setPending ⟨q.yyyymmdd, q.hhmmssmmm, rx, 0, s.fpId, s.fpLen⟩).pendingForm := by
  refine ⟨rfl, rfl, rfl, ?_⟩
  obtain ⟨hid, hlen⟩ := hs.fingerprint_int
  rw [Variant.inRange_iff] at hq ⊢
  simp only [Variant.values, List.mem_cons, List.not_mem_nil, or_false, FieldValue.int.injEq,
    forall_eq_or_imp, forall_eq] at hq ⊢
  exact ⟨hq.1, hq.2.1, hrx, by simp, hid, hlen⟩

/-- A queue with a new message keeps the form of its messages and its depth (rules R24, R33). -/
theorem enqueue_inv {s : State} {p : Publish} (hs : s.Inv) (hp : (Variant.publish p).inRange s.cfg = true) :
    (s.enqueue (mkMsg Config.schemaLookup p)).Inv := by
  refine { hs with queue := fun m hm => ?_, queue_depth := fun d hd => ?_ }
  · have hmsec : s.cfg.inInt p.msec = true := Variant.inRange_iff.1 hp _ (by simp [Variant.values])
    rcases s.cfg.pushQueue_cases s.mq (mkMsg Config.schemaLookup p) with ⟨-, hq⟩ | ⟨-, hq⟩
    · rw [State.enqueue_mq, hq, List.mem_append, List.mem_singleton] at hm
      rcases hm with hm | rfl
      · exact hs.queue m hm
      · exact ⟨rfl, hmsec⟩
    · rw [State.enqueue_mq, hq] at hm
      exact hs.queue m hm
  · exact Params.pushQueue_length hd (hs.queue_depth d hd)

/-- The scheduled time only ever moves forward (rule R175). -/
theorem le_slipLimited (c : Params) (nextQ now : Time) : nextQ ≤ slipLimited c nextQ now := by
  have : nextQ ≤ nextQ + c.intervalT := by simp [Params.intervalT, Config.intervalSeconds]
  exact this.trans (le_max_left _ _)

theorem construct_inv {s : State} {t0 : Time} {id len : Int} (hl : s.cfg.legal = true)
    (hid : s.cfg.inInt id = true) (hlen : s.cfg.inInt len = true) : (s.construct t0 id len).Inv where
  legal := hl
  acc_form := Memory.wf_nil (legal_accMax hl)
  pending_form := nofun
  schedule := le_refl t0
  fingerprint := ⟨rfl, rfl⟩
  fingerprint_int := ⟨hid, hlen⟩
  queue := nofun
  queue_depth := fun d _ => Nat.zero_le d

/-- Every elementary write keeps the invariants. -/
theorem Writes.inv {i : Instr} {s t : State} (h : Writes i s t) (hs : s.Inv) : t.Inv := by
  induction h with
  | output s o => exact { hs with }
  | receive s w a _ ha => exact { hs with acc_form := ha hs.legal hs.acc_form }
  | fillSlot s q rx _ hq hrx => exact { hs with pending_form := fun _ => setPending_pendingForm hs hq hrx }
  | emptySlot s _ => exact { hs with pending_form := nofun }
  | reschedule s now _ =>
    exact { hs with schedule := hs.schedule.trans (le_slipLimited s.cfg s.nextQ now) }
  | enqueue s p _ hp => exact enqueue_inv hs hp
  | emptyQueue s _ => exact { hs with queue := nofun, queue_depth := fun d _ => Nat.zero_le d }
  | contract s p _ => exact { hs with }
  | construct s t0 id len _ hid hlen => exact construct_inv hs.legal hid hlen
  | trans _ _ ih₁ ih₂ => exact ih₂ (ih₁ hs)

theorem exec_inv {i : Instr} {s t : State} (hs : s.Inv) (h : exec i s = .next t) : t.Inv :=
  (exec_writes hs.legal h).inv hs

/-- Settles O57: every elementary write keeps the invariants, and a step is an operation or holds the state. -/
theorem everyStepKeepsInvariants : Obligations.EveryStepKeepsInvariants := by
  refine ⟨fun i s t => exec_inv, fun s t hs h => ?_⟩
  cases hin : s.inbox with
  | nil =>
    rw [step_of_inbox_nil hin] at h
    cases h
    exact hs
  | cons p rest =>
    rw [step_of_inbox_cons hin] at h
    exact exec_inv (s := { s with inbox := rest }) { hs with } h

/-- Settles O56, invariant by invariant. -/
theorem resetStateHasInvariants : Obligations.ResetStateHasInvariants where
  legal := by decide +kernel
  acc_form := reset_memory_wf
  pending_form := nofun
  schedule := le_refl 0
  fingerprint := ⟨rfl, rfl⟩
  fingerprint_int := ⟨Params.inInt_zero _, Params.inInt_zero _⟩
  queue := nofun
  queue_depth := nofun

/-- Settles O51: RESET has no guard but the range of its two inputs, and constructs every element. -/
theorem resetConstructsTheSession : Obligations.ResetConstructsTheSession := by
  intro s t0 id len hid hlen
  refine ⟨s.construct t0 id len, ?_, rfl, rfl, rfl, rfl, rfl, rfl, rfl, rfl, rfl, rfl, rfl, rfl⟩
  exact inDomain_eq_next.2 ⟨Bool.and_eq_true_iff.2 ⟨hid, hlen⟩, rfl⟩

/-! ### The write sets (rules R22 to R29) -/

/-- What an operation other than RESET leaves unchanged, element by element. -/
structure KeepsTheRest (i : Instr) (s t : State) : Prop where
  acc_lineT : (∀ data w, i ≠ .feed data w) → t.acc = s.acc ∧ t.lineT = s.lineT
  nextQ_eq : ¬ i.mayEmptySlot → t.nextQ = s.nextQ
  nextQ_le : s.nextQ ≤ t.nextQ
  slot_not_filled : ¬ i.mayFillSlot → t.pend = s.pend ∧ (t.pendV = true → s.pendV = true)
  slot_not_emptied : ¬ i.mayEmptySlot → s.pendV = true → t.pendV = true
  mq_eq : ¬ i.mayEnqueue → i ≠ .drain → t.mq = s.mq
  mq_append : i ≠ .drain → s.mq <+: t.mq
  session : t.start = s.start ∧ t.fpId = s.fpId ∧ t.fpLen = s.fpLen ∧ t.profile = s.profile
  model : t.cfg = s.cfg ∧ t.inbox = s.inbox ∧ t.freeCtr = s.freeCtr
  phase : (∀ l, i ≠ .lineSer l) → t.phase = s.phase

theorem KeepsTheRest.refl (i : Instr) (s : State) : KeepsTheRest i s s where
  acc_lineT _ := ⟨rfl, rfl⟩
  nextQ_eq _ := rfl
  nextQ_le := le_refl _
  slot_not_filled _ := ⟨rfl, id⟩
  slot_not_emptied _ := id
  mq_eq _ _ := rfl
  mq_append _ := ⟨[], List.append_nil _⟩
  session := ⟨rfl, rfl, rfl, rfl⟩
  model := ⟨rfl, rfl, rfl⟩
  phase _ := rfl

theorem KeepsTheRest.trans {i : Instr} {s u t : State} (h₁ : KeepsTheRest i s u) (h₂ : KeepsTheRest i u t) :
    KeepsTheRest i s t where
  acc_lineT hi := ⟨(h₂.acc_lineT hi).1.trans (h₁.acc_lineT hi).1, (h₂.acc_lineT hi).2.trans (h₁.acc_lineT hi).2⟩
  nextQ_eq hi := (h₂.nextQ_eq hi).trans (h₁.nextQ_eq hi)
  nextQ_le := h₁.nextQ_le.trans h₂.nextQ_le
  slot_not_filled hi := ⟨(h₂.slot_not_filled hi).1.trans (h₁.slot_not_filled hi).1,
    fun h => (h₁.slot_not_filled hi).2 ((h₂.slot_not_filled hi).2 h)⟩
  slot_not_emptied hi h := h₂.slot_not_emptied hi (h₁.slot_not_emptied hi h)
  mq_eq hi hd := (h₂.mq_eq hi hd).trans (h₁.mq_eq hi hd)
  mq_append hd := (h₁.mq_append hd).trans (h₂.mq_append hd)
  session := by simp only [h₂.session, h₁.session, and_self]
  model := by simp only [h₂.model, h₁.model, and_self]
  phase hi := (h₂.phase hi).trans (h₁.phase hi)

/-- Every elementary write keeps what is not in the write set of its row. -/
theorem Writes.keepsTheRest {i : Instr} {s t : State} (h : Writes i s t)
    (hreset : ∀ t0 a b, i ≠ .reset t0 a b) : KeepsTheRest i s t := by
  induction h with
  | output s o => exact { KeepsTheRest.refl i s with }
  | receive s w a hi _ =>
    obtain ⟨data, w', rfl⟩ := hi
    exact { KeepsTheRest.refl _ s with acc_lineT := fun h => absurd rfl (h data w') }
  | fillSlot s q rx hi _ _ => exact { KeepsTheRest.refl i s with
      slot_not_filled := fun h => absurd hi h, slot_not_emptied := fun _ _ => rfl }
  | emptySlot s hi => exact { KeepsTheRest.refl i s with
      slot_not_filled := fun _ => ⟨rfl, nofun⟩, slot_not_emptied := fun h => absurd hi h }
  | reschedule s now hi => exact { KeepsTheRest.refl i s with
      nextQ_eq := fun h => absurd hi h, nextQ_le := le_slipLimited s.cfg s.nextQ now }
  | enqueue s p hi _ => exact { KeepsTheRest.refl i s with
      mq_eq := fun h => absurd hi h, mq_append := fun _ => s.cfg.isPrefix_pushQueue s.mq _ }
  | emptyQueue s hi => exact { KeepsTheRest.refl i s with
      mq_eq := fun _ h => absurd hi h, mq_append := fun h => absurd hi h }
  | contract s p hi =>
    obtain ⟨l, rfl⟩ := hi
    exact { KeepsTheRest.refl _ s with phase := fun h => absurd rfl (h l) }
  | construct s t0 id len hi _ _ => exact absurd hi (hreset t0 id len)
  | trans _ _ ih₁ ih₂ => exact ih₁.trans ih₂

/-- Settles O58, by the write set of every elementary write. -/
theorem stateIsWrittenOnlyByItsOperations : Obligations.StateIsWrittenOnlyByItsOperations := by
  intro i s t hl h hreset
  have keeps := (exec_writes hl h).keepsTheRest hreset
  obtain ⟨hstart, hfpId, hfpLen, hprofile⟩ := keeps.session
  obtain ⟨hcfg, hinbox, hfree⟩ := keeps.model
  refine ⟨keeps.acc_lineT, fun hget hsend => keeps.nextQ_eq ?_, keeps.nextQ_le, keeps.slot_not_filled,
    keeps.slot_not_emptied, keeps.mq_eq, keeps.mq_append, hstart, hfpId, hfpLen, hprofile, hcfg, hinbox, hfree,
    keeps.phase⟩
  rintro (⟨now, hi⟩ | ⟨now, hi⟩)
  · exact hget now hi
  · exact hsend now hi

end Sys2Proof.Machine

/-! ## What FEED does not read (rules R23, R28, R38, R202)

FEED commutes with a change of an element it writes before it reads it. -/

namespace Sys2Proof.Machine

open Sys2Proof

/-- The outcome of an operation depends on the phase and on what its meaning makes of the state. -/
theorem whenRunning_congr {s s' : State} {k : State → Ans State} (hphase : s'.phase = s.phase)
    (hk : k s'.begin = k s.begin) : whenRunning s' k = whenRunning s k := by
  simp only [whenRunning, hphase, hk]

/-! ### The line timestamp -/

/-- On an empty accumulator the line timestamp is written, whatever it was (rule R202). -/
theorem stampLine_setLineT {s : State} (hacc : s.acc = []) (x w : Time) :
    (s.setLineT x).stampLine w = s.stampLine w := by
  simp [State.stampLine, hacc, State.setLineT]

theorem feedLine_setLineT {s : State} (hacc : s.acc = []) (x w : Time) (part : Bytes) :
    (s.setLineT x).feedLine w part = s.feedLine w part := by
  rw [State.feedLine, stampLine_setLineT hacc, State.setLineT_acc, ← State.feedLine]

theorem feedTail_setLineT {s : State} (hacc : s.acc = []) (x w : Time) {tail : Bytes} (htail : tail ≠ []) :
    (s.setLineT x).feedTail w tail = s.feedTail w tail := by
  rw [State.feedTail, stampLine_setLineT hacc, if_neg htail, State.feedTail, if_neg htail]

/-- A chunk of at least one byte has a line or a tail, and the first of them writes the line timestamp. -/
theorem feed_setLineT {s : State} (hacc : s.acc = []) (x w : Time) {data : Bytes} (hdata : data ≠ []) :
    (s.setLineT x).feed data w = s.feed data w := by
  have hjoin := splitLines_join s.cfg.nl data
  simp only [State.feed, State.setLineT_cfg]
  cases hlines : (splitLines s.cfg.nl data).1 with
  | nil =>
    have htail : (splitLines s.cfg.nl data).2 ≠ [] := by
      rw [hlines, List.map_nil, List.flatten_nil, List.nil_append] at hjoin
      rwa [hjoin]
    simp only [State.feedLines_nil, Ans.next_andThen, feedTail_setLineT hacc x w htail]
  | cons part parts => simp only [State.feedLines_cons, feedLine_setLineT hacc x w part]

/-- Settles O37: a FEED of at least one byte begins by writing the line timestamp. -/
theorem lineTimeIsWrittenBeforeItIsRead : Obligations.LineTimeIsWrittenBeforeItIsRead := by
  intro s data w x hacc hdata
  have hfeed : (s.setLineT x).begin.feed data w = s.begin.feed data w :=
    feed_setLineT (s := s.begin) hacc x w hdata
  unfold exec
  exact whenRunning_congr (s := s) (s' := s.setLineT x) (k := fun s => inDomain (s.cfg.chunkOk data) (s.feed data w))
    rfl (congrArg (inDomain (s.cfg.chunkOk data)) hfeed)

/-! ### The pending slot -/

/-- The state with other fields in its slot, if the slot is empty (rule R28). -/
def State.withEmptySlot (s : State) (r : TimeReply) : State := { s with pend := if s.pendV then s.pend else r }

theorem withEmptySlot_of_empty {s : State} (h : s.pendV = false) (r : TimeReply) :
    s.withEmptySlot r = { s with pend := r } := by
  simp [State.withEmptySlot, h]

@[simp] theorem withEmptySlot_acc (s : State) (r : TimeReply) : (s.withEmptySlot r).acc = s.acc := rfl

@[simp] theorem withEmptySlot_cfg (s : State) (r : TimeReply) : (s.withEmptySlot r).cfg = s.cfg := rfl

/-- DISPATCH does not read an empty slot; a TimeQuery fills it (rules R178, R206). -/
theorem dispatch_withEmptySlot {s t : State} {v : Variant} (r : TimeReply) (h : s.dispatch v = .next t) :
    (s.withEmptySlot r).dispatch v = .next (t.withEmptySlot r) := by
  cases v with
  | timeQuery q =>
    obtain ⟨hmark, rfl⟩ := State.tsOnq_eq_next.1 h
    exact State.tsOnq_eq_next.2 ⟨hmark, rfl⟩
  | timeReply _ | publish _ | profileStart _ => cases h; rfl

theorem lineProcess_withEmptySlot {s t : State} {b : Bytes} (r : TimeReply) (h : s.lineProcess b = .next t) :
    (s.withEmptySlot r).lineProcess b = .next (t.withEmptySlot r) := by
  unfold State.lineProcess at h ⊢
  rw [withEmptySlot_cfg]
  cases hparse : lineParse s.cfg b with
  | structural | cksum _ _ => simp only [hparse] at h ⊢; cases h; rfl
  | ok l verdict =>
    cases hdec : plDec s.cfg l with
    | unknown | decodeError => simp only [hparse, hdec] at h ⊢; cases h; rfl
    | known v =>
      simp only [hparse, hdec] at h ⊢
      exact dispatch_withEmptySlot r h

theorem stampLine_withEmptySlot (s : State) (w : Time) (r : TimeReply) :
    (s.withEmptySlot r).stampLine w = (s.stampLine w).withEmptySlot r := by
  unfold State.stampLine
  rw [withEmptySlot_acc]
  split <;> rfl

theorem feedLine_withEmptySlot {s t : State} {w : Time} {part : Bytes} (r : TimeReply)
    (h : s.feedLine w part = .next t) : (s.withEmptySlot r).feedLine w part = .next (t.withEmptySlot r) := by
  rw [State.feedLine, stampLine_withEmptySlot]
  exact lineProcess_withEmptySlot r h

theorem feedLines_withEmptySlot {w : Time} (r : TimeReply) {parts : List Bytes} :
    ∀ {s t : State}, s.feedLines w parts = .next t →
      (s.withEmptySlot r).feedLines w parts = .next (t.withEmptySlot r) := by
  induction parts with
  | nil =>
    intro s t h
    cases h
    rfl
  | cons part parts ih =>
    intro s t h
    obtain ⟨u, hu, ht⟩ := Ans.andThen_eq_next.1 h
    exact Ans.andThen_eq_next.2 ⟨_, feedLine_withEmptySlot r hu, ih ht⟩

theorem checkOverflow_withEmptySlot (s : State) (r : TimeReply) :
    (s.withEmptySlot r).checkOverflow = s.checkOverflow.withEmptySlot r := by
  unfold State.checkOverflow
  rw [withEmptySlot_cfg, withEmptySlot_acc]
  split <;> rfl

theorem feedTail_withEmptySlot (s : State) (w : Time) (tail : Bytes) (r : TimeReply) :
    (s.withEmptySlot r).feedTail w tail = (s.feedTail w tail).withEmptySlot r := by
  unfold State.feedTail
  split
  · rfl
  · rw [stampLine_withEmptySlot]
    exact checkOverflow_withEmptySlot ((s.stampLine w).accAppend tail) r

theorem feed_withEmptySlot {s t : State} {data : Bytes} {w : Time} (r : TimeReply) (h : s.feed data w = .next t) :
    (s.withEmptySlot r).feed data w = .next (t.withEmptySlot r) := by
  obtain ⟨u, hu, rfl⟩ := State.feed_eq_next.1 h
  exact State.feed_eq_next.2 ⟨_, feedLines_withEmptySlot r hu, (feedTail_withEmptySlot u w _ r).symm⟩

/-- TS_GET does not read an empty slot: it makes a query or nothing (rules R175, R176). -/
theorem tsGet_withEmptySlot {s u : State} {now : Time} {o : Option Variant} (hp : s.pendV = false) (r : TimeReply)
    (h : s.tsGet now = .next (o, u)) : (s.withEmptySlot r).tsGet now = .next (o, u.withEmptySlot r) := by
  rcases State.tsGet_eq_next.1 h with ⟨hfull, -⟩ | ⟨-, hdue, hcal, he⟩ | ⟨-, hnot, he⟩
  · exact absurd hfull (by simp [hp])
  · obtain ⟨rfl, rfl⟩ := Prod.mk.inj he
    exact State.tsGet_eq_next.2 (.inr (.inl ⟨hp, hdue, hcal, rfl⟩))
  · obtain ⟨rfl, rfl⟩ := Prod.mk.inj he
    exact State.tsGet_eq_next.2 (.inr (.inr ⟨hp, hnot, rfl⟩))

theorem serialize_withEmptySlot (s : State) (l : Line) (term : Bytes) (r : TimeReply) :
    (s.withEmptySlot r).serialize l term = (s.serialize l term).withEmptySlot r := by
  unfold State.serialize
  rw [withEmptySlot_cfg]
  split <;> rfl

theorem nextSend_withEmptySlot {s t : State} {now : Time} {e : Bool} (hp : s.pendV = false) (r : TimeReply)
    (h : s.nextSend now e = .next t) : (s.withEmptySlot r).nextSend now e = .next (t.withEmptySlot r) := by
  have hhas : (s.withEmptySlot r).tsHas now = s.tsHas now := rfl
  unfold State.nextSend at h ⊢
  rw [hhas]
  split at h
  · rename_i hno
    rw [if_pos hno]
    cases h; rfl
  · rename_i hyes
    rw [if_neg hyes]
    split at h
    · rename_i hbusy
      rw [if_pos hbusy]
      cases h; rfl
    · rename_i hempty
      rw [if_neg hempty]
      obtain ⟨⟨o, u⟩, hget, hsend⟩ := Ans.andThen_eq_next.1 h
      refine Ans.andThen_eq_next.2 ⟨_, tsGet_withEmptySlot hp r hget, ?_⟩
      cases o with
      | none => cases hsend; rfl
      | some v =>
        cases hsend
        exact congrArg _ (serialize_withEmptySlot u _ _ r)

/-- What a continuation does not read, a running operation does not read. -/
theorem whenRunning_withEmptySlot {s t : State} {k : State → Ans State} (r : TimeReply)
    (h : whenRunning s k = .next t)
    (hk : k s.begin = .next t → k (s.begin.withEmptySlot r) = .next (t.withEmptySlot r)) :
    whenRunning (s.withEmptySlot r) k = .next (t.withEmptySlot r) := by
  obtain ⟨hrun, hn⟩ := whenRunning_eq_next.1 h
  exact whenRunning_eq_next.2 ⟨hrun, hk hn⟩

/-- Settles O50: each of the three commands commutes with a change of the fields of an empty slot. -/
theorem emptyPendingSlotIsNotRead : Obligations.EmptyPendingSlotIsNotRead := by
  intro s t r i hp hi h
  suffices exec i (s.withEmptySlot r) = .next (t.withEmptySlot r) by
    rwa [withEmptySlot_of_empty hp] at this
  rcases hi with rfl | ⟨data, w, rfl⟩ | ⟨now, e, rfl⟩ <;> unfold exec at h ⊢
  · exact whenRunning_withEmptySlot r h fun h => by cases h; rfl
  · refine whenRunning_withEmptySlot r h fun h => ?_
    obtain ⟨hok, hfeed⟩ := inDomain_eq_next.1 h
    exact inDomain_eq_next.2 ⟨hok, feed_withEmptySlot r hfeed⟩
  · exact whenRunning_withEmptySlot r h (nextSend_withEmptySlot (s := s.begin) hp r)

end Sys2Proof.Machine

/-! ## How LINE_PARSE reads a line (rules R121 to R125)

Each of its steps is an equivalence with a way to write the bytes as parts one after the other. -/

namespace Sys2Proof

/-! ### Stripping -/

theorem dropWhile_eq_self_of_head {p : Byte → Bool} {b : Bytes} (h : ∀ x ∈ b.head?, p x = false) :
    b.dropWhile p = b := by
  cases b with
  | nil => rfl
  | cons x xs => exact List.dropWhile_cons_of_neg (by simp [h x rfl])

theorem head_dropWhile (p : Byte → Bool) (b : Bytes) : ∀ x ∈ (b.dropWhile p).head?, p x = false := by
  intro x hx
  have := List.head?_dropWhile_not p b
  rw [Option.mem_def.1 hx] at this
  simpa using this

/-- A run of bytes of a class ends where its rest begins with another byte. -/
theorem takeWhile_dropWhile_append {p : Byte → Bool} {run rest : Bytes} (hrun : ∀ x ∈ run, p x = true)
    (hrest : ∀ x ∈ rest.head?, p x = false) :
    (run ++ rest).takeWhile p = run ∧ (run ++ rest).dropWhile p = rest := by
  have hdrop : (run ++ rest).dropWhile p = rest := by
    rw [List.dropWhile_append_of_pos hrun, dropWhile_eq_self_of_head hrest]
  refine ⟨?_, hdrop⟩
  have hjoin : (run ++ rest).takeWhile p ++ (run ++ rest).dropWhile p = run ++ rest :=
    List.takeWhile_append_dropWhile
  rw [hdrop] at hjoin
  exact List.append_cancel_right hjoin

theorem rstripBy_append_of_last {p : Byte → Bool} {core trail : Bytes} (htrail : ∀ x ∈ trail, p x = true)
    (hcore : ∀ x ∈ core.getLast?, p x = false) : rstripBy p (core ++ trail) = core := by
  have hlast : ∀ x ∈ core.reverse.head?, p x = false := by simpa using hcore
  rw [rstripBy, List.reverse_append, List.dropWhile_append_of_pos (by simpa using htrail),
    dropWhile_eq_self_of_head hlast, List.reverse_reverse]

theorem getLast_rstripBy (p : Byte → Bool) (b : Bytes) : ∀ x ∈ (rstripBy p b).getLast?, p x = false := by
  simpa [rstripBy] using head_dropWhile p b.reverse

/-- What is left between the stripped ends begins and ends with another byte (rule R9). -/
theorem stripBy_eq_of_append {p : Byte → Bool} {lead core trail : Bytes} (hlead : ∀ x ∈ lead, p x = true)
    (htrail : ∀ x ∈ trail, p x = true) (hhead : ∀ x ∈ core.head?, p x = false)
    (hlast : ∀ x ∈ core.getLast?, p x = false) : stripBy p (lead ++ core ++ trail) = core := by
  rw [stripBy, List.append_assoc, List.dropWhile_append_of_pos hlead]
  cases core with
  | nil => rw [List.nil_append, List.dropWhile_eq_nil_iff.2 htrail]; rfl
  | cons x xs =>
    rw [dropWhile_eq_self_of_head (by simpa using hhead)]
    exact rstripBy_append_of_last htrail hlast

theorem stripBy_spec (p : Byte → Bool) (b : Bytes) :
    ∃ lead trail, b = lead ++ stripBy p b ++ trail ∧ (∀ x ∈ lead ++ trail, p x = true) ∧
      (∀ x ∈ (stripBy p b).head?, p x = false) ∧ ∀ x ∈ (stripBy p b).getLast?, p x = false := by
  obtain ⟨trail, hdrop, htrail⟩ := rstripBy_append p (b.dropWhile p)
  refine ⟨b.takeWhile p, trail, ?_, ?_, ?_, getLast_rstripBy p _⟩
  · rw [List.append_assoc, stripBy, ← hdrop, List.takeWhile_append_dropWhile]
  · intro x hx
    rcases List.mem_append.1 hx with hx | hx
    · exact List.mem_takeWhile_imp hx
    · exact htrail x hx
  · intro x hx
    refine head_dropWhile p b x ?_
    rw [hdrop]
    exact List.mem_head?_append_of_mem_head? hx

/-! ### What legal parameters say of the classes of bytes -/

theorem legal_bypass {c : Params} (h : c.legal = true) :
    c.bypass.length = 3 ∧ ∀ x ∈ c.bypass, isB64Url x = false ∧ c.isWs x = false := by
  simp only [Params.legal, Bool.and_eq_true, beq_iff_eq, List.all_eq_true, Bool.not_eq_true'] at h
  obtain ⟨⟨⟨⟨⟨-, hlen, hall⟩, -⟩, -⟩, -⟩, -⟩ := h
  exact ⟨hlen, fun x hx => (hall x hx).1⟩

theorem legal_ws {c : Params} (h : c.legal = true) {x : Byte} (hx : c.isWs x = true) :
    isB64Url x = false ∧ isOpener x = false ∧ isCloser x = false := by
  simp only [Params.legal, Bool.and_eq_true, List.all_eq_true, Bool.not_eq_true'] at h
  obtain ⟨⟨⟨⟨⟨-, -⟩, -, hall⟩, -⟩, -⟩, -⟩ := h
  obtain ⟨⟨hb64, hopen⟩, hclose⟩ := hall x (List.contains_iff_mem.1 hx)
  exact ⟨hb64, hopen, hclose⟩

theorem isWs_eq_false_of_isB64Url {c : Params} (h : c.legal = true) {x : Byte} (hx : isB64Url x = true) :
    c.isWs x = false := by
  by_contra hws
  simp [(legal_ws h (Bool.not_eq_false _ ▸ hws)).1] at hx

theorem isWs_eq_false_of_isOpener {c : Params} (h : c.legal = true) {x : Byte} (hx : isOpener x = true) :
    c.isWs x = false := by
  by_contra hws
  simp [(legal_ws h (Bool.not_eq_false _ ▸ hws)).2.1] at hx

theorem isWs_eq_false_of_isCloser {c : Params} (h : c.legal = true) {x : Byte} (hx : isCloser x = true) :
    c.isWs x = false := by
  by_contra hws
  simp [(legal_ws h (Bool.not_eq_false _ ▸ hws)).2.2] at hx

/-- The bypass token is no B64URL field (decision D7). -/
theorem ne_bypass_of_isB64Url {c : Params} (h : c.legal = true) {f : Bytes} (hf : ∀ x ∈ f, isB64Url x = true) :
    f ≠ c.bypass := by
  rintro rfl
  obtain ⟨hlen, hall⟩ := legal_bypass h
  obtain ⟨x, hx⟩ := List.exists_mem_of_length_pos (l := c.bypass) (by omega)
  simpa [(hall x hx).1] using hf x hx

/-! ### Payloads between separators (rules R123, R124) -/

theorem head_getLast_iff_wrapped {q : Bytes} {a z : Byte} :
    (2 ≤ q.length ∧ q.head? = some a ∧ q.getLast? = some z) ↔ ∃ m, q = [a] ++ m ++ [z] := by
  constructor
  · rintro ⟨hlen, hhead, hlast⟩
    obtain ⟨t, rfl⟩ := List.head?_eq_some_iff.1 hhead
    cases ht : t with
    | nil => simp [ht] at hlen
    | cons x xs =>
      rw [ht, List.getLast?_cons_cons, ← ht] at hlast
      obtain ⟨m, hm⟩ := List.getLast?_eq_some_iff.1 hlast
      exact ⟨m, by rw [← ht, hm]; simp⟩
  · rintro ⟨m, rfl⟩
    exact ⟨by simp, rfl, List.getLast?_concat⟩

theorem wrapped_edges {p : Byte → Bool} {a z : Byte} (ha : p a = false) (hz : p z = false) (m : Bytes) :
    (∀ x ∈ ([a] ++ m ++ [z]).head?, p x = false) ∧ ∀ x ∈ ([a] ++ m ++ [z]).getLast?, p x = false := by
  rw [List.getLast?_concat]
  simp [ha, hz]

/-- The three forms of a structured payload (rule R123 A). -/
theorem structuredShape_iff {q : Bytes} :
    structuredShape q = true ↔ (∃ m, q = [0x22] ++ m ++ [0x22]) ∨ (∃ m, q = [0x7B] ++ m ++ [0x7D]) ∨
      ∃ m, q = [0x5B] ++ m ++ [0x5D] := by
  simp only [structuredShape, Bool.and_eq_true, Bool.or_eq_true, decide_eq_true_eq, beq_iff_eq,
    ← head_getLast_iff_wrapped]
  tauto

/-- A structured payload begins and ends with a byte outside the separators. -/
theorem structuredShape_edges {c : Params} (hl : c.legal = true) {q : Bytes} (h : structuredShape q = true) :
    (∀ x ∈ q.head?, c.isWs x = false) ∧ ∀ x ∈ q.getLast?, c.isWs x = false := by
  have hopen {x : Byte} (hx : isOpener x = true) := isWs_eq_false_of_isOpener hl hx
  have hclose {x : Byte} (hx : isCloser x = true) := isWs_eq_false_of_isCloser hl hx
  rcases structuredShape_iff.1 h with ⟨m, rfl⟩ | ⟨m, rfl⟩ | ⟨m, rfl⟩
  · exact wrapped_edges (hopen rfl) (hclose rfl) m
  · exact wrapped_edges (hopen rfl) (hclose rfl) m
  · exact wrapped_edges (hopen rfl) (hclose rfl) m

/-- Alternative A is about the stripped bytes. -/
theorem structuredAmid_iff {c : Params} (hl : c.legal = true) {r q : Bytes} :
    c.StructuredAmid r q ↔ structuredShape (stripBy c.isWs r) = true ∧ q = stripBy c.isWs r := by
  constructor
  · rintro ⟨gapA, gapB, rfl, hgap, hform⟩
    have hshape : structuredShape q = true := structuredShape_iff.2 hform
    obtain ⟨hhead, hlast⟩ := structuredShape_edges hl hshape
    have hstrip := stripBy_eq_of_append (fun x hx => hgap x (List.mem_append_left _ hx))
      (fun x hx => hgap x (List.mem_append_right _ hx)) hhead hlast
    rw [hstrip]
    exact ⟨hshape, rfl⟩
  · rintro ⟨hshape, rfl⟩
    obtain ⟨lead, trail, hr, hgap, -, -⟩ := stripBy_spec c.isWs r
    exact ⟨lead, trail, hr, hgap, structuredShape_iff.1 hshape⟩

/-- Alternatives B and C are about the stripped bytes, with a gap on each side. -/
theorem bareAmid_iff {c : Params} {r q : Bytes} :
    c.BareAmid r q ↔ paddedToken c r = true ∧ q = stripBy c.isWs r := by
  constructor
  · rintro ⟨gapA, gapB, rfl, hgap, hA, hB, hq, htoken⟩
    have hstrip := stripBy_eq_of_append (fun x hx => hgap x (List.mem_append_left _ hx))
      (fun x hx => hgap x (List.mem_append_right _ hx))
      (fun x hx => htoken x (List.mem_of_mem_head? hx)) (fun x hx => htoken x (List.mem_of_mem_getLast? hx))
    refine ⟨?_, hstrip.symm⟩
    obtain ⟨x, xs, rfl⟩ := List.exists_cons_of_ne_nil hA
    obtain ⟨ys, y, rfl⟩ := (List.eq_nil_or_concat' _).resolve_left hB
    have hlen := List.length_pos_iff.2 hq
    simp only [paddedToken, hstrip, Bool.and_eq_true, decide_eq_true_eq, List.all_eq_true]
    refine ⟨⟨⟨?_, ?_⟩, hlen⟩, fun z hz => by simp [htoken z hz]⟩
    · simp [hgap x (by simp)]
    · rw [← List.append_assoc, List.getLast?_concat]
      exact hgap y (by simp)
  · rintro ⟨hpad, rfl⟩
    obtain ⟨lead, trail, hr, hgap, hhead, hlast⟩ := stripBy_spec c.isWs r
    simp only [paddedToken, Bool.and_eq_true, decide_eq_true_eq, List.all_eq_true, Bool.not_eq_true'] at hpad
    obtain ⟨⟨⟨hfirst, hfinal⟩, hlen⟩, htoken⟩ := hpad
    have hq : stripBy c.isWs r ≠ [] := List.length_pos_iff.1 hlen
    refine ⟨lead, trail, hr, hgap, ?_, ?_, hq, htoken⟩
    · rintro rfl
      obtain ⟨x, xs, hx⟩ := List.exists_cons_of_ne_nil hq
      rw [hr, hx] at hfirst
      simp [hhead x (by simp [hx])] at hfirst
    · rintro rfl
      obtain ⟨ys, y, hy⟩ := (List.eq_nil_or_concat' _).resolve_left hq
      rw [hr, hy] at hfinal
      simp [hlast y (by simp [hy])] at hfinal

/-! ### Step 1: the checksum field (rule R121) -/

/-- The field is the last three bytes before trailing whitespace. -/
theorem splitCkField_eq_some_iff {c : Params} (hl : c.legal = true) {b before f : Bytes} :
    splitCkField c b = some (before, f) ↔ ∃ trail, b = before ++ f ++ trail ∧ f.length = 3 ∧
      (∀ x ∈ trail, c.isWs x = true) ∧ (f = c.bypass ∨ ∀ x ∈ f, isB64Url x = true) := by
  constructor
  · intro h
    obtain ⟨hlen, hcore, hform⟩ := splitCkField_eq_some h
    obtain ⟨trail, hb, htrail⟩ := rstripBy_append c.isWs b
    exact ⟨trail, by rw [← hcore]; exact hb, hlen, htrail, by rwa [← List.all_eq_true]⟩
  · rintro ⟨trail, rfl, hlen, htrail, hform⟩
    have hnotWs : ∀ x ∈ f, c.isWs x = false := by
      rcases hform with rfl | hall
      · exact fun x hx => ((legal_bypass hl).2 x hx).2
      · exact fun x hx => isWs_eq_false_of_isB64Url hl (hall x hx)
    have hlast : ∀ x ∈ (before ++ f).getLast?, c.isWs x = false := by
      intro x hx
      rw [List.getLast?_append_of_ne_nil _ (List.length_pos_iff.1 (by omega))] at hx
      exact hnotWs x (List.mem_of_mem_getLast? hx)
    have htotal : (before ++ f).length - 3 = before.length := by simp [hlen]
    unfold splitCkField
    dsimp only
    rw [rstripBy_append_of_last htrail hlast, htotal, List.drop_left, List.take_left]
    simpa [hlen, ← or_iff_not_imp_left] using hform

/-! ### Steps 2 to 4: the reading (rules R122 to R124) -/

/-- The alternatives A, B and C for the bytes `b` before a checksum field, with the run `p` of word characters and the
rest `r` after the leading whitespace. -/
def Params.Alternatives (c : Params) (b p r : Bytes) (l : Line) : Prop :=
  (l.pfx = p ∧ c.StructuredAmid r l.payload) ∨
    ((¬ ∃ q, c.StructuredAmid r q) ∧ l.pfx = p ∧ c.BareAmid r l.payload) ∨
    ((¬ ∃ q, c.StructuredAmid r q) ∧ (¬ ∃ q, c.BareAmid r q) ∧ l.pfx = [] ∧ c.BareAmid b l.payload)

/-- The leading whitespace, the run of word characters and the rest are determined by the bytes. -/
theorem lineReading_iff {c : Params} {b : Bytes} {l : Line} :
    c.LineReading b l ↔ c.Alternatives b ((b.dropWhile c.isWs).takeWhile isWord)
      ((b.dropWhile c.isWs).dropWhile isWord) l := by
  constructor
  · rintro ⟨lead, p, r, hb, hlead, hfirst, hp, hr, halt⟩
    have hdrop : b.dropWhile c.isWs = p ++ r := by
      rw [hb, List.append_assoc]
      exact (takeWhile_dropWhile_append hlead hfirst).2
    obtain ⟨htake, hrest⟩ := takeWhile_dropWhile_append hp hr
    rw [hdrop, htake, hrest]
    exact halt
  · intro halt
    refine ⟨b.takeWhile c.isWs, _, _, ?_, fun x => List.mem_takeWhile_imp, ?_, fun x => List.mem_takeWhile_imp,
      head_dropWhile _ _, halt⟩
    · rw [List.append_assoc, List.takeWhile_append_dropWhile, List.takeWhile_append_dropWhile]
    · rw [List.takeWhile_append_dropWhile]
      exact head_dropWhile _ _

theorem paddedToken_length {c : Params} {b : Bytes} (h : paddedToken c b = true) : 3 ≤ b.length := by
  obtain ⟨gapA, gapB, hb, -, hA, hB, hq, -⟩ := bareAmid_iff.2 ⟨h, rfl⟩
  have hA := List.length_pos_iff.2 hA
  have hB := List.length_pos_iff.2 hB
  have hq := List.length_pos_iff.2 hq
  rw [hb, List.length_append, List.length_append]
  omega

/-- LINE_PARSE gives the bytes before the field their one reading. -/
theorem splitLine_eq_some_iff {c : Params} (hl : c.legal = true) {b : Bytes} {l : Line} :
    splitLine c b = some l ↔ c.LineReading b l := by
  obtain ⟨pfx, payload⟩ := l
  rw [lineReading_iff, Params.Alternatives, splitLine]
  generalize (b.dropWhile c.isWs).takeWhile isWord = p
  generalize (b.dropWhile c.isWs).dropWhile isWord = r
  simp only [structuredAmid_iff hl, bareAmid_iff, exists_and_left, exists_eq, and_true]
  split
  · rename_i hA
    simp [hA, @eq_comm _ p, @eq_comm _ (stripBy c.isWs r)]
  · rename_i hA
    split
    · rename_i hB
      simp [hA, hB, @eq_comm _ p, @eq_comm _ (stripBy c.isWs r)]
    · rename_i hB
      split
      · rename_i hC
        have hC := (Bool.and_eq_true_iff.1 hC).2
        simp [hA, hB, hC, @eq_comm _ [], @eq_comm _ (stripBy c.isWs b)]
      · rename_i hC
        have hC : paddedToken c b ≠ true := fun h => hC (by simp [h, paddedToken_length h])
        simp [hA, hB, hC]

/-- A reading begins with word characters only and has a payload (rule R31). -/
theorem word_payload_of_lineReading {c : Params} {b : Bytes} {l : Line} (h : c.LineReading b l) :
    l.pfx.all isWord = true ∧ l.payload ≠ [] := by
  have hstruct : ∀ {r q : Bytes}, c.StructuredAmid r q → q ≠ [] := by
    rintro r q ⟨_, _, -, -, ⟨m, rfl⟩ | ⟨m, rfl⟩ | ⟨m, rfl⟩⟩ <;> simp
  have hbare : ∀ {r q : Bytes}, c.BareAmid r q → q ≠ [] := by
    rintro r q ⟨_, _, -, -, -, -, hq, -⟩
    exact hq
  obtain ⟨lead, p, r, -, -, -, hp, -, ⟨hpfx, hA⟩ | ⟨-, hpfx, hB⟩ | ⟨-, -, hpfx, hC⟩⟩ := h
  · exact ⟨by rw [hpfx]; exact List.all_eq_true.2 hp, hstruct hA⟩
  · exact ⟨by rw [hpfx]; exact List.all_eq_true.2 hp, hbare hB⟩
  · exact ⟨by rw [hpfx]; rfl, hbare hC⟩

/-! ### Step 5: the verdict (rule R125) -/

theorem lineVerdict_eq_ok_iff {c : Params} {before f : Bytes} {line l : Line} {v : Verdict} :
    lineVerdict c before line f = .ok l v ↔ line = l ∧ ((v = .bypass ∧ f = c.bypass) ∨
      (v = .valid ∧ f ≠ c.bypass ∧ ckDec c f = some (crc18 c (c.span before line)))) := by
  unfold lineVerdict
  by_cases hf : f = c.bypass
  · simp [hf, eq_comm]
  · rw [if_neg hf]
    cases hdec : ckDec c f with
    | none => simp [ckVerify, hdec, hf]
    | some received =>
      by_cases hcrc : received = crc18 c (c.span before line)
      · simp [ckVerify, hdec, hf, hcrc, eq_comm]
      · simp [ckVerify, hdec, hf, hcrc]

theorem lineVerdict_eq_cksum_iff {c : Params} {before f : Bytes} {line : Line} {received computed : U18} :
    lineVerdict c before line f = .cksum received computed ↔ f ≠ c.bypass ∧ ckDec c f = some received ∧
      computed = crc18 c (c.span before line) ∧ received ≠ computed := by
  unfold lineVerdict
  by_cases hf : f = c.bypass
  · simp [hf]
  · rw [if_neg hf]
    cases hdec : ckDec c f with
    | none => simp [ckVerify, hdec]
    | some value =>
      by_cases hcrc : value = crc18 c (c.span before line)
      · have hnot : ¬ (value = received ∧ computed = value ∧ received ≠ computed) := by
          rintro ⟨rfl, rfl, hne⟩
          exact hne rfl
        simpa [ckVerify, hdec, ← hcrc, hf] using hnot
      · have hiff : (value = received ∧ crc18 c (c.span before line) = computed) ↔
            value = received ∧ computed = crc18 c (c.span before line) ∧ received ≠ computed := by
          constructor
          · rintro ⟨rfl, rfl⟩
            exact ⟨rfl, rfl, hcrc⟩
          · rintro ⟨rfl, rfl, -⟩
            exact ⟨rfl, rfl⟩
        simpa [ckVerify, hdec, hf, hcrc] using hiff

/-! ### The five steps -/

/-- LINE_PARSE gives a verdict `r` (not Struct) exactly on a field and a reading that have that verdict. -/
theorem lineParse_eq_iff {c : Params} {b : Bytes} {r : ParseResult} (hr : r ≠ .structural) :
    lineParse c b = r ↔ ∃ before f l, splitCkField c b = some (before, f) ∧ splitLine c before = some l ∧
      lineVerdict c before l f = r := by
  unfold lineParse
  cases hck : splitCkField c b with
  | none => simp [Ne.symm hr]
  | some parts =>
    obtain ⟨before, f⟩ := parts
    cases hline : splitLine c before with
    | none => simp [hline, Ne.symm hr]
    | some l => simp [hline]

/-- A field that CK_DEC decodes is three bytes of B64URL. -/
theorem isB64Url_of_ckDec {c : Params} {f : Bytes} {v : U18} (h : ckDec c f = some v) :
    ∀ x ∈ f, isB64Url x = true :=
  List.all_eq_true.1 (ckDec_isSome.1 (by rw [h]; rfl)).2

theorem lineParse_eq_ok_iff {c : Params} (hl : c.legal = true) {b : Bytes} {l : Line} {v : Verdict} :
    lineParse c b = .ok l v ↔ ∃ before f trail : Bytes, b = before ++ f ++ trail ∧ f.length = 3 ∧
      (∀ x ∈ trail, c.isWs x = true) ∧ c.LineReading before l ∧
      ((v = .bypass ∧ f = c.bypass) ∨ (v = .valid ∧ (∀ x ∈ f, isB64Url x = true) ∧
        ckDec c f = some (crc18 c (l.pfx ++ l.payload ++ c.pad before)))) := by
  simp only [lineParse_eq_iff (r := .ok l v) nofun, splitCkField_eq_some_iff hl, splitLine_eq_some_iff hl,
    lineVerdict_eq_ok_iff]
  constructor
  · rintro ⟨before, f, _, ⟨trail, hb, hlen, htrail, -⟩, hread, rfl, hv⟩
    refine ⟨before, f, trail, hb, hlen, htrail, hread, hv.imp id ?_⟩
    rintro ⟨hvalid, -, hdec⟩
    exact ⟨hvalid, isB64Url_of_ckDec hdec, hdec⟩
  · rintro ⟨before, f, trail, hb, hlen, htrail, hread, ⟨hv, hf⟩ | ⟨hv, hf, hdec⟩⟩
    · exact ⟨before, f, l, ⟨trail, hb, hlen, htrail, .inl hf⟩, hread, rfl, .inl ⟨hv, hf⟩⟩
    · exact ⟨before, f, l, ⟨trail, hb, hlen, htrail, .inr hf⟩, hread, rfl,
        .inr ⟨hv, ne_bypass_of_isB64Url hl hf, hdec⟩⟩

theorem lineParse_eq_cksum_iff {c : Params} (hl : c.legal = true) {b : Bytes} {received computed : U18} :
    lineParse c b = .cksum received computed ↔ ∃ (before f trail : Bytes) (l : Line),
      b = before ++ f ++ trail ∧ f.length = 3 ∧ (∀ x ∈ trail, c.isWs x = true) ∧ c.LineReading before l ∧
      (∀ x ∈ f, isB64Url x = true) ∧ ckDec c f = some received ∧
      computed = crc18 c (l.pfx ++ l.payload ++ c.pad before) ∧ received ≠ computed := by
  simp only [lineParse_eq_iff (r := .cksum received computed) nofun, splitCkField_eq_some_iff hl,
    splitLine_eq_some_iff hl, lineVerdict_eq_cksum_iff]
  constructor
  · rintro ⟨before, f, l, ⟨trail, hb, hlen, htrail, -⟩, hread, -, hdec, hcrc, hne⟩
    exact ⟨before, f, trail, l, hb, hlen, htrail, hread, isB64Url_of_ckDec hdec, hdec, hcrc, hne⟩
  · rintro ⟨before, f, trail, l, hb, hlen, htrail, hread, hf, hdec, hcrc, hne⟩
    exact ⟨before, f, l, ⟨trail, hb, hlen, htrail, .inr hf⟩, hread, ne_bypass_of_isB64Url hl hf, hdec, hcrc, hne⟩

end Sys2Proof

namespace Sys2Proof.Machine

open Sys2Proof

/-- LINE_PARSE of a running block answers on every byte string. -/
theorem exec_lineParse_of_running {s : State} (hr : s.phase = .running) (b : Bytes) :
    exec (.lineParse b) s = .next { s with out := ⟨.parse (lineParse s.cfg b), []⟩ } :=
  whenRunning_of_running (fun s => answer s (.parse (lineParse s.cfg b))) hr

/-- Settles O10, step by step of LINE_PARSE. -/
theorem acceptedLinesAreCheckedOrBypassed : Obligations.AcceptedLinesAreCheckedOrBypassed := by
  intro s b hr hl
  refine ⟨lineParse s.cfg b, exec_lineParse_of_running hr b, fun l v => lineParse_eq_ok_iff hl,
    fun received computed => lineParse_eq_cksum_iff hl, fun hpad before => ?_, fun l v hok => ?_⟩
  · simp [Params.pad, hpad]
  · obtain ⟨before, _, _, -, -, -, hread, -⟩ := (lineParse_eq_ok_iff hl).1 hok
    exact word_payload_of_lineReading hread

end Sys2Proof.Machine

/-! ## The elements of a payload array (rules R81, R84, R143)

Inside the outer array SPLIT_ARRAY runs the recognizer of JSON one level deeper than it is run on an element alone.
The two runs go in step until a comma or the closing bracket ends the element. -/

namespace Sys2Proof

/-- A configuration of the recognizer as it stands inside an outer array. -/
def JState.inArray (st : JState) : JState := ⟨st.mode, st.stack ++ [.arr]⟩

theorem inArray_stack_ne_nil (st : JState) : st.inArray.stack ≠ [] := by
  simp [JState.inArray]

/-! ### One byte -/

theorem jOpen_inArray {d : Nat} (hd : 1 ≤ d) (stack : List JCtx) (ctx : JCtx) (mode : JMode) :
    jOpen d (stack ++ [.arr]) ctx mode = (jOpen (d - 1) stack ctx mode).map JState.inArray := by
  have : stack.length + 1 < d ↔ stack.length < d - 1 := by omega
  by_cases h : stack.length < d - 1 <;> simp [jOpen, this, h, JState.inArray]

theorem jBegin_inArray {d : Nat} (hd : 1 ≤ d) (stack : List JCtx) (b : Byte) :
    jBegin d (stack ++ [.arr]) b = (jBegin (d - 1) stack b).map JState.inArray := by
  simp only [jBegin, jOpen_inArray hd]
  split_ifs <;> rfl

theorem jClose_inArray {stack : List JCtx} {ctx : JCtx} (h : stack ≠ [] ∨ ctx = .obj) :
    jClose (stack ++ [.arr]) ctx = (jClose stack ctx).map JState.inArray := by
  cases stack with
  | nil =>
    obtain rfl := h.resolve_left (by simp)
    rfl
  | cons top rest =>
    simp only [List.cons_append, jClose]
    split_ifs <;> rfl

theorem jAfter_inArray {stack : List JCtx} {b : Byte} (h : stack ≠ [] ∨ (b ≠ 0x2C ∧ b ≠ 0x5D)) :
    jAfter (stack ++ [.arr]) b = (jAfter stack b).map JState.inArray := by
  cases stack with
  | nil =>
    obtain ⟨hcomma, hclose⟩ := h.resolve_left (by simp)
    simp only [jAfter, if_neg hcomma, if_neg hclose, jClose_inArray (.inr rfl)]
    split_ifs <;> rfl
  | cons top rest =>
    simp only [jAfter, jClose_inArray (.inl (List.cons_ne_nil top rest))]
    cases top <;> split_ifs <;> rfl

/-- The byte does not end an element, the inner recognizer being in this configuration. -/
def JState.GoesOn (st : JState) (b : Byte) : Prop :=
  st.stack ≠ [] ∨ (b ≠ 0x2C ∧ b ≠ 0x5D) ∨ (st.mode.complete = false ∧ st.mode ≠ .valueOrEnd)

/-- Away from the end of an element the outer and the inner recognizer go in step. -/
theorem jStep_inArray {d : Nat} (hd : 1 ≤ d) {st : JState} {b : Byte} (h : st.GoesOn b) :
    jStep d st.inArray b = (jStep (d - 1) st b).map JState.inArray := by
  obtain ⟨mode, stack⟩ := st
  cases mode with
  | valueOrEnd =>
    have hclose (hb : b = 0x5D) : jClose (stack ++ [.arr]) .arr = (jClose stack .arr).map JState.inArray :=
      jClose_inArray (h.imp_right fun hor => absurd rfl (hor.resolve_left fun hne => hne.2 hb).2)
    simp only [jStep, JState.inArray, jBegin_inArray hd]
    split_ifs with hws hb
    · rfl
    · exact hclose hb
    · rfl
  | after => exact jAfter_inArray (h.imp_right fun hor => hor.resolve_right nofun)
  | numZero | numInt | numFrac | numExp =>
    simp only [jStep, JState.inArray, jAfter_inArray (h.imp_right fun hor => hor.resolve_right nofun)]
    split_ifs <;> rfl
  | lit rest =>
    cases rest with
    | nil => rfl
    | cons x xs =>
      simp only [jStep, JState.inArray]
      split_ifs <;> rfl
  | value | keyOrEnd | key | colon | str | esc | hex | numMinus | numDot | numE | numESign =>
    simp only [jStep, JState.inArray, jBegin_inArray hd, jClose_inArray (.inr rfl)]
    split_ifs <;> rfl

/-- After a value in the outer array a comma asks for another and the bracket ends the array. -/
theorem jStep_inArray_of_complete {d : Nat} {mode : JMode} (h : mode.complete = true) :
    jStep d ⟨mode, [.arr]⟩ 0x2C = some ⟨.value, [.arr]⟩ ∧ jStep d ⟨mode, [.arr]⟩ 0x5D = some ⟨.after, []⟩ := by
  cases mode with
  | after | numZero | numInt | numFrac | numExp => exact ⟨rfl, rfl⟩
  | value | valueOrEnd | keyOrEnd | key | colon | str | esc | hex | lit | numMinus | numDot | numE | numESign =>
    cases h

/-- Only after a value does a comma ask for another value. -/
theorem jStep_comma_ne_value {d : Nat} {st st' : JState} (h : st.mode.complete = false)
    (hstep : jStep d st 0x2C = some st') : st'.mode ≠ .value := by
  obtain ⟨mode, stack⟩ := st
  cases mode with
  | after | numZero | numInt | numFrac | numExp => cases h
  | str key => cases hstep; nofun
  | lit rest =>
    cases rest with
    | nil => cases hstep
    | cons x xs =>
      simp only [jStep] at hstep
      split_ifs at hstep <;> cases hstep <;> nofun
  | value | valueOrEnd | keyOrEnd | key | colon | esc | hex | numMinus | numDot | numE | numESign => cases hstep

/-! ### What every run from the start of a value has -/

/-- A just opened array is open, and no literal holds whitespace. -/
def JState.Sane (st : JState) : Prop :=
  (st.mode = .valueOrEnd → st.stack ≠ []) ∧ ∀ rest, st.mode = .lit rest → ∀ x ∈ rest, isJws x = false

theorem sane_of_mode {st : JState} (hopen : st.mode ≠ .valueOrEnd) (hlit : ∀ rest, st.mode ≠ .lit rest) : st.Sane :=
  ⟨fun h => absurd h hopen, fun rest h => absurd h (hlit rest)⟩

theorem jOpen_sane {d : Nat} {stack : List JCtx} {ctx : JCtx} {mode : JMode} {st : JState}
    (h : jOpen d stack ctx mode = some st) (hmode : ∀ rest, mode ≠ .lit rest) : st.Sane := by
  unfold jOpen at h
  split_ifs at h
  cases h
  exact ⟨fun _ => List.cons_ne_nil _ _, fun rest h => absurd h (hmode rest)⟩

theorem jClose_sane {stack : List JCtx} {ctx : JCtx} {st : JState} (h : jClose stack ctx = some st) : st.Sane := by
  unfold jClose at h
  split at h
  · cases h
  · split_ifs at h
    cases h
    exact sane_of_mode nofun nofun

theorem lit_sane {stack : List JCtx} {text : Bytes} (h : text.all (fun x => !isJws x) = true) :
    JState.Sane ⟨.lit text, stack⟩ := by
  refine ⟨nofun, ?_⟩
  rintro _ ⟨⟩ x hx
  simpa using List.all_eq_true.1 h x hx

theorem jBegin_sane {d : Nat} {stack : List JCtx} {b : Byte} {st : JState} (h : jBegin d stack b = some st) :
    st.Sane := by
  unfold jBegin at h
  split_ifs at h
  · cases h; exact sane_of_mode nofun nofun
  · exact jOpen_sane h fun _ => nofun
  · exact jOpen_sane h fun _ => nofun
  · cases h; exact sane_of_mode nofun nofun
  · cases h; exact sane_of_mode nofun nofun
  · cases h; exact sane_of_mode nofun nofun
  · cases h; exact lit_sane rfl
  · cases h; exact lit_sane rfl
  · cases h; exact lit_sane rfl

theorem jAfter_sane {stack : List JCtx} {b : Byte} {st : JState} (h : jAfter stack b = some st) : st.Sane := by
  unfold jAfter at h
  split_ifs at h
  · cases h; exact sane_of_mode nofun nofun
  · split at h <;> cases h <;> exact sane_of_mode nofun nofun
  · exact jClose_sane h
  · exact jClose_sane h

theorem jStep_sane {d : Nat} {st st' : JState} {b : Byte} (hs : st.Sane) (h : jStep d st b = some st') :
    st'.Sane := by
  obtain ⟨mode, stack⟩ := st
  cases mode with
  | value =>
    simp only [jStep] at h
    split_ifs at h
    · cases h; exact hs
    · exact jBegin_sane h
  | valueOrEnd =>
    simp only [jStep] at h
    split_ifs at h
    · cases h; exact hs
    · exact jClose_sane h
    · exact jBegin_sane h
  | keyOrEnd =>
    simp only [jStep] at h
    split_ifs at h
    · cases h; exact hs
    · cases h; exact sane_of_mode nofun nofun
    · exact jClose_sane h
  | after => exact jAfter_sane h
  | numZero | numFrac =>
    simp only [jStep] at h
    split_ifs at h
    · cases h; exact sane_of_mode nofun nofun
    · cases h; exact sane_of_mode nofun nofun
    · exact jAfter_sane h
  | numInt =>
    simp only [jStep] at h
    split_ifs at h
    · cases h; exact hs
    · cases h; exact sane_of_mode nofun nofun
    · cases h; exact sane_of_mode nofun nofun
    · exact jAfter_sane h
  | numExp =>
    simp only [jStep] at h
    split_ifs at h
    · cases h; exact hs
    · exact jAfter_sane h
  | lit rest =>
    cases rest with
    | nil => cases h
    | cons x xs =>
      simp only [jStep] at h
      split_ifs at h
      · cases h; exact sane_of_mode nofun nofun
      · cases h
        exact ⟨nofun, by rintro _ ⟨⟩ y hy; exact hs.2 _ rfl y (List.mem_cons_of_mem x hy)⟩
  | str | key | colon | esc | hex | numMinus | numDot | numE | numESign =>
    simp only [jStep] at h
    split_ifs at h <;> cases h <;> exact sane_of_mode nofun nofun

/-! ### Runs -/

theorem jRun_append (d : Nat) (st : JState) (a b : Bytes) :
    jRun d st (a ++ b) = (jRun d st a).bind fun st' => jRun d st' b := by
  induction a generalizing st with
  | nil => rfl
  | cons x xs ih =>
    simp only [List.cons_append, jRun, Option.bind_assoc]
    exact congrArg _ (funext fun st' => ih st')

theorem jRun_snoc {d : Nat} {st st' : JState} {a : Bytes} (h : jRun d st a = some st') (b : Byte) :
    jRun d st (a ++ [b]) = jStep d st' b := by
  simp [jRun_append, h, jRun]

theorem jRun_sane {d : Nat} {b : Bytes} : ∀ {st st' : JState}, st.Sane → jRun d st b = some st' → st'.Sane := by
  induction b with
  | nil =>
    intro st st' hs h
    cases h
    exact hs
  | cons x xs ih =>
    intro st st' hs h
    obtain ⟨u, hu, h⟩ := Option.bind_eq_some_iff.1 h
    exact ih (jStep_sane hs hu) h

theorem start_sane : JState.Sane ⟨.value, []⟩ := sane_of_mode nofun nofun

/-- Whitespace before a value changes nothing. -/
theorem jRun_value_ws {d : Nat} {stack : List JCtx} {w : Bytes} (hw : ∀ x ∈ w, isJws x = true) :
    jRun d ⟨.value, stack⟩ w = some ⟨.value, stack⟩ := by
  induction w with
  | nil => rfl
  | cons x xs ih =>
    have hstep : jStep d ⟨.value, stack⟩ x = some ⟨.value, stack⟩ := if_pos (hw x (by simp))
    rw [jRun, hstep]
    exact ih fun y hy => hw y (by simp [hy])

theorem isJws_cases {x : Byte} (h : isJws x = true) : x = 0x20 ∨ x = 0x09 ∨ x = 0x0A ∨ x = 0x0D := by
  simpa only [isJws, Bool.or_eq_true, beq_iff_eq, or_assoc] using h

theorem not_isDigit_of_isJws {x : Byte} (h : isJws x = true) : isDigit x ≠ true := by
  rcases isJws_cases h with rfl | rfl | rfl | rfl <;> decide

/-- A value that is complete after whitespace was complete before it. -/
theorem jStep_ws_complete {d : Nat} {st st' : JState} {x : Byte} (hx : isJws x = true) (hs : st.Sane)
    (h : jStep d st x = some st') (hc : st'.mode.complete = true) :
    st.mode.complete = true ∧ st.stack = st'.stack := by
  obtain ⟨mode, stack⟩ := st
  have hafter : jAfter stack x = some ⟨.after, stack⟩ := if_pos hx
  have hdigit := not_isDigit_of_isJws hx
  cases mode with
  | value | valueOrEnd | keyOrEnd | key | colon =>
    simp only [jStep, if_pos hx] at h
    cases h
    cases hc
  | after =>
    cases hafter.symm.trans h
    exact ⟨rfl, rfl⟩
  | numZero | numInt | numFrac | numExp =>
    simp only [jStep, hafter] at h
    split_ifs at h <;> cases h <;> exact ⟨rfl, rfl⟩
  | str key =>
    have hquote : x ≠ 0x22 := by rintro rfl; cases hx
    simp only [jStep, if_neg hquote] at h
    split_ifs at h <;> cases h <;> cases hc
  | lit rest =>
    cases rest with
    | nil => cases h
    | cons y ys =>
      have hy : x ≠ y := by
        rintro rfl
        simp [hs.2 _ rfl x (by simp)] at hx
      simp only [jStep, if_neg hy] at h
      cases h
  | numMinus =>
    have hzero : x ≠ 0x30 := by rintro rfl; cases hx
    simp only [jStep, if_neg hzero, if_neg hdigit] at h
    cases h
  | numDot | numESign =>
    simp only [jStep, if_neg hdigit] at h
    cases h
  | esc | hex | numE =>
    simp only [jStep, if_neg hdigit] at h
    split_ifs at h <;> cases h <;> cases hc

theorem jRun_ws_complete {d : Nat} {w : Bytes} (hw : ∀ x ∈ w, isJws x = true) :
    ∀ {st st' : JState}, st.Sane → jRun d st w = some st' → st'.mode.complete = true →
      st.mode.complete = true ∧ st.stack = st'.stack := by
  induction w with
  | nil =>
    intro st st' _ h hc
    cases h
    exact ⟨hc, rfl⟩
  | cons x xs ih =>
    intro st st' hs h hc
    obtain ⟨u, hu, h⟩ := Option.bind_eq_some_iff.1 h
    obtain ⟨hcu, hstack⟩ := ih (fun y hy => hw y (by simp [hy])) (jStep_sane hs hu) h hc
    obtain ⟨hcs, hstack'⟩ := jStep_ws_complete (hw x (by simp)) hs hu hcu
    exact ⟨hcs, hstack'.trans hstack⟩

/-- The inner recognizer has read one value and the whitespace around it. -/
def Params.ReadsValue (c : Params) (b : Bytes) : Prop :=
  ∃ mode, jRun (c.jsonMaxDepth - 1) ⟨.value, []⟩ b = some ⟨mode, []⟩ ∧ mode.complete = true

/-- One value with whitespace around it is, stripped, an element. -/
theorem isElement_stripBy {c : Params} {b : Bytes} (h : c.ReadsValue b) : c.isElement (stripBy isJws b) = true := by
  obtain ⟨mode, hrun, hc⟩ := h
  obtain ⟨lead, trail, hb, hws, hhead, hlast⟩ := stripBy_spec isJws b
  generalize stripBy isJws b = e at hb hhead hlast ⊢
  rw [hb, List.append_assoc, jRun_append, jRun_value_ws fun x hx => hws x (List.mem_append_left _ hx),
    Option.bind_some, jRun_append] at hrun
  obtain ⟨st, he, htrail⟩ := Option.bind_eq_some_iff.1 hrun
  obtain ⟨hcomplete, hstack⟩ := jRun_ws_complete (fun x hx => hws x (List.mem_append_right _ hx))
    (jRun_sane start_sane he) htrail hc
  have hhead : (e.head?.all fun x => !isJws x) = true := (Option.all_eq_true _ _).2 fun x hx => by simp [hhead x hx]
  have hlast : (e.getLast?.all fun x => !isJws x) = true := (Option.all_eq_true _ _).2 fun x hx => by simp [hlast x hx]
  simp only [Params.isElement, he, hstack, hcomplete, hhead, hlast]
  rfl

/-! ### SPLIT_ARRAY -/

/-- Where SPLIT_ARRAY stands: outside the outer array, just inside it, or in step with the inner recognizer, which
reads the bytes since the last separator. -/
inductive Splitting (d : Nat) : SplitState → Prop where
  | outside {mode : JMode} {els : List Bytes} (hmode : mode = .value ∨ mode = .after) :
    Splitting d ⟨⟨mode, []⟩, [], els⟩
  | opened {cur : Bytes} {els : List Bytes} (hcur : jRun (d - 1) ⟨.value, []⟩ cur = some ⟨.value, []⟩) :
    Splitting d ⟨⟨.valueOrEnd, [.arr]⟩, cur, els⟩
  | inside {inner : JState} {cur : Bytes} {els : List Bytes} (hcur : jRun (d - 1) ⟨.value, []⟩ cur = some inner) :
    Splitting d ⟨inner.inArray, cur, els⟩

/-- Where the recognizer stops, so does SPLIT_ARRAY. -/
theorem jStep_of_splitStep {d : Nat} {st st' : SplitState} {b : Byte} (h : splitStep d st b = some st') :
    ∃ js, jStep d st.js b = some js := by
  cases hstep : jStep d st.js b with
  | some js => exact ⟨js, rfl⟩
  | none =>
    simp only [splitStep, hstep] at h
    split_ifs at h

/-- Inside the outer array a byte that ends no element is collected. -/
theorem splitStep_collects {d : Nat} {js js' : JState} {cur : Bytes} {els : List Bytes} {b : Byte}
    (hin : js.stack ≠ []) (hin' : js'.stack ≠ []) (hstep : jStep d js b = some js')
    (hcomma : js.stack = [.arr] → b = 0x2C → js'.mode ≠ .value) :
    splitStep d ⟨js, cur, els⟩ b = some ⟨js', cur ++ [b], els⟩ := by
  have hsep : ¬ ((js.stack = [.arr] ∧ js'.mode = .value) ∧ b = 0x2C) := fun ⟨⟨h, hv⟩, hb⟩ => hcomma h hb hv
  simp only [splitStep, hstep, Bool.and_eq_true, decide_eq_true_eq]
  rw [if_neg fun h => hin h.1.1, if_neg hin, if_neg hsep, if_neg hin']

/-- Outside the outer array only whitespace and the opening bracket are read. -/
theorem splitStep_outside {d : Nat} (hd : 1 ≤ d) {mode : JMode} (hmode : mode = .value ∨ mode = .after)
    {els : List Bytes} {b : Byte} {st' : SplitState} (h : splitStep d ⟨⟨mode, []⟩, [], els⟩ b = some st') :
    Splitting d st' ∧ st'.els = els := by
  by_cases hws : isJws b = true
  · have hstep : jStep d ⟨mode, []⟩ b = some ⟨mode, []⟩ := by
      rcases hmode with rfl | rfl <;> exact if_pos hws
    simp only [splitStep, hstep, hws] at h
    cases h
    exact ⟨.outside hmode, rfl⟩
  · by_cases hopen : b = 0x5B
    · subst hopen
      rcases hmode with rfl | rfl
      · have hstep : jStep d ⟨.value, []⟩ 0x5B = some ⟨.valueOrEnd, [.arr]⟩ := if_pos hd
        simp only [splitStep, hstep] at h
        cases h
        exact ⟨.opened rfl, rfl⟩
      · cases h
    · simp only [splitStep, bne_iff_ne, Bool.not_eq_true', Bool.and_eq_true, decide_eq_true_eq] at h
      rw [if_pos ⟨⟨trivial, Bool.not_eq_true _ ▸ hws⟩, hopen⟩] at h
      cases h

/-- Just inside the outer array comes a value or the closing bracket. -/
theorem splitStep_opened {d : Nat} (hd : 1 ≤ d) {cur : Bytes} {els : List Bytes} {b : Byte} {st' : SplitState}
    (hcur : jRun (d - 1) ⟨.value, []⟩ cur = some ⟨.value, []⟩)
    (h : splitStep d ⟨⟨.valueOrEnd, [.arr]⟩, cur, els⟩ b = some st') : Splitting d st' ∧ st'.els = els := by
  obtain ⟨js, hjs⟩ := jStep_of_splitStep h
  by_cases hws : isJws b = true
  · have hstep : jStep d ⟨.valueOrEnd, [.arr]⟩ b = some ⟨.valueOrEnd, [.arr]⟩ := if_pos hws
    rw [splitStep_collects (by simp) (by simp) hstep fun _ _ => nofun] at h
    cases h
    exact ⟨.opened ((jRun_snoc hcur b).trans (if_pos hws)), rfl⟩
  · by_cases hclose : b = 0x5D
    · subst hclose
      cases h
      exact ⟨.outside (.inr rfl), rfl⟩
    · have hbegin : jStep d ⟨.valueOrEnd, [.arr]⟩ b = (jBegin (d - 1) [] b).map JState.inArray := by
        rw [← jBegin_inArray hd]
        simp only [jStep, if_neg hws, if_neg hclose]
        rfl
      obtain ⟨inner, hinner, rfl⟩ := Option.map_eq_some_iff.1 (hbegin.symm.trans hjs)
      have hcomma : b ≠ 0x2C := by rintro rfl; cases hinner
      rw [splitStep_collects (by simp) (inArray_stack_ne_nil inner) hjs fun _ hb => absurd hb hcomma] at h
      cases h
      exact ⟨.inside (((jRun_snoc hcur b).trans (if_neg hws)).trans hinner), rfl⟩

/-- An element ends with a complete value, at a comma or at the bracket that closes the outer array. -/
theorem complete_of_not_goesOn {st : JState} {b : Byte} (hs : st.Sane) (h : ¬ st.GoesOn b) :
    st.stack = [] ∧ st.mode.complete = true ∧ (b = 0x2C ∨ b = 0x5D) := by
  simp only [JState.GoesOn, not_or, not_not, not_and] at h
  obtain ⟨hstack, hb, hmode⟩ := h
  refine ⟨hstack, ?_, or_iff_not_imp_left.2 hb⟩
  by_contra hinc
  exact hs.1 (hmode (Bool.not_eq_true _ ▸ hinc)) hstack

/-- Inside an element the two recognizers go in step; where it ends, one value has been read. -/
theorem splitStep_inside {c : Params} (hd : 1 ≤ c.jsonMaxDepth) {inner : JState} {cur : Bytes} {els : List Bytes}
    {b : Byte} {st' : SplitState} (hcur : jRun (c.jsonMaxDepth - 1) ⟨.value, []⟩ cur = some inner)
    (h : splitStep c.jsonMaxDepth ⟨inner.inArray, cur, els⟩ b = some st') :
    Splitting c.jsonMaxDepth st' ∧
      (st'.els = els ∨ (c.ReadsValue cur ∧ st'.els = els ++ [stripBy isJws cur])) := by
  obtain ⟨js, hjs⟩ := jStep_of_splitStep h
  by_cases hgo : inner.GoesOn b
  · obtain ⟨inner', hinner, rfl⟩ := Option.map_eq_some_iff.1 ((jStep_inArray hd hgo).symm.trans hjs)
    have hcomma (hstack : inner.inArray.stack = [.arr]) (hb : b = 0x2C) : inner'.inArray.mode ≠ .value := by
      subst hb
      have hnil : inner.stack = [] := by simpa [JState.inArray] using hstack
      obtain ⟨hinc, -⟩ := (hgo.resolve_left (not_not.2 hnil)).resolve_left fun hne => hne.1 rfl
      exact (jStep_comma_ne_value hinc hinner : inner'.mode ≠ .value)
    rw [splitStep_collects (inArray_stack_ne_nil inner) (inArray_stack_ne_nil inner') hjs hcomma] at h
    cases h
    exact ⟨.inside ((jRun_snoc hcur b).trans hinner), .inl rfl⟩
  · obtain ⟨hstack, hcomplete, hb⟩ := complete_of_not_goesOn (jRun_sane start_sane hcur) hgo
    obtain ⟨mode, stack⟩ := inner
    obtain rfl : stack = [] := hstack
    have hreads : c.ReadsValue cur := ⟨mode, hcur, hcomplete⟩
    obtain ⟨hcomma, hclose⟩ := jStep_inArray_of_complete (d := c.jsonMaxDepth) hcomplete
    rcases hb with rfl | rfl
    · simp only [splitStep, JState.inArray, List.nil_append, hcomma] at h
      cases h
      exact ⟨.inside (inner := ⟨.value, []⟩) rfl, .inr ⟨hreads, rfl⟩⟩
    · have hnot : mode ≠ .valueOrEnd := by rintro rfl; cases hcomplete
      have hfound : splitStep c.jsonMaxDepth ⟨⟨mode, [.arr]⟩, cur, els⟩ 0x5D =
          some ⟨⟨.after, []⟩, [], els ++ [stripBy isJws cur]⟩ := by
        simp only [splitStep, hclose]
        simp [hnot]
      cases hfound.symm.trans h
      exact ⟨.outside (.inr rfl), .inr ⟨hreads, rfl⟩⟩

/-- One byte of SPLIT_ARRAY finds no element, or one value with whitespace around it. -/
theorem splitStep_splitting {c : Params} (hd : 1 ≤ c.jsonMaxDepth) {st st' : SplitState} {b : Byte}
    (hs : Splitting c.jsonMaxDepth st) (h : splitStep c.jsonMaxDepth st b = some st') :
    Splitting c.jsonMaxDepth st' ∧
      (st'.els = st.els ∨ (c.ReadsValue st.cur ∧ st'.els = st.els ++ [stripBy isJws st.cur])) := by
  cases hs with
  | outside hmode => exact (splitStep_outside hd hmode h).imp_right .inl
  | opened hcur => exact (splitStep_opened hd hcur h).imp_right .inl
  | inside hcur => exact splitStep_inside hd hcur h

/-- The bytes SPLIT_ARRAY holds come from the payload. -/
def SplitState.Holds (P : Byte → Prop) (st : SplitState) : Prop :=
  (∀ x ∈ st.cur, P x) ∧ ∀ e ∈ st.els, ∀ x ∈ e, P x

theorem mem_of_mem_stripBy {p : Byte → Bool} {b : Bytes} {x : Byte} (h : x ∈ stripBy p b) : x ∈ b := by
  obtain ⟨lead, trail, hb, -⟩ := stripBy_spec p b
  rw [hb]
  simp [h]

theorem splitStep_holds {d : Nat} {P : Byte → Prop} {st st' : SplitState} {b : Byte} (hb : P b)
    (hs : st.Holds P) (h : splitStep d st b = some st') : st'.Holds P := by
  obtain ⟨hcur, hels⟩ := hs
  have hfound : ∀ e ∈ st.els ++ [stripBy isJws st.cur], ∀ x ∈ e, P x := by
    intro e he x hx
    rcases List.mem_append.1 he with he | he
    · exact hels e he x hx
    · rw [List.mem_singleton.1 he] at hx
      exact hcur x (mem_of_mem_stripBy hx)
  have hgrown : ∀ x ∈ st.cur ++ [b], P x := by
    intro x hx
    rcases List.mem_append.1 hx with hx | hx
    · exact hcur x hx
    · rwa [List.mem_singleton.1 hx]
  obtain ⟨js, hjs⟩ := jStep_of_splitStep h
  simp only [splitStep, hjs] at h
  split_ifs at h <;> cases h
  · exact ⟨hcur, hels⟩
  · exact ⟨nofun, hfound⟩
  · exact ⟨nofun, hels⟩
  · exact ⟨nofun, hfound⟩
  · exact ⟨hgrown, hels⟩

/-- SPLIT_ARRAY keeps where it stands, the elements it finds, and the bytes it holds. -/
theorem splitRun_elements {c : Params} (hd : 1 ≤ c.jsonMaxDepth) {P : Byte → Prop} {p : Bytes} :
    ∀ {st st' : SplitState}, (∀ x ∈ p, P x) → Splitting c.jsonMaxDepth st → st.Holds P →
      (∀ e ∈ st.els, c.isElement e = true) → splitRun c.jsonMaxDepth st p = some st' →
      st'.Holds P ∧ ∀ e ∈ st'.els, c.isElement e = true := by
  induction p with
  | nil =>
    intro st st' _ _ hholds hels h
    cases h
    exact ⟨hholds, hels⟩
  | cons b bs ih =>
    intro st st' hp hs hholds hels h
    obtain ⟨u, hu, h⟩ := Option.bind_eq_some_iff.1 h
    obtain ⟨hsplit, hnew⟩ := splitStep_splitting hd hs hu
    refine ih (fun x hx => hp x (by simp [hx])) hsplit (splitStep_holds (hp b (by simp)) hholds hu) ?_ h
    rcases hnew with hsame | ⟨hreads, hmore⟩
    · rwa [hsame]
    · intro e he
      rw [hmore, List.mem_append, List.mem_singleton] at he
      rcases he with he | rfl
      · exact hels e he
      · exact isElement_stripBy hreads

/-- The elements of a payload array are JSON values (rule R84), made of bytes of the payload. -/
theorem splitArray_elements {c : Params} (hd : 1 ≤ c.jsonMaxDepth) {p : Bytes} {els : List Bytes}
    (h : splitArray c p = some els) : ∀ e ∈ els, c.isElement e = true ∧ ∀ x ∈ e, x ∈ p := by
  unfold splitArray at h
  split at h
  · cases h
  · rename_i st hrun
    split_ifs at h
    cases h
    obtain ⟨⟨-, hbytes⟩, helems⟩ := splitRun_elements hd (P := (· ∈ p)) (st := ⟨⟨.value, []⟩, [], []⟩)
      (fun x hx => hx) (.outside (.inl rfl)) ⟨nofun, nofun⟩ nofun hrun
    exact fun e he => ⟨helems e he, hbytes e he⟩

/-! ## What a wire line decodes to (rules R31, R71, R142) -/

theorem legal_jsonMaxDepth {c : Params} (h : c.legal = true) : 1 ≤ c.jsonMaxDepth := by
  simp only [Params.legal, Bool.and_eq_true, decide_eq_true_eq] at h
  obtain ⟨⟨-, ⟨⟨⟨-, hdepth⟩, -⟩, -⟩⟩, -⟩ := h
  exact hdepth

/-- The payload of an accepted line stands in the line. -/
theorem payload_mem_of_lineParse {c : Params} (hl : c.legal = true) {b : Bytes} {l : Line} {v : Verdict}
    (h : lineParse c b = .ok l v) {x : Byte} (hx : x ∈ l.payload) : x ∈ b := by
  obtain ⟨before, f, trail, rfl, -, -, ⟨lead, p, r, rfl, -, -, -, -, halt⟩, -⟩ := (lineParse_eq_ok_iff hl).1 h
  have hmem {r' : Bytes} (hr : c.StructuredAmid r' l.payload ∨ c.BareAmid r' l.payload) : x ∈ r' := by
    rcases hr with ⟨_, _, rfl, -⟩ | ⟨_, _, rfl, -⟩ <;> simp [hx]
  rcases halt with ⟨-, hA⟩ | ⟨-, -, hB⟩ | ⟨-, -, -, hC⟩
  · simp [hmem (.inl hA)]
  · simp [hmem (.inr hB)]
  · exact List.mem_append_left _ (List.mem_append_left _ (hmem (.inr hC)))

/-- The payload of an accepted line is structured or a bare token (rules R123, R124). -/
theorem payload_form_of_lineParse {c : Params} (hl : c.legal = true) {b : Bytes} {l : Line} {v : Verdict}
    (h : lineParse c b = .ok l v) :
    structuredShape l.payload = true ∨ (l.payload ≠ [] ∧ ∀ x ∈ l.payload, c.isWs x = false) := by
  have hbare {r : Bytes} (hr : c.BareAmid r l.payload) :
      l.payload ≠ [] ∧ ∀ x ∈ l.payload, c.isWs x = false := by
    obtain ⟨_, _, -, -, -, -, hne, htoken⟩ := hr
    exact ⟨hne, htoken⟩
  obtain ⟨_, _, _, -, -, -, ⟨_, _, _, -, -, -, -, -, halt⟩, -⟩ := (lineParse_eq_ok_iff hl).1 h
  rcases halt with ⟨-, hA⟩ | ⟨-, -, hB⟩ | ⟨-, -, -, hC⟩
  · obtain ⟨_, _, -, -, hform⟩ := hA
    exact .inl (structuredShape_iff.2 hform)
  · exact .inr (hbare hB)
  · exact .inr (hbare hC)

/-- A RAW field of a decoded value is one JSON value without NL (rules R84, R142). -/
theorem plDec_known_rawContract {c : Params} (hl : c.legal = true) {l : Line} (hnl : c.nl ∉ l.payload) {v : Variant}
    (h : plDec c l = .known v) : v.rawContract c = true := by
  refine Variant.rawContract_iff.2 fun b hb => ?_
  rcases field_of_plDec_known h hb with h0 | h0 | ⟨els, hels, ty, e, he, hdec⟩
  · cases h0
  · cases h0
  · obtain rfl := decField_eq_raw hdec
    obtain ⟨helem, hbytes⟩ := splitArray_elements (legal_jsonMaxDepth hl) hels b he
    exact ⟨helem, fun hmem => hnl (hbytes _ hmem)⟩

/-- The LINE row of a value is well-formed where its INT and RAW fields are. -/
theorem wellFormed_lineOfVariant {c : Params} {v : Variant} (ck : CkForm) (hrange : v.inRange c = true)
    (hraw : v.rawContract c = true) : wellFormed c (lineOfVariant ck v) = true := by
  cases v with
  | publish p => exact Bool.and_eq_true_iff.2 ⟨hrange, hraw⟩
  | timeQuery q => exact hrange
  | timeReply r => exact hrange
  | profileStart p => exact hrange

/-- A line of an unregistered word run that LINE_PARSE accepts is well-formed (rule R233). -/
theorem unknownLineOk_of_lineParse {c : Params} (hl : c.legal = true) {b : Bytes} (hnl : c.nl ∉ b) {l : Line}
    {v : Verdict} (h : lineParse c b = .ok l v) (hunknown : plDec c l = .unknown) : c.unknownLineOk l = true := by
  obtain ⟨_, _, _, -, -, -, hread, -⟩ := (lineParse_eq_ok_iff hl).1 h
  obtain ⟨hword, -⟩ := word_payload_of_lineReading hread
  have hfind := plDec_eq_unknown.1 hunknown
  have hclean : ∀ x ∈ l.payload, x ≠ c.nl := by
    rintro x hx rfl
    exact hnl (payload_mem_of_lineParse hl h hx)
  have hform := payload_form_of_lineParse hl h
  simp only [Params.unknownLineOk, hword, hfind, Bool.and_eq_true, Bool.or_eq_true, decide_eq_true_eq,
    List.all_eq_true, bne_iff_ne, Bool.not_eq_true']
  refine ⟨⟨⟨trivial, rfl⟩, hform.imp_right fun ⟨hne, htoken⟩ => ⟨List.length_pos_iff.2 hne, htoken⟩⟩, hclean⟩

/-- A decoded line is one LINE_PARSE accepts, of an unregistered word run or with a value. -/
theorem decodeLine_eq_ok {c : Params} {b : Bytes} {i : Instr} (h : decodeLine c b = .ok i) :
    ∃ l verdict, lineParse c b = .ok l verdict ∧
      ((plDec c l = .unknown ∧ i = .lineUnknown verdict.form l) ∨
        ∃ v, plDec c l = .known v ∧ i = lineOfVariant verdict.form v) := by
  unfold decodeLine at h
  split at h
  · cases h
  · cases h
  · rename_i l verdict hparse
    split at h
    · rename_i hdec
      cases h
      exact ⟨l, verdict, hparse, .inl ⟨hdec, rfl⟩⟩
    · cases h
    · rename_i v hdec
      cases h
      exact ⟨l, verdict, hparse, .inr ⟨v, hdec, rfl⟩⟩

theorem format_lineOfVariant (ck : CkForm) (v : Variant) : (lineOfVariant ck v).format = .line := by
  cases v <;> rfl

/-- Settles O24, by what LINE_PARSE accepts and what PL_DEC makes of its payload. -/
theorem decodedLinesAreWellFormed : Obligations.DecodedLinesAreWellFormed := by
  intro c b i hl hnl h
  obtain ⟨l, verdict, hparse, ⟨hunknown, rfl⟩ | ⟨v, hknown, rfl⟩⟩ := decodeLine_eq_ok h
  · exact ⟨unknownLineOk_of_lineParse hl hnl hparse hunknown, rfl⟩
  · have hclean : c.nl ∉ l.payload := fun hx => hnl (payload_mem_of_lineParse hl hparse hx)
    exact ⟨wellFormed_lineOfVariant _ (plDec_known_inRange hknown) (plDec_known_rawContract hl hclean hknown),
      format_lineOfVariant _ v⟩

end Sys2Proof

/-! ## FEED cut into chunks (rules R51, R52, R202 to R204, R236)

A FEED is one line after the other and then a tail; where a chunk is cut does not show in what they do. -/

namespace Sys2Proof.Machine

open Sys2Proof

/-! ### The command -/

theorem exec_feed_eq_next {s t : State} {data : Bytes} {w : Time} :
    exec (.feed data w) s = .next t ↔
      s.phase = .running ∧ s.cfg.chunkOk data = true ∧ s.begin.feed data w = .next t := by
  rw [exec, execFeed, whenRunning_eq_next, inDomain_eq_next, State.begin_cfg]

theorem Params.chunkOk_of_unbounded {c : Params} (h : c.chunkMax = none) (data : Bytes) : c.chunkOk data = true := by
  simp [Params.chunkOk, h]

/-! ### The first line of a chunk, and a chunk without lines -/

theorem splitLines_append_nl {nl : Byte} {part : Bytes} (h : nl ∉ part) (rest : Bytes) :
    splitLines nl (part ++ nl :: rest) = (part :: (splitLines nl rest).1, (splitLines nl rest).2) := by
  induction part with
  | nil => exact splitLines_nl nl rest
  | cons b part ih =>
    obtain ⟨hb, hpart⟩ := not_or.1 (List.mem_cons.not.1 h)
    simp [splitLines, ih hpart, Ne.symm hb]

/-- A chunk without a newline is all tail (rule R204). -/
theorem State.feed_of_no_nl {s : State} {data : Bytes} (h : s.cfg.nl ∉ data) (w : Time) :
    s.feed data w = .next (s.feedTail w data) := by
  simp only [State.feed, splitLines_of_no_nl h, State.feedLines_nil, Ans.next_andThen]

/-- FEED does the first line of a chunk, then it is a FEED of the rest (rule R203). -/
theorem State.feed_append_nl {s : State} {part : Bytes} (h : s.cfg.nl ∉ part) (rest : Bytes) (w : Time) :
    s.feed (part ++ s.cfg.nl :: rest) w = (s.feedLine w part).andThen fun t => t.feed rest w := by
  rw [State.feed, splitLines_append_nl h, State.feedLines_cons, Ans.andThen_assoc]
  cases hline : s.feedLine w part with
  | next t => simp only [Ans.next_andThen, State.feed, (State.feedLine_acc_cfg hline).2]
  | fault _ | refused _ => rfl

/-! ### The tail of a chunk -/

theorem State.stampLine_eq (s : State) (w : Time) :
    s.stampLine w = s.setLineT (if s.acc = [] then w else s.lineT) := by
  rcases s.stampLine_cases w with ⟨hacc, h⟩ | ⟨hacc, h⟩ <;> rw [h]
  · rw [if_pos hacc]
  · rw [if_neg hacc]; rfl

@[simp] theorem State.feedTail_nil (s : State) (w : Time) : s.feedTail w [] = s := rfl

/-- A tail that stays below the bound is appended (rules R52, R204). -/
theorem State.feedTail_of_lt {s : State} {tail : Bytes} (htail : tail ≠ [])
    (hlen : s.acc.length + tail.length < s.cfg.accMax) (w : Time) :
    s.feedTail w tail = (s.stampLine w).accAppend tail := by
  rw [State.feedTail, if_neg htail, State.checkOverflow, if_neg (by simpa using hlen)]

/-- A tail that reaches the bound empties the accumulator (rules R204, R236). -/
theorem State.feedTail_of_le {s : State} {tail : Bytes} (htail : tail ≠ [])
    (hlen : s.cfg.accMax ≤ s.acc.length + tail.length) (w : Time) :
    s.feedTail w tail = (s.stampLine w).accClear.emit (.overflow (s.acc.length + tail.length)) := by
  rw [State.feedTail, if_neg htail, State.checkOverflow, if_pos (by simpa using hlen)]
  simp only [State.accAppend_acc, State.stampLine_acc, List.length_append]
  rfl

/-- Settles O36: a chunk without a newline is one tail. -/
theorem chunkTailAppendsOrOverflows : Obligations.ChunkTailAppendsOrOverflows := by
  intro s data w hrun hok hdata hnl
  have hexec : exec (.feed data w) s = .next (s.begin.feedTail w data) :=
    exec_feed_eq_next.2 ⟨hrun, hok, State.feed_of_no_nl (s := s.begin) hnl w⟩
  refine ⟨fun hlen => ?_, fun hlen => ?_⟩
  · rw [State.feedTail_of_lt (s := s.begin) hdata hlen, State.stampLine_eq] at hexec
    have hwrite := memWrite_accAppend s data
    exact ⟨_, hexec, rfl, fun a ha => memRead_memWrite_other hwrite ha, memRead_memWrite_same hwrite⟩
  · rwa [State.feedTail_of_le (s := s.begin) hdata hlen, State.stampLine_eq] at hexec

/-! ### Two chunks in place of one -/

/-- On an accumulator with bytes in it no line begins, so the line timestamp stays (rule R202). -/
theorem State.stampLine_of_acc_ne_nil {s : State} (h : s.acc ≠ []) (w : Time) : s.stampLine w = s := if_neg h

/-- Bytes of a line fed before the rest of it: the accumulator holds them when the rest comes (rules R202, R203). -/
theorem feedLine_accAppend {s : State} {a : Bytes} (ha : a ≠ []) (part : Bytes) (w : Time) :
    ((s.stampLine w).accAppend a).feedLine w part = s.feedLine w (a ++ part) := by
  have hacc : ((s.stampLine w).accAppend a).acc ≠ [] := by simp [ha]
  rw [State.feedLine, State.stampLine_of_acc_ne_nil hacc, State.accAppend_acc, State.stampLine_acc,
    List.append_assoc]
  rfl

/-- Bytes of a tail fed before the rest of it: the size test sees the same bytes (rule R204). -/
theorem feedTail_accAppend {s : State} {a b : Bytes} (ha : a ≠ []) (hb : b ≠ []) (w : Time) :
    ((s.stampLine w).accAppend a).feedTail w b = s.feedTail w (a ++ b) := by
  have hacc : ((s.stampLine w).accAppend a).acc ≠ [] := by simp [ha]
  have hab : a ++ b ≠ [] := by simp [ha]
  rw [State.feedTail, if_neg hb, State.stampLine_of_acc_ne_nil hacc, State.feedTail, if_neg hab]
  simp only [State.accAppend, List.append_assoc]

/-- A chunk without a newline, below the bound, put before another one. -/
theorem feed_append_of_no_nl {s : State} {a : Bytes} (hnl : s.cfg.nl ∉ a)
    (hlen : s.acc.length + a.length < s.cfg.accMax) (b : Bytes) (w : Time) :
    s.feed (a ++ b) w = (s.feedTail w a).feed b w := by
  by_cases ha : a = []
  · rw [ha, List.nil_append, State.feedTail_nil]
  by_cases hb : b = []
  · rw [hb, List.append_nil, State.feed_of_no_nl hnl, State.feed_of_no_nl List.not_mem_nil, State.feedTail_nil]
  have hcfg : ((s.stampLine w).accAppend a).cfg.nl = s.cfg.nl := by simp
  rw [State.feedTail_of_lt ha hlen]
  by_cases hnlb : s.cfg.nl ∈ b
  · obtain ⟨part, rest, rfl, hpart⟩ := List.eq_append_cons_of_mem hnlb
    have hapart : s.cfg.nl ∉ a ++ part := by simp [hnl, hpart]
    rw [← List.append_assoc, State.feed_append_nl hapart, ← feedLine_accAppend ha]
    rw [← hcfg] at hpart ⊢
    rw [State.feed_append_nl hpart]
  · have hab : s.cfg.nl ∉ a ++ b := by simp [hnl, hnlb]
    rw [State.feed_of_no_nl hab, State.feed_of_no_nl (hcfg ▸ hnlb), feedTail_accAppend ha hb]

/-- FEED of two chunks one after the other is FEED of both in one, refusals included, by induction on the lines of
the first chunk (rules R51, R204). -/
theorem feed_append {s : State} {a : Bytes} (hlen : s.acc.length + a.length < s.cfg.accMax) (b : Bytes) (w : Time) :
    s.feed (a ++ b) w = (s.feed a w).andThen fun t => t.feed b w := by
  by_cases hnl : s.cfg.nl ∈ a
  · obtain ⟨part, rest, ha, hpart⟩ := List.eq_append_cons_of_mem hnl
    rw [ha, List.append_assoc, List.cons_append, State.feed_append_nl hpart, State.feed_append_nl hpart,
      Ans.andThen_assoc]
    cases hline : s.feedLine w part with
    | next t =>
      obtain ⟨hacc, hcfg⟩ := State.feedLine_acc_cfg hline
      have hrest : t.acc.length + rest.length < t.cfg.accMax := by
        simp only [ha, List.length_append, List.length_cons] at hlen
        rw [hacc, hcfg, List.length_nil]
        omega
      simpa only [Ans.next_andThen] using feed_append hrest b w
    | fault _ | refused _ => rfl
  · rw [feed_append_of_no_nl hnl hlen, State.feed_of_no_nl hnl, Ans.next_andThen]
termination_by a.length
decreasing_by simp only [ha, List.length_append, List.length_cons]; omega

/-! ### The events of earlier chunks -/

/-- The state with events emitted before its own, and without a result. -/
def State.withEarlierEvents (s : State) (es : List Event) : State := { s with out := ⟨.none, es ++ s.out.events⟩ }

@[simp] theorem withEarlierEvents_acc (s : State) (es : List Event) : (s.withEarlierEvents es).acc = s.acc := rfl

@[simp] theorem withEarlierEvents_cfg (s : State) (es : List Event) : (s.withEarlierEvents es).cfg = s.cfg := rfl

theorem emit_withEarlierEvents (s : State) (es : List Event) (e : Event) :
    (s.withEarlierEvents es).emit e = (s.emit e).withEarlierEvents es := by
  simp only [State.withEarlierEvents, State.emit, List.append_assoc]

theorem dispatch_withEarlierEvents {s t : State} {v : Variant} (es : List Event) (h : s.dispatch v = .next t) :
    (s.withEarlierEvents es).dispatch v = .next (t.withEarlierEvents es) := by
  cases v with
  | timeQuery q =>
    obtain ⟨hmark, rfl⟩ := State.tsOnq_eq_next.1 h
    exact State.tsOnq_eq_next.2 ⟨hmark, rfl⟩
  | timeReply _ | publish _ => cases h; rfl
  | profileStart _ => cases h; exact congrArg _ (emit_withEarlierEvents s es _)

theorem lineProcess_withEarlierEvents {s t : State} {b : Bytes} (es : List Event) (h : s.lineProcess b = .next t) :
    (s.withEarlierEvents es).lineProcess b = .next (t.withEarlierEvents es) := by
  unfold State.lineProcess at h ⊢
  rw [withEarlierEvents_cfg]
  cases hparse : lineParse s.cfg b with
  | structural | cksum _ _ =>
    simp only [hparse] at h ⊢
    cases h
    exact congrArg _ (emit_withEarlierEvents s es _)
  | ok l verdict =>
    cases hdec : plDec s.cfg l with
    | unknown | decodeError =>
      simp only [hparse, hdec] at h ⊢
      cases h
      exact congrArg _ (emit_withEarlierEvents s es _)
    | known v =>
      simp only [hparse, hdec] at h ⊢
      exact dispatch_withEarlierEvents es h

theorem stampLine_withEarlierEvents (s : State) (w : Time) (es : List Event) :
    (s.withEarlierEvents es).stampLine w = (s.stampLine w).withEarlierEvents es := by
  rw [State.stampLine_eq, State.stampLine_eq]
  rfl

theorem feedLines_withEarlierEvents {w : Time} (es : List Event) {parts : List Bytes} :
    ∀ {s t : State}, s.feedLines w parts = .next t →
      (s.withEarlierEvents es).feedLines w parts = .next (t.withEarlierEvents es) := by
  induction parts with
  | nil =>
    intro s t h
    cases h
    rfl
  | cons part parts ih =>
    intro s t h
    obtain ⟨u, hu, ht⟩ := Ans.andThen_eq_next.1 h
    have hline : (s.withEarlierEvents es).feedLine w part = .next (u.withEarlierEvents es) := by
      rw [State.feedLine, stampLine_withEarlierEvents]
      exact lineProcess_withEarlierEvents es hu
    exact Ans.andThen_eq_next.2 ⟨_, hline, ih ht⟩

theorem feedTail_withEarlierEvents (s : State) (w : Time) (tail : Bytes) (es : List Event) :
    (s.withEarlierEvents es).feedTail w tail = (s.feedTail w tail).withEarlierEvents es := by
  by_cases htail : tail = []
  · rw [htail, State.feedTail_nil, State.feedTail_nil]
  rcases lt_or_ge (s.acc.length + tail.length) s.cfg.accMax with hlen | hlen
  · rw [State.feedTail_of_lt (s := s.withEarlierEvents es) htail hlen, State.feedTail_of_lt htail hlen,
      stampLine_withEarlierEvents]
    rfl
  · rw [State.feedTail_of_le (s := s.withEarlierEvents es) htail hlen, State.feedTail_of_le htail hlen,
      stampLine_withEarlierEvents]
    exact emit_withEarlierEvents (s.stampLine w).accClear es _

/-- FEED puts its events behind those already in the output and reads none of them. -/
theorem feed_withEarlierEvents {s t : State} {data : Bytes} {w : Time} (es : List Event)
    (h : s.feed data w = .next t) : (s.withEarlierEvents es).feed data w = .next (t.withEarlierEvents es) := by
  obtain ⟨u, hu, rfl⟩ := State.feed_eq_next.1 h
  exact State.feed_eq_next.2 ⟨_, feedLines_withEarlierEvents es hu, (feedTail_withEarlierEvents u w _ es).symm⟩

/-- What FEED leaves is the state that the next operation begins in, with its events put back. -/
theorem begin_withEarlierEvents_of_feed {s t : State} {data : Bytes} {w : Time}
    (h : s.begin.feed data w = .next t) : t.begin.withEarlierEvents t.out.events = t := by
  have hown : s.begin.feed data w = .next (t.withEarlierEvents []) := feed_withEarlierEvents [] h
  calc t.begin.withEarlierEvents t.out.events
      = t.withEarlierEvents [] := by simp [State.withEarlierEvents, State.begin]
    _ = t := Host.Outcome.next.inj (hown.symm.trans h)

/-- Settles O34: the second chunk is fed to what the first one left, its events behind those of the first. -/
theorem chunkBoundariesCarryNoMeaning : Obligations.ChunkBoundariesCarryNoMeaning := by
  intro s s1 s2 a b w hmax hlen ha hb
  obtain ⟨hrun, -, hfeedA⟩ := exec_feed_eq_next.1 ha
  obtain ⟨-, -, hfeedB⟩ := exec_feed_eq_next.1 hb
  rw [List.length_append] at hlen
  refine exec_feed_eq_next.2 ⟨hrun, Params.chunkOk_of_unbounded hmax _, ?_⟩
  calc s.begin.feed (a ++ b) w
      = s1.feed b w := by rw [feed_append (s := s.begin) hlen, hfeedA, Ans.next_andThen]
    _ = (s1.begin.withEarlierEvents s1.out.events).feed b w := by rw [begin_withEarlierEvents_of_feed hfeedA]
    _ = .next (s2.withEarlierEvents s1.out.events) := feed_withEarlierEvents _ hfeedB

end Sys2Proof.Machine

/-! ## The checksum field (rules R75 to R77, R102, R103) -/

namespace Sys2Proof

/-! ### The alphabet of legal parameters -/

theorem legal_alphabet {c : Params} (h : c.legal = true) :
    c.alphabet.length = 64 ∧ c.alphabet.Nodup ∧ ∀ x ∈ c.alphabet, isB64Url x = true := by
  simp only [Params.legal, Bool.and_eq_true, beq_iff_eq, decide_eq_true_eq, List.all_eq_true] at h
  obtain ⟨⟨⟨⟨⟨⟨⟨hlen, hnodup⟩, hall⟩, -⟩, -⟩, -⟩, -⟩, -⟩ := h
  exact ⟨hlen, hnodup, hall⟩

/-- The default alphabet of rule R75 lists the class B64URL of rule R13. -/
theorem mem_base64url_of_isB64Url : ∀ x : Byte, isB64Url x = true → x ∈ Config.base64url := by
  decide +kernel

/-- A legal alphabet holds every B64URL byte: it has 64 of them, each once. -/
theorem mem_alphabet_iff {c : Params} (h : c.legal = true) {x : Byte} : x ∈ c.alphabet ↔ isB64Url x = true := by
  obtain ⟨hlen, hnodup, hall⟩ := legal_alphabet h
  refine ⟨hall x, fun hx => ?_⟩
  have hsub : c.alphabet.Subperm Config.base64url :=
    hnodup.subperm fun y hy => mem_base64url_of_isB64Url y (hall y hy)
  have hperm : c.alphabet.Perm Config.base64url := hsub.perm_of_length_le (by rw [hlen]; rfl)
  exact hperm.mem_iff.2 (mem_base64url_of_isB64Url x hx)

theorem b64Char_eq_getElem {c : Params} (h : c.legal = true) (v : BitVec 6) :
    ∃ hv : v.toNat < c.alphabet.length, c.b64Char v = c.alphabet[v.toNat] := by
  have hv : v.toNat < c.alphabet.length := by rw [(legal_alphabet h).1]; exact v.isLt
  exact ⟨hv, by simp [Params.b64Char, hv]⟩

theorem isB64Url_b64Char {c : Params} (h : c.legal = true) (v : BitVec 6) : isB64Url (c.b64Char v) = true := by
  obtain ⟨hv, hchar⟩ := b64Char_eq_getElem h v
  rw [hchar]
  exact (legal_alphabet h).2.2 _ (List.getElem_mem hv)

theorem b64Val_b64Char {c : Params} (h : c.legal = true) (v : BitVec 6) : c.b64Val (c.b64Char v) = v := by
  obtain ⟨hv, hchar⟩ := b64Char_eq_getElem h v
  rw [hchar, Params.b64Val, (legal_alphabet h).2.1.idxOf_getElem, BitVec.ofNat_toNat, BitVec.setWidth_eq]

theorem b64Char_b64Val {c : Params} (h : c.legal = true) {x : Byte} (hx : isB64Url x = true) :
    c.b64Char (c.b64Val x) = x := by
  have hidx : c.alphabet.idxOf x < c.alphabet.length := List.idxOf_lt_length_of_mem ((mem_alphabet_iff h).2 hx)
  have hval : (c.b64Val x).toNat = c.alphabet.idxOf x := by
    rw [Params.b64Val, BitVec.toNat_ofNat, Nat.mod_eq_of_lt]
    rwa [(legal_alphabet h).1] at hidx
  simp [Params.b64Char, hval, hidx]

/-! ### The three groups (rule R76) -/

theorem ckAssemble_toNat (c0 c1 c2 : BitVec 6) :
    (ckAssemble c0 c1 c2).toNat = c0.toNat * 4096 + c1.toNat * 64 + c2.toNat := by
  have happend : ckAssemble c0 c1 c2 = (c0 ++ c1 ++ c2 : BitVec 18) := by
    ext i hi
    simp [ckAssemble]
    grind
  rw [happend, BitVec.toNat_append, BitVec.toNat_append, ← Nat.shiftLeft_add_eq_or_of_lt c2.isLt,
    ← Nat.shiftLeft_add_eq_or_of_lt c1.isLt]
  simp only [Nat.shiftLeft_eq]
  omega

theorem ckAssemble_groups (v : U18) :
    ckAssemble (v.extractLsb' 12 6) (v.extractLsb' 6 6) (v.extractLsb' 0 6) = v := by
  refine BitVec.eq_of_toNat_eq ?_
  have := v.isLt
  simp only [ckAssemble_toNat, BitVec.extractLsb'_toNat, Nat.shiftRight_eq_div_pow]
  omega

theorem groups_ckAssemble (c0 c1 c2 : BitVec 6) :
    (ckAssemble c0 c1 c2).extractLsb' 12 6 = c0 ∧ (ckAssemble c0 c1 c2).extractLsb' 6 6 = c1 ∧
      (ckAssemble c0 c1 c2).extractLsb' 0 6 = c2 := by
  have h0 := c0.isLt
  have h1 := c1.isLt
  have h2 := c2.isLt
  refine ⟨BitVec.eq_of_toNat_eq ?_, BitVec.eq_of_toNat_eq ?_, BitVec.eq_of_toNat_eq ?_⟩ <;>
    simp only [BitVec.extractLsb'_toNat, ckAssemble_toNat, Nat.shiftRight_eq_div_pow] <;> omega

/-! ### CK_ENC and CK_DEC (rules R102, R103) -/

theorem isB64Url_of_mem_ckEnc {c : Params} (h : c.legal = true) (v : U18) : ∀ x ∈ ckEnc c v, isB64Url x = true := by
  simp [ckEnc, isB64Url_b64Char h]

theorem ckDec_ckEnc {c : Params} (h : c.legal = true) (v : U18) : ckDec c (ckEnc c v) = some v := by
  refine ckDec_eq_some.2 ⟨_, _, _, rfl, isB64Url_b64Char h _, isB64Url_b64Char h _, isB64Url_b64Char h _, ?_⟩
  simp only [b64Val_b64Char h, ckAssemble_groups]

theorem ckEnc_of_ckDec {c : Params} (h : c.legal = true) {f : Bytes} {v : U18} (hf : ckDec c f = some v) :
    ckEnc c v = f := by
  obtain ⟨f0, f1, f2, rfl, h0, h1, h2, rfl⟩ := ckDec_eq_some.1 hf
  obtain ⟨g0, g1, g2⟩ := groups_ckAssemble (c.b64Val f0) (c.b64Val f1) (c.b64Val f2)
  simp only [ckEnc, g0, g1, g2, b64Char_b64Val h h0, b64Char_b64Val h h1, b64Char_b64Val h h2]

end Sys2Proof

namespace Sys2Proof.Machine

open Sys2Proof

/-! ### The rows -/

/-- An operation that only answers changes nothing but the output. -/
theorem whenRunning_answer {s : State} (hr : s.phase = .running) (r : State → Result) :
    (whenRunning s fun s => answer s (r s)) = .next { s with out := ⟨r s.begin, []⟩ } :=
  whenRunning_of_running _ hr

theorem exec_ckEnc_of_running {s : State} (hr : s.phase = .running) (v : U18) :
    exec (.ckEnc v) s = .next { s with out := ⟨.bytes (ckEnc s.cfg v), []⟩ } :=
  whenRunning_answer hr fun s => .bytes (ckEnc s.cfg v)

theorem exec_ckDec_of_some {s : State} (hr : s.phase = .running) {f : Bytes} {v : U18}
    (hf : ckDec s.cfg f = some v) : exec (.ckDec f) s = .next { s with out := ⟨.value18 v, []⟩ } := by
  rw [exec, execCkDec, whenRunning_of_running _ hr, State.begin_cfg, hf]
  rfl

/-- Settles O5: the characters and the groups of bits are inverse to each other. -/
theorem checksumFieldEncodingIsBijective : Obligations.ChecksumFieldEncodingIsBijective := by
  intro s hr hl
  refine ⟨fun v => ⟨ckEnc s.cfg v, exec_ckEnc_of_running hr v, rfl,
    List.all_eq_true.2 (isB64Url_of_mem_ckEnc hl v), ?_, exec_ckDec_of_some hr (ckDec_ckEnc hl v)⟩,
    fun f hlen hall => ?_⟩
  · simp [ckEnc, b64Val_b64Char hl]
  · obtain ⟨v, hv⟩ := Option.isSome_iff_exists.1 (ckDec_isSome.2 ⟨hlen, hall⟩)
    refine ⟨v, exec_ckDec_of_some hr hv, ?_⟩
    rw [exec_ckEnc_of_running hr, ckEnc_of_ckDec hl hv]

/-- Settles O7, by the value of the three groups. -/
theorem checksumFieldFormsYieldTheirMeaning : Obligations.ChecksumFieldFormsYieldTheirMeaning := by
  intro s hr
  refine ⟨fun c0 c1 c2 => ⟨ckAssemble c0 c1 c2, ?_, ckAssemble_toNat c0 c1 c2⟩, ?_⟩
  · exact whenRunning_answer hr fun _ => .value18 (ckAssemble c0 c1 c2)
  · exact whenRunning_answer hr fun _ => .verdict .bypass

/-! ## Rows that answer without a computation (rules R92 (g), R148, R149) -/

/-- Settles O22: the two rows answer their operand. -/
theorem rawCodecIsIdentity : Obligations.RawCodecIsIdentity :=
  fun _ b hr => ⟨whenRunning_answer hr fun _ => .bytes (encRaw b), whenRunning_answer hr fun _ => .bytes (decRaw b)⟩

/-- Settles O52: the row has no guard and no effect. -/
theorem reservedCodeIsRefused : Obligations.ReservedCodeIsRefused := fun _ => rfl

/-! ## What PL_DEC looks up (rules R86, R142) -/

theorem findDescriptor_isSome {c : Params} {p : Bytes} :
    (findDescriptor c p).isSome = true ↔ p ∈ c.registeredPrefixes := by
  simp [findDescriptor, registry, Params.registeredPrefixes, publishDescriptor, timeQueryDescriptor,
    timeReplyDescriptor, profileStartDescriptor, @eq_comm _ p]

theorem exec_plDec_of_running {s : State} (hr : s.phase = .running) (l : Line) :
    exec (.plDec l) s = .next { s with out := ⟨.decoded (plDec s.cfg l), []⟩ } :=
  whenRunning_answer hr fun s => .decoded (plDec s.cfg l)

/-- Settles O18: the answer is Unknown exactly where no descriptor is found. -/
theorem decoderLooksUpWholePrefix : Obligations.DecoderLooksUpWholePrefix := by
  intro s l hr
  rw [exec_plDec_of_running hr]
  refine ⟨?_, fun hmem hsplit => ?_⟩
  · rw [← findDescriptor_isSome, Bool.not_eq_true, Option.isSome_eq_false_iff, Option.isNone_iff_eq_none,
      ← plDec_eq_unknown]
    constructor
    · intro h
      simpa using congrArg State.out (Host.Outcome.next.inj h)
    · intro h
      rw [h]
  · obtain ⟨d, hd⟩ := Option.isSome_iff_exists.1 (findDescriptor_isSome.2 hmem)
    simp [plDec, hd, hsplit]

end Sys2Proof.Machine

/-! ## Framed lines and the grammar of a line (rules R70, R121 to R125) -/

namespace Sys2Proof

/-! ### The classes of bytes -/

theorem isB64Url_of_isWord {x : Byte} (h : isWord x = true) : isB64Url x = true := by
  simp [isB64Url, h]

theorem isWs_eq_false_of_isWord {c : Params} (hl : c.legal = true) {x : Byte} (h : isWord x = true) :
    c.isWs x = false :=
  isWs_eq_false_of_isB64Url hl (isB64Url_of_isWord h)

theorem isWord_eq_false_of_isWs {c : Params} (hl : c.legal = true) {x : Byte} (h : c.isWs x = true) :
    isWord x = false := by
  by_contra hword
  simp [isWs_eq_false_of_isWord hl (Bool.not_eq_false _ ▸ hword)] at h

theorem ne_nil_of_structuredShape {q : Bytes} (h : structuredShape q = true) : q ≠ [] := by
  rintro rfl
  cases h

theorem head_of_structuredShape {q : Bytes} (h : structuredShape q = true) :
    q.head?.any isOpener = true ∧ ∀ x ∈ q.head?, isWord x = false := by
  rcases structuredShape_iff.1 h with ⟨m, rfl⟩ | ⟨m, rfl⟩ | ⟨m, rfl⟩ <;> simp [isOpener, isWord]

theorem getLast_of_structuredShape {q : Bytes} (h : structuredShape q = true) :
    q.getLast?.any isCloser = true := by
  rcases structuredShape_iff.1 h with ⟨m, rfl⟩ | ⟨m, rfl⟩ | ⟨m, rfl⟩ <;>
    rw [List.getLast?_concat] <;> rfl

/-! ### Readings of framed lines -/

/-- A first byte that is a word character, or begins what follows the word characters, is no whitespace. -/
theorem head_word_append_not_ws {c : Params} (hl : c.legal = true) {p r : Bytes} (hp : ∀ x ∈ p, isWord x = true)
    (hr : p = [] → ∀ x ∈ r.head?, c.isWs x = false) : ∀ x ∈ (p ++ r).head?, c.isWs x = false := by
  cases p with
  | nil => exact hr rfl
  | cons y ys =>
    rintro x ⟨⟩
    exact isWs_eq_false_of_isWord hl (hp y (by simp))

/-- A structured payload right after its word characters is read as such (rule R123 A). -/
theorem lineReading_structured {c : Params} (hl : c.legal = true) {l : Line} (hp : l.pfx.all isWord = true)
    (hq : structuredShape l.payload = true) : c.LineReading (l.pfx ++ l.payload) l := by
  rw [List.all_eq_true] at hp
  refine ⟨[], l.pfx, l.payload, rfl, nofun, ?_, hp, (head_of_structuredShape hq).2, .inl ⟨rfl, ?_⟩⟩
  · exact head_word_append_not_ws hl hp fun _ => (structuredShape_edges hl hq).1
  · exact ⟨[], [], by simp, nofun, structuredShape_iff.1 hq⟩

/-- A bare token between spaces, after at least one word character, is read as such (rule R123 B). -/
theorem lineReading_bare {c : Params} (hl : c.legal = true) {l : Line} (hp : l.pfx.all isWord = true)
    (hne : l.pfx ≠ []) (hq : structuredShape l.payload = false) (hlen : l.payload ≠ [])
    (htoken : ∀ x ∈ l.payload, c.isWs x = false) :
    c.LineReading (l.pfx ++ [0x20] ++ l.payload ++ [0x20]) l := by
  rw [List.all_eq_true] at hp
  have hspace : c.isWs 0x20 = true := by
    simp only [Params.legal, Bool.and_eq_true] at hl
    obtain ⟨⟨⟨⟨-, hspace, -⟩, -⟩, -⟩, -⟩ := hl
    exact hspace
  have hgap : ∀ x ∈ ([0x20] ++ [0x20] : Bytes), c.isWs x = true := by
    rintro x (⟨⟩ | ⟨_, ⟨⟩ | ⟨_, ⟨⟩⟩⟩) <;> exact hspace
  have hbare : c.BareAmid ([0x20] ++ l.payload ++ [0x20]) l.payload :=
    ⟨[0x20], [0x20], rfl, hgap, by simp, by simp, hlen, htoken⟩
  have hnot : ¬ ∃ q, c.StructuredAmid ([0x20] ++ l.payload ++ [0x20]) q := by
    rintro ⟨q, h⟩
    have hshape := ((structuredAmid_iff hl).1 h).1
    rw [← (bareAmid_iff.1 hbare).2, hq] at hshape
    cases hshape
  refine ⟨[], l.pfx, [0x20] ++ l.payload ++ [0x20], by simp, nofun, ?_, hp, ?_, .inr (.inl ⟨hnot, rfl, hbare⟩)⟩
  · exact head_word_append_not_ws hl hp fun h => absurd h hne
  · rintro x ⟨⟩
    rfl

/-- A line with the field of either form is accepted, and its verdict tells the form (rule R125). -/
theorem lineParse_ckFieldOf {c : Params} (hl : c.legal = true) {before : Bytes} {l : Line}
    (hread : c.LineReading before l) (ck : CkForm) :
    ∃ v : Verdict, v.form = ck ∧ lineParse c (before ++ ckFieldOf c ck before l) = .ok l v := by
  cases ck with
  | value =>
    refine ⟨.valid, rfl, (lineParse_eq_ok_iff hl).2
      ⟨before, ckEnc c (crc18 c (c.span before l)), [], by simp [ckFieldOf], rfl, nofun, hread, .inr ⟨rfl, ?_, ?_⟩⟩⟩
    · exact isB64Url_of_mem_ckEnc hl _
    · exact ckDec_ckEnc hl _
  | bypass =>
    exact ⟨.bypass, rfl, (lineParse_eq_ok_iff hl).2
      ⟨before, c.bypass, [], by simp [ckFieldOf], (legal_bypass hl).1, nofun, hread, .inl ⟨rfl, rfl⟩⟩⟩

/-- A structured payload is framed without separators (rule R126). -/
theorem framedBytes_of_structured {l : Line} (hq : structuredShape l.payload = true) :
    framedBytes l = l.pfx ++ l.payload := by
  simp [framedBytes, sepUnless, (head_of_structuredShape hq).1, getLast_of_structuredShape hq]

/-! ### Struct (rules R70, R92 (d), (e)) -/

/-- A field in either form always has a verdict. -/
theorem lineVerdict_ne_structural {c : Params} {before f : Bytes} {l : Line} (hlen : f.length = 3)
    (hf : f = c.bypass ∨ ∀ x ∈ f, isB64Url x = true) : lineVerdict c before l f ≠ .structural := by
  unfold lineVerdict
  by_cases hbypass : f = c.bypass
  · simp [hbypass]
  · have hall := hf.resolve_left hbypass
    obtain ⟨v, hv⟩ : ∃ v, ckDec c f = some v :=
      Option.isSome_iff_exists.1 (ckDec_isSome.2 ⟨hlen, List.all_eq_true.2 hall⟩)
    rw [if_neg hbypass, ckVerify_eq_some.2 ⟨v, hv, rfl⟩]
    cases decide (v = crc18 c (c.span before l)) <;> nofun

/-- LINE_PARSE answers Struct exactly where there is no field or no reading. -/
theorem lineParse_ne_structural_iff {c : Params} (hl : c.legal = true) {b : Bytes} :
    lineParse c b ≠ .structural ↔ ∃ before f trail, b = before ++ f ++ trail ∧ f.length = 3 ∧
      (∀ x ∈ trail, c.isWs x = true) ∧ (f = c.bypass ∨ ∀ x ∈ f, isB64Url x = true) ∧
      ∃ l, c.LineReading before l := by
  constructor
  · intro h
    obtain ⟨before, f, l, hck, hline, -⟩ := (lineParse_eq_iff h).1 rfl
    obtain ⟨trail, hb, hlen, htrail, hf⟩ := (splitCkField_eq_some_iff hl).1 hck
    exact ⟨before, f, trail, hb, hlen, htrail, hf, l, (splitLine_eq_some_iff hl).1 hline⟩
  · rintro ⟨before, f, trail, hb, hlen, htrail, hf, l, hread⟩
    have hck := (splitCkField_eq_some_iff hl).2 ⟨trail, hb, hlen, htrail, hf⟩
    have hline := (splitLine_eq_some_iff hl).2 hread
    simpa only [lineParse, hck, hline] using lineVerdict_ne_structural hlen hf

/-- One of the three alternatives suffices for a reading. -/
theorem exists_lineReading_iff {c : Params} {b : Bytes} :
    (∃ l, c.LineReading b l) ↔ (∃ q, c.StructuredAmid ((b.dropWhile c.isWs).dropWhile isWord) q) ∨
      (∃ q, c.BareAmid ((b.dropWhile c.isWs).dropWhile isWord) q) ∨ ∃ q, c.BareAmid b q := by
  simp only [lineReading_iff, Params.Alternatives]
  constructor
  · rintro ⟨l, ⟨-, h⟩ | ⟨-, -, h⟩ | ⟨-, -, -, h⟩⟩
    · exact .inl ⟨_, h⟩
    · exact .inr (.inl ⟨_, h⟩)
    · exact .inr (.inr ⟨_, h⟩)
  · intro h
    by_cases hA : ∃ q, c.StructuredAmid ((b.dropWhile c.isWs).dropWhile isWord) q
    · obtain ⟨q, hq⟩ := hA
      exact ⟨⟨_, q⟩, .inl ⟨rfl, hq⟩⟩
    · by_cases hB : ∃ q, c.BareAmid ((b.dropWhile c.isWs).dropWhile isWord) q
      · obtain ⟨q, hq⟩ := hB
        exact ⟨⟨_, q⟩, .inr (.inl ⟨hA, rfl, hq⟩)⟩
      · obtain ⟨q, hq⟩ := (h.resolve_left hA).resolve_left hB
        exact ⟨⟨_, q⟩, .inr (.inr ⟨hA, hB, rfl, hq⟩)⟩

/-- What LINE_PARSE takes for the rest is what follows any word characters that are there. -/
theorem rest_of_word {c : Params} (hl : c.legal = true) {lead pfx mid : Bytes} (hlead : ∀ x ∈ lead, c.isWs x = true)
    (hpfx : ∀ x ∈ pfx, isWord x = true) (hne : pfx ≠ []) (hmid : ∀ x ∈ mid.head?, isWord x = false) :
    ((lead ++ pfx ++ mid).dropWhile c.isWs).dropWhile isWord = mid := by
  have hfirst := head_word_append_not_ws hl (r := mid) hpfx fun h => absurd h hne
  rw [List.append_assoc, (takeWhile_dropWhile_append hlead hfirst).2, (takeWhile_dropWhile_append hpfx hmid).2]

/-- The bytes before the field have a reading exactly when they are whitespace, word characters and a payload. -/
theorem exists_lineReading_iff_parts {c : Params} (hl : c.legal = true) {b : Bytes} :
    (∃ l, c.LineReading b l) ↔ ∃ lead pfx mid payload : Bytes, b = lead ++ pfx ++ mid ∧
      (∀ x ∈ lead, c.isWs x = true) ∧ (∀ x ∈ pfx, isWord x = true) ∧
      (c.StructuredAmid mid payload ∨ c.BareAmid mid payload) := by
  constructor
  · rintro ⟨l, lead, p, r, hb, hlead, -, hp, -, ⟨-, hA⟩ | ⟨-, -, hB⟩ | ⟨-, -, -, hC⟩⟩
    · exact ⟨lead, p, r, l.payload, hb, hlead, hp, .inl hA⟩
    · exact ⟨lead, p, r, l.payload, hb, hlead, hp, .inr hB⟩
    · exact ⟨[], [], b, l.payload, rfl, nofun, nofun, .inr hC⟩
  · rintro ⟨lead, pfx, mid, q, rfl, hlead, hpfx, hmid⟩
    rw [exists_lineReading_iff]
    rcases hmid with ⟨gapA, gapB, rfl, hgap, hform⟩ | ⟨gapA, gapB, rfl, hgap, hA, hB, hne, htoken⟩
    · have hgapA : ∀ x ∈ gapA, c.isWs x = true := fun x hx => hgap x (List.mem_append_left _ hx)
      have hshape := structuredShape_iff.2 hform
      have hfirst := (head_of_structuredShape hshape).2
      left
      by_cases hp : pfx = []
      · subst hp
        have hq : ∀ x ∈ (q ++ gapB).head?, c.isWs x = false ∧ isWord x = false := by
          intro x hx
          rw [List.head?_append_of_ne_nil _ (ne_nil_of_structuredShape hshape)] at hx
          exact ⟨(structuredShape_edges hl hshape).1 x hx, hfirst x hx⟩
        have hws : ∀ x ∈ lead ++ gapA, c.isWs x = true := by
          simpa [or_imp, forall_and] using ⟨hlead, hgapA⟩
        have hrest : lead ++ [] ++ (gapA ++ q ++ gapB) = (lead ++ gapA) ++ (q ++ gapB) := by simp
        rw [hrest, (takeWhile_dropWhile_append hws fun x hx => (hq x hx).1).2,
          dropWhile_eq_self_of_head fun x hx => (hq x hx).2]
        exact ⟨q, [], gapB, rfl, fun x hx => hgap x (List.mem_append_right _ hx), hform⟩
      · refine ⟨q, gapA, gapB, rest_of_word hl hlead hpfx hp ?_, hgap, hform⟩
        cases gapA with
        | nil =>
          rw [List.nil_append, List.head?_append_of_ne_nil _ (ne_nil_of_structuredShape hshape)]
          exact hfirst
        | cons y ys =>
          rintro x ⟨⟩
          exact isWord_eq_false_of_isWs hl (hgapA y (by simp))
    · right
      by_cases hp : pfx = []
      · subst hp
        refine .inr ⟨q, lead ++ gapA, gapB, by simp, ?_, by simp [hA], hB, hne, htoken⟩
        simp only [List.mem_append] at hgap ⊢
        rintro x ((hx | hx) | hx)
        · exact hlead x hx
        · exact hgap x (.inl hx)
        · exact hgap x (.inr hx)
      · refine .inl ⟨q, gapA, gapB, rest_of_word hl hlead hpfx hp ?_, hgap, hA, hB, hne, htoken⟩
        obtain ⟨y, ys, rfl⟩ := List.exists_cons_of_ne_nil hA
        rintro x ⟨⟩
        exact isWord_eq_false_of_isWs hl (hgap y (by simp))

/-- LINE_PARSE answers Struct exactly outside the grammar of rule R70. -/
theorem lineParse_eq_structural_iff {c : Params} (hl : c.legal = true) {b : Bytes} :
    lineParse c b = .structural ↔ ¬ c.LineGrammar b := by
  rw [← not_ne_iff, not_iff_not, lineParse_ne_structural_iff hl]
  simp only [exists_lineReading_iff_parts hl, Params.LineGrammar]
  constructor
  · rintro ⟨_, f, trail, hb, hlen, htrail, hf, lead, pfx, mid, payload, rfl, hlead, hpfx, hmid⟩
    refine ⟨lead, pfx, mid, payload, f, trail, hb, ?_, hpfx, hmid, hf.imp_right fun hall => ⟨hlen, hall⟩⟩
    simpa [or_imp, forall_and] using ⟨hlead, htrail⟩
  · rintro ⟨lead, pfx, mid, payload, f, trail, hb, hws, hpfx, hmid, hf⟩
    refine ⟨_, f, trail, hb, ?_, fun x hx => hws x (List.mem_append_right _ hx), hf.imp_right And.right, lead, pfx,
      mid, payload, rfl, fun x hx => hws x (List.mem_append_left _ hx), hpfx, hmid⟩
    rcases hf with rfl | ⟨hlen, -⟩
    · exact (legal_bypass hl).1
    · exact hlen

/-! ### Lines that have no field or nothing before it -/

/-- A line within the grammar without its trailing whitespace: something not all whitespace, then the field. -/
theorem rstripBy_of_lineGrammar {c : Params} (hl : c.legal = true) {b : Bytes} (h : c.LineGrammar b) :
    ∃ before f, rstripBy c.isWs b = before ++ f ∧ f.length = 3 ∧ (f = c.bypass ∨ ∀ x ∈ f, isB64Url x = true) ∧
      ∃ x ∈ before, c.isWs x = false := by
  obtain ⟨lead, pfx, mid, payload, f, trail, rfl, hws, -, hmid, hf⟩ := h
  have hlen : f.length = 3 := by
    rcases hf with rfl | ⟨hlen, -⟩
    · exact (legal_bypass hl).1
    · exact hlen
  have hsplit : splitCkField c (lead ++ pfx ++ mid ++ f ++ trail) = some (lead ++ pfx ++ mid, f) :=
    (splitCkField_eq_some_iff hl).2 ⟨trail, rfl, hlen, fun x hx => hws x (List.mem_append_right _ hx),
      hf.imp_right And.right⟩
  refine ⟨_, f, (splitCkField_eq_some hsplit).2.1, hlen, hf.imp_right And.right, ?_⟩
  rcases hmid with ⟨gapA, gapB, rfl, -, hform⟩ | ⟨gapA, gapB, rfl, -, -, -, hne, htoken⟩
  · have hshape := structuredShape_iff.2 hform
    obtain ⟨x, xs, rfl⟩ := List.exists_cons_of_ne_nil (ne_nil_of_structuredShape hshape)
    exact ⟨x, by simp, (structuredShape_edges hl hshape).1 x rfl⟩
  · obtain ⟨x, hx⟩ := List.exists_mem_of_ne_nil _ hne
    exact ⟨x, by simp [hx], htoken x hx⟩

theorem rstripBy_append_trail {p : Byte → Bool} {core trail : Bytes} (htrail : ∀ x ∈ trail, p x = true) :
    rstripBy p (core ++ trail) = rstripBy p core := by
  rw [rstripBy, List.reverse_append, List.dropWhile_append_of_pos (by simpa using htrail), rstripBy]

theorem not_lineGrammar_of_short {c : Params} (hl : c.legal = true) {core trail : Bytes}
    (htrail : ∀ x ∈ trail, c.isWs x = true) (hlen : core.length < 3) : ¬ c.LineGrammar (core ++ trail) := by
  intro h
  obtain ⟨before, f, hstrip, hf, -⟩ := rstripBy_of_lineGrammar hl h
  rw [rstripBy_append_trail htrail] at hstrip
  obtain ⟨rest, hcore, -⟩ := rstripBy_append c.isWs core
  rw [hcore, hstrip, List.length_append, List.length_append] at hlen
  omega

theorem not_lineGrammar_of_field {c : Params} (hl : c.legal = true) {before f trail : Bytes}
    (htrail : ∀ x ∈ trail, c.isWs x = true) (hlen : f.length = 3) (hlast : ∀ x ∈ f.getLast?, c.isWs x = false)
    (hbad : (f ≠ c.bypass ∧ ¬ ∀ x ∈ f, isB64Url x = true) ∨ ∀ x ∈ before, c.isWs x = true) :
    ¬ c.LineGrammar (before ++ f ++ trail) := by
  intro h
  obtain ⟨before', f', hstrip, hlen', hf', x, hx, hnot⟩ := rstripBy_of_lineGrammar hl h
  have hcore : ∀ x ∈ (before ++ f).getLast?, c.isWs x = false := by
    rwa [List.getLast?_append_of_ne_nil _ (List.length_pos_iff.1 (by omega))]
  rw [rstripBy_append_of_last htrail hcore] at hstrip
  obtain ⟨rfl, rfl⟩ := List.append_inj' hstrip (hlen.trans hlen'.symm)
  rcases hbad with ⟨hne, hall⟩ | hws
  · exact hf'.elim hne hall
  · simp [hws x hx] at hnot

end Sys2Proof

namespace Sys2Proof.Machine

open Sys2Proof

/-- Settles O60, by the readings the grammar of rule R70 leaves. -/
theorem structIsExactlyOutsideTheGrammar : Obligations.StructIsExactlyOutsideTheGrammar := by
  intro s b hr hl
  have structural (h : ¬ s.cfg.LineGrammar b) :
      exec (.lineParse b) s = .next { s with out := ⟨.parse .structural, []⟩ } := by
    rw [exec_lineParse_of_running hr, (lineParse_eq_structural_iff hl).2 h]
  refine ⟨⟨fun h => ?_, structural⟩, ?_, ?_⟩
  · rw [exec_lineParse_of_running hr] at h
    exact (lineParse_eq_structural_iff hl).1 (by simpa using congrArg State.out (Host.Outcome.next.inj h))
  · rintro core trail rfl htrail hlen
    exact structural (not_lineGrammar_of_short hl htrail hlen)
  · rintro before f trail rfl htrail hlen hlast hbad
    refine structural (not_lineGrammar_of_field hl htrail hlen (fun x hx => ?_) hbad)
    simpa using (Option.all_eq_true _ _).1 hlast x hx

/-- Settles O9: the line has one reading, and the verdict is a function of the field. -/
theorem checksumFieldDecidesVerdict : Obligations.ChecksumFieldDecidesVerdict := by
  intro s l f hr hl hp hq hlen hall
  have hread := lineReading_structured hl hp hq
  rw [List.all_eq_true] at hall
  obtain ⟨received, hdec⟩ := Option.isSome_iff_exists.1 (ckDec_isSome.2 ⟨hlen, List.all_eq_true.2 hall⟩)
  refine ⟨fun hpad => by simp [Params.pad, hpad], ?_, received, _, hdec, rfl, ?_⟩
  · rw [exec_lineParse_of_running hr, frameLine, framedBytes_of_structured hq,
      (lineParse_eq_ok_iff hl).2 ⟨_, _, [], (List.append_nil _).symm, (legal_bypass hl).1, nofun, hread,
        .inl ⟨rfl, rfl⟩⟩]
  · rw [exec_lineParse_of_running hr, frameLine, framedBytes_of_structured hq]
    split
    · rename_i heq
      rw [(lineParse_eq_ok_iff hl).2 ⟨_, f, [], (List.append_nil _).symm, hlen, nofun, hread,
        .inr ⟨rfl, hall, heq ▸ hdec⟩⟩]
    · rename_i hne
      rw [(lineParse_eq_cksum_iff hl).2 ⟨_, f, [], l, (List.append_nil _).symm, hlen, nofun, hread, hall, hdec, rfl,
        hne⟩]

end Sys2Proof.Machine

/-! ## The field codecs (rules R80, R82, R83, R144 to R147)

What ENC_INT and ENC_STR emit is a JSON value, and DEC_INT and DEC_STR take it back. -/

namespace Sys2Proof

/-! ### Decimal digits -/

theorem digitByte_toNat {d : Nat} (h : d < 10) : (digitByte d).toNat = 0x30 + d := by
  rw [digitByte, BitVec.toNat_ofNat]
  omega

theorem isDigit_digitByte {d : Nat} (h : d < 10) : isDigit (digitByte d) = true := by
  simp only [isDigit, Bool.and_eq_true, decide_eq_true_eq, BitVec.le_def, digitByte_toNat h]
  exact ⟨by simp, by simp; omega⟩

theorem decimalAux_eq_digits : ∀ {fuel n : Nat}, 0 < n → n < 2 ^ fuel →
    decimalAux fuel n = (Nat.digits 10 n).reverse.map digitByte := by
  intro fuel
  induction fuel with
  | zero => intro n hpos hlt; omega
  | succ fuel ih =>
    intro n hpos hlt
    rw [decimalAux]
    split
    · rename_i hsmall
      rw [Nat.digits_of_lt 10 n hpos.ne' hsmall]
      rfl
    · rename_i hlarge
      rw [ih (by omega) (by omega), Nat.digits_def' (by omega) hpos]
      simp

/-- The shortest decimal text of a positive number is its digits (rule R82). -/
theorem decimal_of_pos {n : Nat} (h : 0 < n) : decimal n = (Nat.digits 10 n).reverse.map digitByte :=
  decimalAux_eq_digits h Nat.lt_log2_self

/-- The text of a natural number: digits, the first of them 0 only for zero itself. -/
theorem decimal_eq_cons (n : Nat) : ∃ d ds, decimal n = d :: ds ∧ (∀ x ∈ d :: ds, isDigit x = true) ∧
    (d = 0x30 → ds = []) := by
  rcases Nat.eq_zero_or_pos n with rfl | hpos
  · exact ⟨0x30, [], rfl, by decide, fun _ => rfl⟩
  · have hne : Nat.digits 10 n ≠ [] := Nat.digits_ne_nil_iff_ne_zero.2 hpos.ne'
    have htop := Nat.getLast_digit_ne_zero 10 hpos.ne'
    have hlt : ∀ k ∈ Nat.digits 10 n, k < 10 := fun k hk => Nat.digits_lt_base (by omega) hk
    have hsplit := List.dropLast_append_getLast hne
    have htext : decimal n =
        digitByte ((Nat.digits 10 n).getLast hne) :: (Nat.digits 10 n).dropLast.reverse.map digitByte := by
      rw [decimal_of_pos hpos]
      conv_lhs => rw [← hsplit]
      simp
    refine ⟨_, _, htext, ?_, fun hzero => absurd ?_ htop⟩
    · rw [← htext, decimal_of_pos hpos]
      simpa using fun k hk => isDigit_digitByte (hlt k hk)
    · have := congrArg BitVec.toNat hzero
      rw [digitByte_toNat (hlt _ (List.getLast_mem hne))] at this
      simpa using this

theorem decimalValue_map_digitByte {ds : List Nat} (h : ∀ d ∈ ds, d < 10) :
    decimalValue (ds.reverse.map digitByte) = Nat.ofDigits 10 ds := by
  rw [decimalValue, List.foldl_map, List.foldl_reverse, Nat.ofDigits_eq_foldr]
  refine List.foldr_ext _ _ _ fun d hd n => ?_
  rw [digitByte_toNat (h d hd)]
  simp
  omega

theorem decimalValue_decimal (n : Nat) : decimalValue (decimal n) = n := by
  rcases Nat.eq_zero_or_pos n with rfl | hpos
  · rfl
  · rw [decimal_of_pos hpos, decimalValue_map_digitByte fun k hk => Nat.digits_lt_base (by omega) hk,
      Nat.ofDigits_digits]

theorem decNat_decimal (n : Nat) : decNat (decimal n) = some n := by
  obtain ⟨d, ds, htext, hdigits, hlead⟩ := decimal_eq_cons n
  have hall : (d :: ds).all isDigit = true := List.all_eq_true.2 hdigits
  have hvalue : decimalValue (d :: ds) = n := htext ▸ decimalValue_decimal n
  rw [htext]
  simp [decNat, hall, hvalue]
  simpa using hlead

/-! ### INT fields -/

theorem decInt_minus {c : Params} {ds : Bytes} {n : Nat} (h : decNat ds = some n) :
    decInt c (0x2D :: ds) = if c.inInt (-(n : Int)) then some (-(n : Int)) else none := by
  simp only [decInt, if_true, h]
  rfl

theorem decInt_of_ne_minus {c : Params} {d : Byte} {ds : Bytes} {n : Nat} (hd : d ≠ 0x2D)
    (h : decNat (d :: ds) = some n) : decInt c (d :: ds) = if c.inInt n then some (n : Int) else none := by
  simp only [decInt, if_neg hd, h]
  rfl

/-- DEC_INT takes back every INT value ENC_INT encodes (rule R145). -/
theorem decInt_encInt {c : Params} {v : Int} (h : c.inInt v = true) : decInt c (encInt v) = some v := by
  by_cases hneg : v < 0
  · have hvalue : -(v.natAbs : Int) = v := by omega
    rw [encInt, if_pos hneg, decInt_minus (decNat_decimal _), hvalue, if_pos h]
  · have hvalue : (v.natAbs : Int) = v := by omega
    obtain ⟨d, ds, htext, hdigits, -⟩ := decimal_eq_cons v.natAbs
    have hminus : d ≠ 0x2D := by
      rintro rfl
      exact absurd (hdigits 0x2D (by simp)) (by decide)
    rw [encInt, if_neg hneg, htext, decInt_of_ne_minus hminus (htext ▸ decNat_decimal _), hvalue, if_pos h]

/-! ### Numbers as JSON values (rule R80) -/

/-- Digits go on in the integer part of a number. -/
theorem jRun_digits {d : Nat} {stack : List JCtx} {ds : Bytes} (h : ∀ x ∈ ds, isDigit x = true) :
    jRun d ⟨.numInt, stack⟩ ds = some ⟨.numInt, stack⟩ := by
  induction ds with
  | nil => rfl
  | cons x xs ih =>
    have hstep : jStep d ⟨.numInt, stack⟩ x = some ⟨.numInt, stack⟩ := if_pos (h x (by simp))
    rw [jRun, hstep]
    exact ih fun y hy => h y (by simp [hy])

/-- Where a number may begin. -/
def JMode.opensInt (mode : JMode) : Prop := mode = .value ∨ mode = .numMinus

theorem jStep_first_digit {d : Nat} {stack : List JCtx} {mode : JMode} (hmode : mode.opensInt) {x : Byte}
    (hx : isDigit x = true) :
    jStep d ⟨mode, stack⟩ x = some ⟨if x = 0x30 then .numZero else .numInt, stack⟩ := by
  have hne {y : Byte} (hy : isDigit y = false) : x ≠ y := by
    rintro rfl
    simp [hx] at hy
  have hws : isJws x ≠ true := fun h => not_isDigit_of_isJws h hx
  rcases hmode with rfl | rfl
  · simp only [jStep, if_neg hws, jBegin, if_neg (hne (y := 0x22) rfl), if_neg (hne (y := 0x7B) rfl),
      if_neg (hne (y := 0x5B) rfl), if_neg (hne (y := 0x2D) rfl), if_pos hx]
    split_ifs <;> rfl
  · simp only [jStep, if_pos hx]
    split_ifs <;> rfl

/-- The recognizer reads the text of a natural number. -/
theorem jRun_decimal {d : Nat} {stack : List JCtx} {mode : JMode} (hmode : mode.opensInt) (n : Nat) :
    ∃ mode', jRun d ⟨mode, stack⟩ (decimal n) = some ⟨mode', stack⟩ ∧ mode'.complete = true := by
  obtain ⟨x, xs, htext, hdigits, hlead⟩ := decimal_eq_cons n
  rw [htext, jRun, jStep_first_digit hmode (hdigits x (by simp)), Option.bind_some]
  by_cases hx : x = 0x30
  · rw [if_pos hx, hlead hx]
    exact ⟨.numZero, rfl, rfl⟩
  · rw [if_neg hx]
    exact ⟨.numInt, jRun_digits fun y hy => hdigits y (by simp [hy]), rfl⟩

/-- A value read from its first byte to its last, neither of them whitespace, is an element. -/
theorem isElement_of_jRun {c : Params} {e : Bytes} {mode : JMode}
    (hrun : jRun (c.jsonMaxDepth - 1) ⟨.value, []⟩ e = some ⟨mode, []⟩) (hc : mode.complete = true)
    (hws : ∀ x, x ∈ e.head? ∨ x ∈ e.getLast? → isJws x = false) : c.isElement e = true := by
  have hhead : (e.head?.all fun x => !isJws x) = true :=
    (Option.all_eq_true _ _).2 fun x hx => by simp [hws x (.inl hx)]
  have hlast : (e.getLast?.all fun x => !isJws x) = true :=
    (Option.all_eq_true _ _).2 fun x hx => by simp [hws x (.inr hx)]
  simp only [Params.isElement, hrun, hc, hhead, hlast]
  rfl

/-- What ENC_INT emits is one JSON value. -/
theorem isElement_encInt (c : Params) (v : Int) : c.isElement (encInt v) = true := by
  have hdigit : ∀ x ∈ decimal v.natAbs, isJws x = false := by
    intro x hx
    obtain ⟨d, ds, htext, hdigits, -⟩ := decimal_eq_cons v.natAbs
    by_contra hws
    exact not_isDigit_of_isJws (Bool.not_eq_false _ ▸ hws) (hdigits x (htext ▸ hx))
  have hws : ∀ x ∈ encInt v, isJws x = false := by
    intro x hx
    unfold encInt at hx
    split at hx
    · rcases List.mem_cons.1 hx with rfl | hx
      · rfl
      · exact hdigit x hx
    · exact hdigit x hx
  have hrun : ∃ mode, jRun (c.jsonMaxDepth - 1) ⟨.value, []⟩ (encInt v) = some ⟨mode, []⟩ ∧ mode.complete = true := by
    unfold encInt
    split
    · exact jRun_decimal (mode := .numMinus) (.inr rfl) v.natAbs
    · exact jRun_decimal (.inl rfl) v.natAbs
  obtain ⟨mode, hrun, hc⟩ := hrun
  refine isElement_of_jRun hrun hc fun x hx => hws x ?_
  exact hx.elim List.mem_of_mem_head? List.mem_of_mem_getLast?

/-! ### Hexadecimal digits and code points (rules R83, R147) -/

theorem hexVal_eq_some {h : Byte} {d : BitVec 4} : hexVal h = some d ↔ HexDigit h d.toNat := by
  have hd := d.isLt
  unfold hexVal HexDigit
  simp only [Bool.and_eq_true, decide_eq_true_eq]
  split_ifs with h0 h1 h2
  · rw [Option.some.injEq]; bv_omega
  · rw [Option.some.injEq]; bv_omega
  · rw [Option.some.injEq]; bv_omega
  · refine iff_of_false nofun ?_; bv_omega

theorem lt_of_hexDigit {h : Byte} {d : Nat} (hd : HexDigit h d) : d < 16 := by
  unfold HexDigit at hd
  bv_omega

/-- The digit ENC_STR emits for four bits is a lower-case one of that value. -/
theorem hexDigit_spec : ∀ v : BitVec 4,
    HexDigit (hexDigit v) v.toNat ∧ ¬ (0x41 ≤ hexDigit v ∧ hexDigit v ≤ 0x46) := by
  unfold HexDigit
  decide

theorem hexVal_hexDigit (v : BitVec 4) : hexVal (hexDigit v) = some v :=
  hexVal_eq_some.2 (hexDigit_spec v).1

/-- The number that four hexadecimal digits stand for. -/
def hexWord (d0 d1 d2 d3 : BitVec 4) : BitVec 16 := d0 ++ d1 ++ d2 ++ d3

theorem hexWord_toNat (d0 d1 d2 d3 : BitVec 4) : (hexWord d0 d1 d2 d3).toNat =
    d0.toNat * 0x1000 + d1.toNat * 0x100 + d2.toNat * 0x10 + d3.toNat := by
  rw [hexWord, BitVec.toNat_append, ← Nat.shiftLeft_add_eq_or_of_lt d3.isLt, BitVec.toNat_append,
    ← Nat.shiftLeft_add_eq_or_of_lt d2.isLt, BitVec.toNat_append, ← Nat.shiftLeft_add_eq_or_of_lt d1.isLt]
  simp only [Nat.shiftLeft_eq]
  omega

/-- DEC_STR collects four digits by shifting. -/
theorem shifts_eq_hexWord (d0 d1 d2 d3 : BitVec 4) :
    ((((0 : BitVec 16) <<< 4 ||| d0.zeroExtend 16) <<< 4 ||| d1.zeroExtend 16) <<< 4 ||| d2.zeroExtend 16) <<< 4 |||
      d3.zeroExtend 16 = hexWord d0 d1 d2 d3 := by
  ext i hi
  simp [hexWord]
  grind

/-- The escape `e` has the four digits `d0` to `d3`. -/
def HexEscape (e : Bytes) (d0 d1 d2 d3 : BitVec 4) : Prop :=
  ∃ h0 h1 h2 h3, e = [0x5C, 0x75, h0, h1, h2, h3] ∧ hexVal h0 = some d0 ∧ hexVal h1 = some d1 ∧
    hexVal h2 = some d2 ∧ hexVal h3 = some d3

theorem unicodeEscape_iff {e : Bytes} {n : Nat} :
    UnicodeEscape e n ↔ ∃ d0 d1 d2 d3, HexEscape e d0 d1 d2 d3 ∧ (hexWord d0 d1 d2 d3).toNat = n := by
  simp only [HexEscape, hexVal_eq_some, hexWord_toNat, UnicodeEscape]
  constructor
  · rintro ⟨h0, h1, h2, h3, d0, d1, d2, d3, he, hd0, hd1, hd2, hd3, rfl⟩
    lift d0 to Fin 16 using lt_of_hexDigit hd0
    lift d1 to Fin 16 using lt_of_hexDigit hd1
    lift d2 to Fin 16 using lt_of_hexDigit hd2
    lift d3 to Fin 16 using lt_of_hexDigit hd3
    exact ⟨.ofFin d0, .ofFin d1, .ofFin d2, .ofFin d3, ⟨h0, h1, h2, h3, he, hd0, hd1, hd2, hd3⟩, rfl⟩
  · rintro ⟨d0, d1, d2, d3, ⟨h0, h1, h2, h3, he, hd0, hd1, hd2, hd3⟩, rfl⟩
    exact ⟨h0, h1, h2, h3, _, _, _, _, he, hd0, hd1, hd2, hd3, rfl⟩

/-- A tag in the high bits of a byte and `k` bits from bit `i` of a code point in the low ones. -/
theorem tag_or_extract {n : Nat} (x : BitVec n) (t i k m : Nat) (h : (t + 1) * 2 ^ k ≤ 256)
    (hm : m = t * 2 ^ k + x.toNat / 2 ^ i % 2 ^ k) :
    BitVec.ofNat 8 (t * 2 ^ k) ||| (x.extractLsb' i k).zeroExtend 8 = BitVec.ofNat 8 m := by
  have hv := (x.extractLsb' i k).isLt
  have hbound : t * 2 ^ k + 2 ^ k ≤ 256 := by rwa [← Nat.succ_mul]
  refine BitVec.eq_of_toNat_eq ?_
  rw [BitVec.toNat_or, BitVec.toNat_ofNat, BitVec.toNat_setWidth, Nat.mod_eq_of_lt (by omega),
    Nat.mod_eq_of_lt (by omega), ← Nat.shiftLeft_eq, ← Nat.shiftLeft_add_eq_or_of_lt hv, Nat.shiftLeft_eq,
    BitVec.extractLsb'_toNat, Nat.shiftRight_eq_div_pow, ← hm, BitVec.toNat_ofNat, Nat.mod_eq_of_lt]
  rw [BitVec.extractLsb'_toNat, Nat.shiftRight_eq_div_pow] at hv
  omega

/-- The byte of a UTF-8 sequence after its first one. -/
theorem utf8_continuation {n : Nat} (x : BitVec n) (i m : Nat) (hm : m = 0x80 + x.toNat / 2 ^ i % 0x40) :
    0x80 ||| (x.extractLsb' i 6).zeroExtend 8 = BitVec.ofNat 8 m :=
  tag_or_extract x 2 i 6 m (by decide) hm

/-- The UTF-8 bytes of a code point below 0x10000, as rule R147 writes them. -/
theorem utf8Bmp_eq (x : BitVec 16) : utf8Bmp x = utf8 x.toNat := by
  have hx := x.isLt
  have h80 : x < 0x80 ↔ x.toNat < 0x80 := Iff.rfl
  have h800 : x < 0x800 ↔ x.toNat < 0x800 := Iff.rfl
  simp only [utf8Bmp, utf8, h80, h800, if_pos hx]
  split_ifs
  · simp
  · have hhead := tag_or_extract x 6 6 5 (0xC0 + x.toNat / 0x40) (by decide) (by omega)
    have hlow := utf8_continuation x 0 (0x80 + x.toNat % 0x40) (by omega)
    exact congrArg₂ List.cons hhead (congrArg₂ List.cons hlow rfl)
  · have hhead := tag_or_extract x 14 12 4 (0xE0 + x.toNat / 0x1000) (by decide) (by omega)
    have hmid := utf8_continuation x 6 (0x80 + x.toNat / 0x40 % 0x40) (by omega)
    have hlow := utf8_continuation x 0 (0x80 + x.toNat % 0x40) (by omega)
    exact congrArg₂ List.cons hhead (congrArg₂ List.cons hmid (congrArg₂ List.cons hlow rfl))

theorem utf8Supplementary_eq {x : BitVec 21} (hx : 0x10000 ≤ x.toNat) : utf8Supplementary x = utf8 x.toNat := by
  have hlt := x.isLt
  have hhead := tag_or_extract x 30 18 3 (0xF0 + x.toNat / 0x40000) (by decide) (by omega)
  have hhigh := utf8_continuation x 12 (0x80 + x.toNat / 0x1000 % 0x40) (by omega)
  have hmid := utf8_continuation x 6 (0x80 + x.toNat / 0x40 % 0x40) (by omega)
  have hlow := utf8_continuation x 0 (0x80 + x.toNat % 0x40) (by omega)
  rw [utf8, if_neg (by omega), if_neg (by omega), if_neg (by omega)]
  exact congrArg₂ List.cons hhead (congrArg₂ List.cons hhigh (congrArg₂ List.cons hmid (congrArg₂ List.cons hlow rfl)))

theorem isHighSurrogate_iff {x : BitVec 16} : isHighSurrogate x = true ↔ 0xD800 ≤ x.toNat ∧ x.toNat ≤ 0xDBFF := by
  simp only [isHighSurrogate, Bool.and_eq_true, decide_eq_true_eq]
  exact Iff.rfl

theorem isLowSurrogate_iff {x : BitVec 16} : isLowSurrogate x = true ↔ 0xDC00 ≤ x.toNat ∧ x.toNat ≤ 0xDFFF := by
  simp only [isLowSurrogate, Bool.and_eq_true, decide_eq_true_eq]
  exact Iff.rfl

theorem surrogatePair_toNat {hi lo : BitVec 16} (hhi : isHighSurrogate hi = true) (hlo : isLowSurrogate lo = true) :
    (surrogatePair hi lo).toNat = 0x10000 + (hi.toNat - 0xD800) * 0x400 + (lo.toNat - 0xDC00) := by
  rw [isHighSurrogate_iff] at hhi
  rw [isLowSurrogate_iff] at hlo
  have hhigh : (hi - 0xD800).toNat = hi.toNat - 0xD800 := BitVec.toNat_sub_of_le hhi.1
  have hlow : (lo - 0xDC00).toNat = lo.toNat - 0xDC00 := BitVec.toNat_sub_of_le hlo.1
  simp only [surrogatePair, BitVec.zeroExtend_eq_setWidth, BitVec.toNat_add, BitVec.toNat_shiftLeft,
    BitVec.toNat_setWidth, Nat.shiftLeft_eq, hhigh, hlow, BitVec.natCast_eq_ofNat, BitVec.toNat_ofNat]
  omega

/-! ### STR fields: what ENC_STR emits (rules R83, R146) -/

/-- The text of one byte is the stated one, the codes below 0x20 without a letter of their own by their hexadecimal
digits. -/
theorem emittedStrByte_encStrByte (b : Byte) : EmittedStrByte b (encStrByte b) := by
  unfold encStrByte
  split_ifs with h0 h1 h2 h3 h4 h5 h6 h7
  · exact .inl ⟨h0, rfl⟩
  · exact .inr (.inl ⟨h1, rfl⟩)
  · exact .inr (.inr (.inl ⟨h2, rfl⟩))
  · exact .inr (.inr (.inr (.inl ⟨h3, rfl⟩)))
  · exact .inr (.inr (.inr (.inr (.inl ⟨h4, rfl⟩))))
  · exact .inr (.inr (.inr (.inr (.inr (.inl ⟨h5, rfl⟩)))))
  · exact .inr (.inr (.inr (.inr (.inr (.inr (.inl ⟨h6, rfl⟩))))))
  · obtain ⟨hhi, hhi'⟩ := hexDigit_spec (b.extractLsb' 4 4)
    obtain ⟨hlo, hlo'⟩ := hexDigit_spec (b.extractLsb' 0 4)
    have hletter : b ∉ ([0x08, 0x09, 0x0A, 0x0C, 0x0D] : Bytes) := by
      simp only [List.mem_cons, List.not_mem_nil, or_false, not_or]
      exact ⟨h2, h3, h4, h5, h6⟩
    have hvalue : b.toNat = (b.extractLsb' 4 4).toNat * 0x10 + (b.extractLsb' 0 4).toNat := by
      have hb := b.isLt
      simp only [BitVec.extractLsb'_toNat, Nat.shiftRight_eq_div_pow]
      omega
    exact .inr (.inr (.inr (.inr (.inr (.inr (.inr (.inl
      ⟨h7, hletter, _, _, _, _, rfl, hhi, hlo, hhi', hlo', hvalue⟩)))))))
  · exact .inr (.inr (.inr (.inr (.inr (.inr (.inr (.inr ⟨BitVec.not_lt.1 h7, h0, h1, rfl⟩)))))))

end Sys2Proof

namespace Sys2Proof

/-! ### DEC_STR, step by step (rule R147) -/

theorem strRun_cons {m m' : StrMode} {b : Byte} {out : Bytes} (h : strStep m b = some (m', out)) (t : Bytes) :
    strRun m (b :: t) = (strRun m' t).map (out ++ ·) := by
  simp only [strRun, h, Option.bind_some]

theorem strRun_cons_silent {m m' : StrMode} {b : Byte} (h : strStep m b = some (m', [])) (t : Bytes) :
    strRun m (b :: t) = strRun m' t := by
  rw [strRun_cons h]
  simp

theorem strStep_hex {left : Nat} {acc : BitVec 16} {hi : Option (BitVec 16)} {h : Byte} {d : BitVec 4}
    (hh : hexVal h = some d) :
    strStep (.hex (left + 2) acc hi) h = some (.hex (left + 1) (acc <<< 4 ||| d.zeroExtend 16) hi, []) := by
  simp only [strStep, hh]
  rfl

/-- Four hexadecimal digits stand for one number. -/
theorem strRun_hex {h0 h1 h2 h3 : Byte} {d0 d1 d2 d3 : BitVec 4} (hh0 : hexVal h0 = some d0) (hh1 : hexVal h1 = some d1)
    (hh2 : hexVal h2 = some d2) (hh3 : hexVal h3 = some d3) (hi : Option (BitVec 16)) (t : Bytes) :
    strRun (.hex 4 0 hi) (h0 :: h1 :: h2 :: h3 :: t) =
      (strCodePoint (hexWord d0 d1 d2 d3) hi).bind fun r => (strRun r.1 t).map (r.2 ++ ·) := by
  rw [strRun_cons_silent (strStep_hex hh0), strRun_cons_silent (strStep_hex hh1),
    strRun_cons_silent (strStep_hex hh2), strRun, ← shifts_eq_hexWord]
  simp only [strStep, hh3]
  rfl

/-- An escape of a first code point. -/
theorem strRun_escape {e : Bytes} {d0 d1 d2 d3 : BitVec 4} (he : HexEscape e d0 d1 d2 d3) (t : Bytes) :
    strRun .plain (e ++ t) =
      (strCodePoint (hexWord d0 d1 d2 d3) none).bind fun r => (strRun r.1 t).map (r.2 ++ ·) := by
  obtain ⟨h0, h1, h2, h3, rfl, hh0, hh1, hh2, hh3⟩ := he
  exact ((strRun_cons_silent rfl _).trans (strRun_cons_silent rfl _)).trans (strRun_hex hh0 hh1 hh2 hh3 none t)

/-- An escape of the second half of a surrogate pair. -/
theorem strRun_low_escape {e : Bytes} {d0 d1 d2 d3 : BitVec 4} (he : HexEscape e d0 d1 d2 d3) (hi : BitVec 16)
    (t : Bytes) : strRun (.lowBackslash hi) (e ++ t) =
      (strCodePoint (hexWord d0 d1 d2 d3) (some hi)).bind fun r => (strRun r.1 t).map (r.2 ++ ·) := by
  obtain ⟨h0, h1, h2, h3, rfl, hh0, hh1, hh2, hh3⟩ := he
  exact ((strRun_cons_silent rfl _).trans (strRun_cons_silent rfl _)).trans (strRun_hex hh0 hh1 hh2 hh3 (some hi) t)

theorem strCodePoint_bmp {x : BitVec 16} (h : x.toNat < 0xD800 ∨ 0xDFFF < x.toNat) :
    strCodePoint x none = some (.plain, utf8 x.toNat) := by
  have hhigh : isHighSurrogate x ≠ true := fun hx => by have := isHighSurrogate_iff.1 hx; omega
  have hlow : isLowSurrogate x ≠ true := fun hx => by have := isLowSurrogate_iff.1 hx; omega
  simp only [strCodePoint, if_neg hhigh, if_neg hlow, utf8Bmp_eq]

theorem utf8_surrogatePair {hi lo : BitVec 16} (hhi : isHighSurrogate hi = true) (hlo : isLowSurrogate lo = true) :
    utf8Supplementary (surrogatePair hi lo) =
      utf8 (0x10000 + (hi.toNat - 0xD800) * 0x400 + (lo.toNat - 0xDC00)) := by
  have hpair := surrogatePair_toNat hhi hlo
  rw [← hpair]
  exact utf8Supplementary_eq (by omega)

theorem strCodePoint_high {x : BitVec 16} (h : isHighSurrogate x = true) :
    strCodePoint x none = some (.lowBackslash x, []) := if_pos h

theorem strCodePoint_low {x hi : BitVec 16} (h : isLowSurrogate x = true) :
    strCodePoint x (some hi) = some (.plain, utf8Supplementary (surrogatePair hi x)) := if_pos h

/-- DEC_STR reads a piece of text and yields the bytes it stands for. -/
theorem strRun_piece {e out : Bytes} (h : StrPiece e out) (t : Bytes) :
    strRun .plain (e ++ t) = (strRun .plain t).map (out ++ ·) := by
  cases h with
  | plain b hctl hquote hesc =>
    have hstep : strStep .plain b = some (.plain, [b]) := if_neg hesc
    exact strRun_cons hstep t
  | quote | backslash | slash | backspace | formFeed | lineFeed | carriageReturn | tab =>
    exact (strRun_cons_silent rfl _).trans (strRun_cons rfl t)
  | unicode he hx =>
    obtain ⟨d0, d1, d2, d3, hhex, rfl⟩ := unicodeEscape_iff.1 he
    rw [strRun_escape hhex, strCodePoint_bmp hx, Option.bind_some]
  | pair he he' hhi hhi' hlo hlo' =>
    obtain ⟨d0, d1, d2, d3, hhex, rfl⟩ := unicodeEscape_iff.1 he
    obtain ⟨d0', d1', d2', d3', hhex', rfl⟩ := unicodeEscape_iff.1 he'
    have hhigh := isHighSurrogate_iff.2 ⟨hhi, hhi'⟩
    have hlow := isLowSurrogate_iff.2 ⟨hlo, hlo'⟩
    rw [← utf8_surrogatePair hhigh hlow, List.append_assoc, strRun_escape hhex, strCodePoint_high hhigh,
      Option.bind_some, strRun_low_escape hhex', strCodePoint_low hlow, Option.bind_some, Option.map_map]
    rfl

theorem strRun_pieces {ps : List (Bytes × Bytes)} (h : ∀ p ∈ ps, StrPiece p.1 p.2) :
    strRun .plain (ps.map Prod.fst).flatten = some (ps.map Prod.snd).flatten := by
  induction ps with
  | nil => rfl
  | cons p ps ih =>
    rw [List.map_cons, List.flatten_cons, strRun_piece (h p (by simp)), ih fun q hq => h q (by simp [hq])]
    rfl

/-- DEC_STR yields the value a text stands for. -/
theorem decStr_of_strText {e v : Bytes} (h : StrText e v) : decStr e = some v := by
  obtain ⟨ps, hps, rfl, rfl⟩ := h
  simp only [decStr, List.cons_append, List.nil_append, if_true, List.dropLast_concat]
  exact strRun_pieces hps

/-! ### The text ENC_STR emits stands for the value (rules R146, R147) -/

theorem strPiece_encStrByte (b : Byte) : StrPiece (encStrByte b) [b] := by
  unfold encStrByte
  split_ifs with h0 h1 h2 h3 h4 h5 h6 h7
  · exact h0 ▸ .quote
  · exact h1 ▸ .backslash
  · exact h2 ▸ .backspace
  · exact h3 ▸ .tab
  · exact h4 ▸ .lineFeed
  · exact h5 ▸ .formFeed
  · exact h6 ▸ .carriageReturn
  · have hsmall : b.toNat < 0x20 := h7
    have hvalue : (hexWord 0 0 (b.extractLsb' 4 4) (b.extractLsb' 0 4)).toNat = b.toNat := by
      have hb := b.isLt
      simp only [hexWord_toNat, BitVec.extractLsb'_toNat, Nat.shiftRight_eq_div_pow]
      simp
      omega
    have hescape := unicodeEscape_iff.2 ⟨0, 0, b.extractLsb' 4 4, b.extractLsb' 0 4,
      ⟨0x30, 0x30, _, _, rfl, rfl, rfl, hexVal_hexDigit _, hexVal_hexDigit _⟩, hvalue⟩
    have hutf8 : utf8 b.toNat = [b] := by
      simp [utf8, show b.toNat < 0x80 by omega]
    exact hutf8 ▸ .unicode hescape (.inl (by omega))
  · exact .plain b (BitVec.not_lt.1 h7) h0 h1

theorem strText_encStr (s : Bytes) : StrText (encStr s) s := by
  refine ⟨s.map fun b => (encStrByte b, [b]), ?_, ?_, ?_⟩
  · rintro p hp
    obtain ⟨b, -, rfl⟩ := List.mem_map.1 hp
    exact strPiece_encStrByte b
  · rw [encStr, List.map_map, List.flatMap]
    rfl
  · rw [List.map_map]
    exact (List.flatMap_singleton' s).symm

/-- DEC_STR takes back what ENC_STR emits (rule R147). -/
theorem decStr_encStr (s : Bytes) : decStr (encStr s) = some s := decStr_of_strText (strText_encStr s)

/-! ### The recognizer inside a string (rule R80) -/

/-- Four hexadecimal digits end an escape. -/
theorem jRun_escape {d : Nat} {stack : List JCtx} {key : Bool} {e : Bytes} {d0 d1 d2 d3 : BitVec 4}
    (he : HexEscape e d0 d1 d2 d3) : jRun d ⟨.str key, stack⟩ e = some ⟨.str key, stack⟩ := by
  obtain ⟨h0, h1, h2, h3, rfl, hh0, hh1, hh2, hh3⟩ := he
  have more (left : Nat) {h : Byte} {v : BitVec 4} (hh : hexVal h = some v) :
      jStep d ⟨.hex key (left + 2), stack⟩ h = some ⟨.hex key (left + 1), stack⟩ := by
    simp only [jStep, hh]
    rfl
  have last : jStep d ⟨.hex key 1, stack⟩ h3 = some ⟨.str key, stack⟩ := by
    simp only [jStep, hh3]
    rfl
  have hu : jRun d ⟨.str key, stack⟩ [0x5C, 0x75, h0, h1, h2, h3] = jRun d ⟨.hex key 4, stack⟩ [h0, h1, h2, h3] := rfl
  rw [hu, jRun, more 2 hh0, Option.bind_some, jRun, more 1 hh1, Option.bind_some, jRun, more 0 hh2, Option.bind_some,
    jRun, last]
  rfl

/-- A piece of the text of a string keeps the recognizer inside the string. -/
theorem jRun_piece {d : Nat} {stack : List JCtx} {e out : Bytes} (h : StrPiece e out) :
    jRun d ⟨.str false, stack⟩ e = some ⟨.str false, stack⟩ := by
  cases h with
  | plain b hctl hquote hesc =>
    simp only [jRun, jStep, if_neg hquote, if_neg hesc, if_neg (BitVec.not_lt.2 hctl)]
    rfl
  | quote | backslash | slash | backspace | formFeed | lineFeed | carriageReturn | tab => rfl
  | unicode he hx =>
    obtain ⟨d0, d1, d2, d3, he, -⟩ := unicodeEscape_iff.1 he
    exact jRun_escape he
  | pair he he' hhi hhi' hlo hlo' =>
    obtain ⟨d0, d1, d2, d3, he, -⟩ := unicodeEscape_iff.1 he
    obtain ⟨d0', d1', d2', d3', he', -⟩ := unicodeEscape_iff.1 he'
    rw [jRun_append, jRun_escape he, Option.bind_some, jRun_escape he']

theorem jRun_pieces {d : Nat} {stack : List JCtx} {ps : List (Bytes × Bytes)} (h : ∀ p ∈ ps, StrPiece p.1 p.2) :
    jRun d ⟨.str false, stack⟩ (ps.map Prod.fst).flatten = some ⟨.str false, stack⟩ := by
  induction ps with
  | nil => rfl
  | cons p ps ih =>
    rw [List.map_cons, List.flatten_cons, jRun_append, jRun_piece (h p (by simp)), Option.bind_some,
      ih fun q hq => h q (by simp [hq])]

/-- The text of a string is one JSON value. -/
theorem isElement_of_strText {c : Params} {e v : Bytes} (h : StrText e v) : c.isElement e = true := by
  obtain ⟨ps, hps, rfl, -⟩ := h
  have hopen {d : Nat} : jRun d ⟨.value, []⟩ [0x22] = some ⟨.str false, []⟩ := rfl
  have hrun : jRun (c.jsonMaxDepth - 1) ⟨.value, []⟩ ([0x22] ++ (ps.map Prod.fst).flatten ++ [0x22]) =
      some ⟨.after, []⟩ := by
    rw [List.append_assoc, jRun_append, hopen, Option.bind_some, jRun_snoc (jRun_pieces hps)]
    rfl
  obtain ⟨hhead, hlast⟩ := wrapped_edges (p := isJws) (a := 0x22) (z := 0x22) rfl rfl (ps.map Prod.fst).flatten
  exact isElement_of_jRun hrun rfl fun x hx => hx.elim (hhead x) (hlast x)

/-! ### Where DEC_STR succeeds on a JSON value there is a text (rule R147) -/

theorem strStep_esc {b : Byte} {r : StrMode × Bytes} (h : strStep .esc b = some r) :
    (b = 0x75 ∧ r = (.hex 4 0 none, [])) ∨ ∃ out, StrPiece [0x5C, b] out := by
  simp only [strStep] at h
  split_ifs at h with h0 h1 h2 h3 h4 h5 h6 h7 h8
  · exact .inr ⟨[0x22], h0 ▸ .quote⟩
  · exact .inr ⟨[0x5C], h1 ▸ .backslash⟩
  · exact .inr ⟨[0x2F], h2 ▸ .slash⟩
  · exact .inr ⟨[0x08], h3 ▸ .backspace⟩
  · exact .inr ⟨[0x0C], h4 ▸ .formFeed⟩
  · exact .inr ⟨[0x0A], h5 ▸ .lineFeed⟩
  · exact .inr ⟨[0x0D], h6 ▸ .carriageReturn⟩
  · exact .inr ⟨[0x09], h7 ▸ .tab⟩
  · exact .inl ⟨h8, (Option.some.inj h).symm⟩

/-- A run goes on with a step, where it does not end here. -/
theorem exists_cons_of_strRun {m : StrMode} {t v : Bytes} (hm : m ≠ .plain) (h : strRun m t = some v) :
    ∃ b t' r v', t = b :: t' ∧ strStep m b = some r ∧ strRun r.1 t' = some v' := by
  cases t with
  | nil => simp [strRun, hm] at h
  | cons b t' =>
    obtain ⟨r, hr, h⟩ := Option.bind_eq_some_iff.1 h
    obtain ⟨v', hv', -⟩ := Option.map_eq_some_iff.1 h
    exact ⟨b, t', r, v', rfl, hr, hv'⟩

theorem strStep_hex_eq_some {left : Nat} {acc : BitVec 16} {hi : Option (BitVec 16)} {b : Byte} {r : StrMode × Bytes}
    (h : strStep (.hex (left + 1) acc hi) b = some r) :
    ∃ d, hexVal b = some d ∧ (0 < left → ∃ acc', r.1 = .hex left acc' hi) := by
  simp only [strStep] at h
  split at h
  · cases h
  · rename_i d hd
    refine ⟨d, hd, fun hleft => ?_⟩
    rw [if_neg (by omega)] at h
    cases h
    exact ⟨_, rfl⟩

/-- After `\\u` come four hexadecimal digits, which stand for a code point. -/
theorem exists_escape_of_strRun {hi : Option (BitVec 16)} {t v : Bytes} (h : strRun (.hex 4 0 hi) t = some v) :
    ∃ e t' d0 d1 d2 d3, 0x5C :: 0x75 :: t = e ++ t' ∧ HexEscape e d0 d1 d2 d3 ∧
      ∃ r v', strCodePoint (hexWord d0 d1 d2 d3) hi = some r ∧ strRun r.1 t' = some v' := by
  have hfull := h
  obtain ⟨h0, t, r, v0, rfl, hr, h⟩ := exists_cons_of_strRun (by nofun) h
  obtain ⟨d0, hd0, hmore⟩ := strStep_hex_eq_some hr
  obtain ⟨acc, hacc⟩ := hmore (by decide)
  rw [hacc] at h
  obtain ⟨h1, t, r, v1, rfl, hr, h⟩ := exists_cons_of_strRun (by nofun) h
  obtain ⟨d1, hd1, hmore⟩ := strStep_hex_eq_some hr
  obtain ⟨acc, hacc⟩ := hmore (by decide)
  rw [hacc] at h
  obtain ⟨h2, t, r, v2, rfl, hr, h⟩ := exists_cons_of_strRun (by nofun) h
  obtain ⟨d2, hd2, hmore⟩ := strStep_hex_eq_some hr
  obtain ⟨acc, hacc⟩ := hmore (by decide)
  rw [hacc] at h
  obtain ⟨h3, t, r, v3, rfl, hr, h⟩ := exists_cons_of_strRun (by nofun) h
  obtain ⟨d3, hd3, -⟩ := strStep_hex_eq_some hr
  rw [strRun_hex hd0 hd1 hd2 hd3] at hfull
  obtain ⟨r, hr, hrest⟩ := Option.bind_eq_some_iff.1 hfull
  obtain ⟨v', hv', -⟩ := Option.map_eq_some_iff.1 hrest
  exact ⟨[0x5C, 0x75, h0, h1, h2, h3], t, d0, d1, d2, d3, rfl, ⟨h0, h1, h2, h3, rfl, hd0, hd1, hd2, hd3⟩,
    r, v', hr, hv'⟩

/-- What a code point may be, and what must follow it. -/
theorem strCodePoint_none {x : BitVec 16} {r : StrMode × Bytes} (h : strCodePoint x none = some r) :
    (x.toNat < 0xD800 ∨ 0xDFFF < x.toNat) ∨ (isHighSurrogate x = true ∧ r.1 = .lowBackslash x) := by
  simp only [strCodePoint] at h
  split_ifs at h with hhigh hlow
  · cases h
    exact .inr ⟨hhigh, rfl⟩
  · rw [isHighSurrogate_iff] at hhigh
    rw [isLowSurrogate_iff] at hlow
    exact .inl (by omega)

theorem strCodePoint_some {x hi : BitVec 16} {r : StrMode × Bytes} (h : strCodePoint x (some hi) = some r) :
    isLowSurrogate x = true := by
  simp only [strCodePoint] at h
  split_ifs at h with hlow
  exact hlow

/-- After a high surrogate comes the escape of a low one. -/
theorem exists_low_of_strRun {hi : BitVec 16} {t v : Bytes} (h : strRun (.lowBackslash hi) t = some v) :
    ∃ e t' d0 d1 d2 d3, t = e ++ t' ∧ HexEscape e d0 d1 d2 d3 ∧ isLowSurrogate (hexWord d0 d1 d2 d3) = true := by
  obtain ⟨b, t, r, v, rfl, hr, h⟩ := exists_cons_of_strRun (by nofun) h
  simp only [strStep] at hr
  split_ifs at hr with hb
  cases hr
  obtain ⟨b', t, r, v, rfl, hr, h⟩ := exists_cons_of_strRun (by nofun) h
  simp only [strStep] at hr
  split_ifs at hr with hb'
  cases hr
  obtain ⟨e, t', d0, d1, d2, d3, ht, he, r, v', hr, -⟩ := exists_escape_of_strRun h
  exact ⟨e, t', d0, d1, d2, d3, by rw [hb, hb', ht], he, strCodePoint_some hr⟩

theorem jAfter_nil {b : Byte} {st : JState} (h : jAfter [] b = some st) : isJws b = true ∧ st = ⟨.after, []⟩ := by
  simp only [jAfter, jClose] at h
  split_ifs at h with hws
  exact ⟨hws, (Option.some.inj h).symm⟩

theorem jStep_str (d : Nat) (stack : List JCtx) (b : Byte) : jStep d ⟨.str false, stack⟩ b =
    if b = 0x22 then some ⟨.after, stack⟩
    else if b = 0x5C then some ⟨.esc false, stack⟩
    else if b < 0x20 then none
    else some ⟨.str false, stack⟩ := rfl

/-- Once the closing quote of a string that is a whole value was read, the recognizer stays there. -/
theorem jRun_after {d : Nat} {t : Bytes} : ∀ {st : JState}, jRun d ⟨.after, []⟩ t = some st → st = ⟨.after, []⟩ := by
  induction t with
  | nil =>
    intro st h
    cases h
    rfl
  | cons b t ih =>
    intro st h
    obtain ⟨u, hu, h⟩ := Option.bind_eq_some_iff.1 h
    obtain ⟨-, rfl⟩ := jAfter_nil hu
    exact ih h

/-- Inside a string, text that both the recognizer and DEC_STR read begins with a piece. -/
theorem exists_piece {d : Nat} {b : Byte} {t v : Bytes}
    (hrun : jRun d ⟨.str false, []⟩ (b :: t) = some ⟨.str false, []⟩) (hstr : strRun .plain (b :: t) = some v) :
    ∃ e out t', b :: t = e ++ t' ∧ StrPiece e out := by
  by_cases hesc : b = 0x5C
  · subst hesc
    rw [strRun_cons_silent (m' := .esc) rfl] at hstr
    obtain ⟨x, t, r, v', rfl, hr, hstr⟩ := exists_cons_of_strRun (by nofun) hstr
    rcases strStep_esc hr with ⟨rfl, rfl⟩ | ⟨out, hpiece⟩
    · obtain ⟨e, t', d0, d1, d2, d3, ht, he, r, v'', hr, hrest⟩ := exists_escape_of_strRun hstr
      have hescape := unicodeEscape_iff.2 ⟨d0, d1, d2, d3, he, rfl⟩
      rcases strCodePoint_none hr with hbmp | ⟨hhigh, hmode⟩
      · exact ⟨e, _, t', ht, .unicode hescape hbmp⟩
      · rw [hmode] at hrest
        obtain ⟨e', t'', d0', d1', d2', d3', rfl, he', hlow⟩ := exists_low_of_strRun hrest
        have hescape' := unicodeEscape_iff.2 ⟨d0', d1', d2', d3', he', rfl⟩
        obtain ⟨hhi, hhi'⟩ := isHighSurrogate_iff.1 hhigh
        obtain ⟨hlo, hlo'⟩ := isLowSurrogate_iff.1 hlow
        exact ⟨e ++ e', _, t'', by rw [ht, List.append_assoc], .pair hescape hescape' hhi hhi' hlo hlo'⟩
    · exact ⟨_, out, t, rfl, hpiece⟩
  · obtain ⟨u, hu, hrest⟩ := Option.bind_eq_some_iff.1 hrun
    rw [jStep_str, if_neg hesc] at hu
    split_ifs at hu with hquote hctl
    · cases hu
      cases jRun_after hrest
    · exact ⟨[b], [b], t, rfl, .plain b (BitVec.not_lt.1 hctl) hquote hesc⟩

theorem strPiece_ne_nil {e out : Bytes} (h : StrPiece e out) : e ≠ [] := by
  cases h with
  | unicode he | pair he =>
    obtain ⟨h0, h1, h2, h3, d0, d1, d2, d3, rfl, -⟩ := he
    simp
  | plain | quote | backslash | slash | backspace | formFeed | lineFeed | carriageReturn | tab => simp

/-- Inside a string, text that both the recognizer and DEC_STR read is one piece after the other. -/
theorem exists_pieces {d : Nat} : ∀ {t v : Bytes}, jRun d ⟨.str false, []⟩ t = some ⟨.str false, []⟩ →
    strRun .plain t = some v → ∃ ps : List (Bytes × Bytes), (∀ p ∈ ps, StrPiece p.1 p.2) ∧
      t = (ps.map Prod.fst).flatten ∧ v = (ps.map Prod.snd).flatten
  | [], v, _, hstr => ⟨[], nofun, rfl, (Option.some.inj hstr).symm⟩
  | b :: t, v, hrun, hstr => by
    obtain ⟨e, out, t', ht, hpiece⟩ := exists_piece hrun hstr
    rw [ht, jRun_append, jRun_piece hpiece, Option.bind_some] at hrun
    rw [ht, strRun_piece hpiece] at hstr
    obtain ⟨v', hv', rfl⟩ := Option.map_eq_some_iff.1 hstr
    have hshorter : t'.length < (b :: t).length := by
      have := List.length_pos_iff.2 (strPiece_ne_nil hpiece)
      rw [ht, List.length_append]
      omega
    obtain ⟨ps, hps, rfl, rfl⟩ := exists_pieces hrun hv'
    exact ⟨(e, out) :: ps, List.forall_mem_cons.2 ⟨hpiece, hps⟩, ht, rfl⟩
termination_by t => t.length
decreasing_by exact hshorter

/-- Where the recognizer stands in a string that is a whole value, or after it. -/
def JState.InString (st : JState) : Prop :=
  st.stack = [] ∧ (st.mode = .after ∨ st.mode = .str false ∨ st.mode = .esc false ∨ ∃ left, st.mode = .hex false left)

theorem jStep_inString {d : Nat} {st st' : JState} {b : Byte} (hs : st.InString) (h : jStep d st b = some st') :
    st'.InString := by
  obtain ⟨mode, stack⟩ := st
  obtain ⟨rfl, rfl | rfl | rfl | ⟨left, rfl⟩⟩ := hs
  · obtain ⟨-, rfl⟩ := jAfter_nil h
    exact ⟨rfl, .inl rfl⟩
  · rw [jStep_str] at h
    split_ifs at h <;> cases h
    · exact ⟨rfl, .inl rfl⟩
    · exact ⟨rfl, .inr (.inr (.inl rfl))⟩
    · exact ⟨rfl, .inr (.inl rfl)⟩
  · simp only [jStep] at h
    split_ifs at h <;> cases h
    · exact ⟨rfl, .inr (.inr (.inr ⟨4, rfl⟩))⟩
    · exact ⟨rfl, .inr (.inl rfl)⟩
  · simp only [jStep] at h
    split_ifs at h <;> cases h
    · exact ⟨rfl, .inr (.inl rfl)⟩
    · exact ⟨rfl, .inr (.inr (.inr ⟨_, rfl⟩))⟩

theorem jRun_inString {d : Nat} {t : Bytes} : ∀ {st st' : JState}, st.InString → jRun d st t = some st' →
    st'.InString := by
  induction t with
  | nil =>
    intro st st' hs h
    cases h
    exact hs
  | cons b t ih =>
    intro st st' hs h
    obtain ⟨u, hu, h⟩ := Option.bind_eq_some_iff.1 h
    exact ih (jStep_inString hs hu) h

/-- A string that is a whole value ends, with a byte that is no whitespace, at its closing quote. -/
theorem closing_quote {d : Nat} {st st' : JState} {x : Byte} (hs : st.InString) (h : jStep d st x = some st')
    (hc : st'.mode.complete = true) (hx : isJws x = false) : st = ⟨.str false, []⟩ ∧ x = 0x22 := by
  obtain ⟨mode, stack⟩ := st
  obtain ⟨rfl, rfl | rfl | rfl | ⟨left, rfl⟩⟩ := hs
  · obtain ⟨hws, -⟩ := jAfter_nil h
    simp [hx] at hws
  · rw [jStep_str] at h
    split_ifs at h with hquote <;> cases h
    · exact ⟨rfl, hquote⟩
    · cases hc
    · cases hc
  · simp only [jStep] at h
    split_ifs at h <;> cases h <;> cases hc
  · simp only [jStep] at h
    split_ifs at h <;> cases h <;> cases hc

/-- An element that begins with a quote is text in quotes. -/
theorem exists_string_body {c : Params} {rest : Bytes} (h : c.isElement (0x22 :: rest) = true) :
    ∃ body, rest = body ++ [0x22] ∧
      jRun (c.jsonMaxDepth - 1) ⟨.str false, []⟩ body = some ⟨.str false, []⟩ := by
  unfold Params.isElement at h
  split at h
  · cases h
  · rename_i st hrun
    simp only [Bool.and_eq_true, beq_iff_eq] at h
    obtain ⟨⟨⟨-, hc⟩, -⟩, hlast⟩ := h
    have hrest : jRun (c.jsonMaxDepth - 1) ⟨.str false, []⟩ rest = some st := hrun
    rcases List.eq_nil_or_concat' rest with rfl | ⟨body, x, rfl⟩
    · cases hrest
      cases hc
    · have hx : isJws x = false := by
        have := (Option.all_eq_true _ _).1 hlast x (by simp [List.getLast?_cons])
        simpa using this
      rw [jRun_append] at hrest
      obtain ⟨u, hu, hstep⟩ := Option.bind_eq_some_iff.1 hrest
      obtain ⟨w, hw, hend⟩ := Option.bind_eq_some_iff.1 hstep
      cases hend
      obtain ⟨rfl, rfl⟩ := closing_quote (jRun_inString ⟨rfl, .inr (.inl rfl)⟩ hu) hw hc hx
      exact ⟨body, rfl, hu⟩

/-- On a JSON value DEC_STR yields exactly what its text stands for (rule R147). -/
theorem decStr_eq_some_iff {c : Params} {e : Bytes} (he : c.isElement e = true) {v : Bytes} :
    decStr e = some v ↔ StrText e v := by
  refine ⟨fun h => ?_, decStr_of_strText⟩
  unfold decStr at h
  split at h
  · cases h
  · split_ifs at h with hq
    subst hq
    obtain ⟨body, rfl, hrun⟩ := exists_string_body he
    rw [List.dropLast_concat] at h
    obtain ⟨ps, hps, rfl, rfl⟩ := exists_pieces hrun h
    exact ⟨ps, hps, rfl, rfl⟩

theorem decStr_of_head_ne {e : Bytes} (h : e.head? ≠ some 0x22) : decStr e = none := by
  cases e with
  | nil => rfl
  | cons q rest => exact if_neg fun hq => h (by rw [hq]; rfl)

theorem ge_of_hexEscape {e : Bytes} {d0 d1 d2 d3 : BitVec 4} (h : HexEscape e d0 d1 d2 d3) :
    ∀ x ∈ e, (0x20 : Byte) ≤ x := by
  have digit {x : Byte} {d : BitVec 4} (hd : hexVal x = some d) : (0x20 : Byte) ≤ x := by
    have := hexVal_eq_some.1 hd
    unfold HexDigit at this
    bv_omega
  obtain ⟨h0, h1, h2, h3, rfl, hd0, hd1, hd2, hd3⟩ := h
  simp only [List.forall_mem_cons]
  exact ⟨by decide, by decide, digit hd0, digit hd1, digit hd2, digit hd3, nofun⟩

/-- The text of a string holds no control byte (rule R83). -/
theorem ge_of_strPiece {e out : Bytes} (h : StrPiece e out) : ∀ x ∈ e, (0x20 : Byte) ≤ x := by
  cases h with
  | plain b hctl => simpa using hctl
  | quote | backslash | slash | backspace | formFeed | lineFeed | carriageReturn | tab => decide
  | unicode he =>
    obtain ⟨_, _, _, _, hhex, -⟩ := unicodeEscape_iff.1 he
    exact ge_of_hexEscape hhex
  | pair he he' =>
    obtain ⟨_, _, _, _, hhex, -⟩ := unicodeEscape_iff.1 he
    obtain ⟨_, _, _, _, hhex', -⟩ := unicodeEscape_iff.1 he'
    exact List.forall_mem_append.2 ⟨ge_of_hexEscape hhex, ge_of_hexEscape hhex'⟩

theorem ge_of_strText {e v : Bytes} (h : StrText e v) : ∀ x ∈ e, (0x20 : Byte) ≤ x := by
  obtain ⟨ps, hps, rfl, -⟩ := h
  have hquote : ∀ x ∈ ([0x22] : Bytes), (0x20 : Byte) ≤ x := by decide
  refine List.forall_mem_append.2 ⟨List.forall_mem_append.2 ⟨hquote, fun x hx => ?_⟩, hquote⟩
  obtain ⟨e, he, hx⟩ := List.mem_flatten.1 hx
  obtain ⟨p, hp, rfl⟩ := List.mem_map.1 he
  exact ge_of_strPiece (hps p hp) x hx

end Sys2Proof

namespace Sys2Proof.Machine

open Sys2Proof

theorem exec_decStr_of_isElement {s : State} (hr : s.phase = .running) {e : Bytes} (he : s.cfg.isElement e = true) :
    exec (.decStr e) s = .next { s with out := ⟨.bytesOrError (decStr e), []⟩ } := by
  rw [exec, execDecStr, whenRunning_of_running _ hr, State.begin_cfg, he, inDomain_true]
  rfl

/-- Settles O21: what ENC_STR emits is the text of its operand, and DEC_STR reads a text piece by piece. -/
theorem stringCodecRoundTrip : Obligations.StringCodecRoundTrip := by
  intro s hr
  refine ⟨fun b => ?_, fun e he => ⟨decStr e, exec_decStr_of_isElement hr he, fun v => decStr_eq_some_iff he,
    decStr_of_head_ne⟩⟩
  have htext := strText_encStr b
  refine ⟨encStr b, b.map encStrByte, whenRunning_answer hr fun _ => .bytes (encStr b), rfl, ?_, ge_of_strText htext,
    ?_⟩
  · exact List.forall₂_map_right_iff.2 (List.forall₂_same.2 fun x _ => emittedStrByte_encStrByte x)
  · rw [exec_decStr_of_isElement hr (isElement_of_strText htext), decStr_encStr]

end Sys2Proof.Machine

/-! ## The fields PL_ENC writes (rules R79, R141) -/

namespace Sys2Proof

/-- All but the maximal trailing run: what follows is of the class, and the last one kept is not. -/
theorem exists_trailing_run {α : Type} (p : α → Bool) (l : List α) :
    ∃ kept run, l = kept ++ run ∧ (l.reverse.dropWhile p).reverse = kept ∧ (∀ x ∈ run, p x = true) ∧
      ∀ x ∈ kept.getLast?, p x = false := by
  refine ⟨_, (l.reverse.takeWhile p).reverse, ?_, rfl, ?_, ?_⟩
  · rw [← List.reverse_append, List.takeWhile_append_dropWhile, List.reverse_reverse]
  · exact fun x hx => List.mem_takeWhile_imp (List.mem_reverse.1 hx)
  · intro x hx
    rw [List.getLast?_reverse] at hx
    have := List.head?_dropWhile_not p l.reverse
    rw [Option.mem_def.1 hx] at this
    simpa using this

theorem descriptor_length (c : Params) (v : Variant) : (v.descriptor c).fields.length = v.values.length := by
  cases v <;> rfl

/-- The fields of a variant value with their descriptions. -/
def Variant.fields (c : Params) (v : Variant) : List (FieldDesc × FieldValue) := (v.descriptor c).fields.zip v.values

theorem map_fst_fields (c : Params) (v : Variant) : (v.fields c).map Prod.fst = (v.descriptor c).fields :=
  List.map_fst_zip (descriptor_length c v).le

theorem map_snd_fields (c : Params) (v : Variant) : (v.fields c).map Prod.snd = v.values :=
  List.map_snd_zip (descriptor_length c v).ge

theorem holdsDefault_iff {fv : FieldDesc × FieldValue} : holdsDefault fv = true ↔ fv.1.dflt = some fv.2 := by
  simp [holdsDefault]

/-- PL_ENC writes the fields before a run of fields that hold their defaults, the last of them none of those. -/
theorem exists_written (c : Params) (v : Variant) :
    ∃ kept run, v.fields c = kept ++ run ∧
      plEnc c v = ⟨(v.descriptor c).pfx, arrayPayload ((kept.map Prod.snd).map encField)⟩ ∧
      (∀ fv ∈ run, fv.1.dflt = some fv.2) ∧ ∀ fv ∈ kept.getLast?, fv.1.dflt ≠ some fv.2 := by
  obtain ⟨kept, run, hfields, hkept, hrun, hlast⟩ := exists_trailing_run holdsDefault (v.fields c)
  refine ⟨kept, run, hfields, ?_, fun fv h => holdsDefault_iff.1 (hrun fv h), fun fv h hd => ?_⟩
  · rw [← hkept]
    rfl
  · have := hlast fv h
    rw [holdsDefault_iff.2 hd] at this
    cases this

theorem getElem?_fields {c : Params} {v : Variant} {j : Nat} {fv : FieldDesc × FieldValue}
    (h : (v.fields c)[j]? = some fv) : (v.descriptor c).fields[j]? = some fv.1 ∧ v.values[j]? = some fv.2 := by
  rw [← map_fst_fields, ← map_snd_fields c v, List.getElem?_map, List.getElem?_map, h]
  exact ⟨rfl, rfl⟩

end Sys2Proof

namespace Sys2Proof.Machine

open Sys2Proof

theorem exec_plEnc_of_inRange {s : State} (hr : s.phase = .running) {v : Variant} (hv : v.inRange s.cfg = true) :
    exec (.plEnc v) s = .next { s with out := ⟨.line (plEnc s.cfg v), []⟩ } := by
  rw [exec, execPlEnc, whenRunning_of_running _ hr, State.begin_cfg, hv, inDomain_true]
  rfl

/-- Settles O15: `k` is the number of fields before the maximal trailing run of defaults. -/
theorem encoderOmitsMaximalDefaultRun : Obligations.EncoderOmitsMaximalDefaultRun := by
  intro s v hr hv
  obtain ⟨kept, run, hfields, henc, hrun, hlast⟩ := exists_written s.cfg v
  have hvalues : v.values = kept.map Prod.snd ++ run.map Prod.snd := by
    rw [← map_snd_fields s.cfg, hfields, List.map_append]
  refine ⟨kept.length, by simp [hvalues], ?_, fun j hj hlt => ?_, fun j hj => ?_⟩
  · have htake : v.values.take kept.length = kept.map Prod.snd := by
      rw [hvalues, ← List.length_map Prod.snd, List.take_left]
    rw [exec_plEnc_of_inRange hr hv, henc, htake]
  · have hlen : j - kept.length < run.length := by
      simp only [hvalues, List.length_append, List.length_map] at hlt
      omega
    have hmem : (v.fields s.cfg)[j]? = some run[j - kept.length] := by
      rw [hfields, List.getElem?_append_right hj, List.getElem?_eq_getElem hlen]
    obtain ⟨hdesc, hvalue⟩ := getElem?_fields hmem
    rw [hdesc, hvalue]
    exact hrun _ (List.getElem_mem hlen)
  · have hlen : j < kept.length := by omega
    have hmem : (v.fields s.cfg)[j]? = some kept[j] := by
      rw [hfields, List.getElem?_append_left hlen, List.getElem?_eq_getElem hlen]
    obtain ⟨hdesc, hvalue⟩ := getElem?_fields hmem
    rw [hdesc, hvalue]
    refine hlast _ ?_
    rw [List.getLast?_eq_getElem?, ← hj, Nat.add_sub_cancel, List.getElem?_eq_getElem hlen]
    rfl

end Sys2Proof.Machine

/-! ## PL_DEC takes back what PL_ENC writes (rules R142, R143, R154)

SPLIT_ARRAY of a payload array of JSON values finds those values, and every written field decodes to its value. -/

namespace Sys2Proof

/-! ### SPLIT_ARRAY of an array of elements -/

/-- A recognizer that reads on has not reached the end of an element. -/
theorem goesOn_of_jStep {d : Nat} {st st' : JState} {b : Byte} (hs : st.Sane) (h : jStep d st b = some st') :
    st.GoesOn b := by
  by_contra hgo
  obtain ⟨hstack, hc, hb⟩ := complete_of_not_goesOn hs hgo
  obtain ⟨mode, stack⟩ := st
  obtain rfl : stack = [] := hstack
  cases mode with
  | after | numZero | numInt | numFrac | numExp => rcases hb with rfl | rfl <;> cases h
  | value | valueOrEnd | keyOrEnd | key | colon | str | esc | hex | lit | numMinus | numDot | numE | numESign =>
    cases hc

/-- SPLIT_ARRAY collects what the inner recognizer reads. -/
theorem splitStep_of_jStep {d : Nat} (hd : 1 ≤ d) {inner inner' : JState} (hs : inner.Sane) {cur : Bytes}
    {els : List Bytes} {b : Byte} (h : jStep (d - 1) inner b = some inner') :
    splitStep d ⟨inner.inArray, cur, els⟩ b = some ⟨inner'.inArray, cur ++ [b], els⟩ := by
  have hgo := goesOn_of_jStep hs h
  have hstep : jStep d inner.inArray b = some inner'.inArray := by rw [jStep_inArray hd hgo, h]; rfl
  refine splitStep_collects (inArray_stack_ne_nil inner) (inArray_stack_ne_nil inner') hstep fun hstack hb => ?_
  subst hb
  have hnil : inner.stack = [] := by simpa [JState.inArray] using hstack
  obtain ⟨hinc, -⟩ := (hgo.resolve_left (not_not.2 hnil)).resolve_left fun hne => hne.1 rfl
  exact (jStep_comma_ne_value hinc h : inner'.mode ≠ .value)

theorem splitRun_append (d : Nat) (st : SplitState) (a b : Bytes) :
    splitRun d st (a ++ b) = (splitRun d st a).bind fun st' => splitRun d st' b := by
  induction a generalizing st with
  | nil => rfl
  | cons x xs ih =>
    simp only [List.cons_append, splitRun, Option.bind_assoc]
    exact congrArg _ (funext fun st' => ih st')

theorem splitRun_of_jRun {d : Nat} (hd : 1 ≤ d) {els : List Bytes} {b : Bytes} :
    ∀ {inner inner' : JState} {cur : Bytes}, inner.Sane → jRun (d - 1) inner b = some inner' →
      splitRun d ⟨inner.inArray, cur, els⟩ b = some ⟨inner'.inArray, cur ++ b, els⟩ := by
  induction b with
  | nil =>
    intro inner inner' cur _ h
    cases h
    rw [List.append_nil]
    rfl
  | cons x xs ih =>
    intro inner inner' cur hs h
    obtain ⟨u, hu, h⟩ := Option.bind_eq_some_iff.1 h
    rw [splitRun, splitStep_of_jStep hd hs hu, Option.bind_some, ih (jStep_sane hs hu) h, List.append_assoc]
    rfl

/-- What an element is (rules R80, R81, R84). -/
theorem isElement_spec {c : Params} {e : Bytes} (h : c.isElement e = true) :
    ∃ mode, jRun (c.jsonMaxDepth - 1) ⟨.value, []⟩ e = some ⟨mode, []⟩ ∧ mode.complete = true ∧
      (∀ x ∈ e.head?, isJws x = false) ∧ ∀ x ∈ e.getLast?, isJws x = false := by
  unfold Params.isElement at h
  split at h
  · cases h
  · rename_i st hrun
    simp only [Bool.and_eq_true, beq_iff_eq, Option.all_eq_true, Bool.not_eq_true'] at h
    obtain ⟨⟨⟨hstack, hc⟩, hhead⟩, hlast⟩ := h
    exact ⟨st.mode, by rw [hrun, ← hstack], hc, hhead, hlast⟩

/-- SPLIT_ARRAY reads an element up to the comma or the bracket after it. -/
theorem splitRun_element {c : Params} (hd : 1 ≤ c.jsonMaxDepth) {e : Bytes} (he : c.isElement e = true)
    (els : List Bytes) (t : Bytes) :
    splitRun c.jsonMaxDepth ⟨⟨.value, [.arr]⟩, [], els⟩ (e ++ [0x2C] ++ t) =
        splitRun c.jsonMaxDepth ⟨⟨.value, [.arr]⟩, [], els ++ [e]⟩ t ∧
      splitRun c.jsonMaxDepth ⟨⟨.value, [.arr]⟩, [], els⟩ (e ++ [0x5D]) =
        some ⟨⟨.after, []⟩, [], els ++ [e]⟩ := by
  obtain ⟨mode, hrun, hc, hhead, hlast⟩ := isElement_spec he
  have helem : splitRun c.jsonMaxDepth ⟨⟨.value, [.arr]⟩, [], els⟩ e = some ⟨⟨mode, [.arr]⟩, e, els⟩ :=
    splitRun_of_jRun hd start_sane hrun
  have hstrip : stripBy isJws e = e := by
    simpa using stripBy_eq_of_append (lead := []) (trail := []) nofun nofun hhead hlast
  obtain ⟨hcomma, hclose⟩ := jStep_inArray_of_complete (d := c.jsonMaxDepth) hc
  constructor
  · have hstep : splitStep c.jsonMaxDepth ⟨⟨mode, [.arr]⟩, e, els⟩ 0x2C =
        some ⟨⟨.value, [.arr]⟩, [], els ++ [e]⟩ := by
      simp only [splitStep, hcomma, hstrip]
      rfl
    rw [List.append_assoc, splitRun_append, helem, Option.bind_some, List.singleton_append, splitRun, hstep,
      Option.bind_some]
  · have hnot : mode ≠ .valueOrEnd := by rintro rfl; cases hc
    have hstep : splitStep c.jsonMaxDepth ⟨⟨mode, [.arr]⟩, e, els⟩ 0x5D =
        some ⟨⟨.after, []⟩, [], els ++ [e]⟩ := by
      simp only [splitStep, hclose, hstrip]
      simp [hnot]
    rw [splitRun_append, helem, Option.bind_some, splitRun, hstep]
    rfl

theorem joinComma_cons_cons (e f : Bytes) (es : List Bytes) :
    joinComma (e :: f :: es) = e ++ [0x2C] ++ joinComma (f :: es) := by
  simp [joinComma, List.intercalate]

theorem splitRun_joinComma {c : Params} (hd : 1 ≤ c.jsonMaxDepth) {es : List Bytes} :
    ∀ {e : Bytes} {els : List Bytes}, (∀ x ∈ e :: es, c.isElement x = true) →
      splitRun c.jsonMaxDepth ⟨⟨.value, [.arr]⟩, [], els⟩ (joinComma (e :: es) ++ [0x5D]) =
        some ⟨⟨.after, []⟩, [], els ++ e :: es⟩ := by
  induction es with
  | nil =>
    intro e els h
    have hsingle : joinComma [e] = e := by simp [joinComma, List.intercalate]
    rw [hsingle]
    exact (splitRun_element hd (h e (by simp)) els []).2
  | cons f es ih =>
    intro e els h
    rw [joinComma_cons_cons, List.append_assoc, (splitRun_element hd (h e (by simp)) els _).1,
      ih fun x hx => h x (List.mem_cons_of_mem e hx), List.append_assoc]
    rfl

/-- Just inside the outer array an element is read as after a comma. -/
theorem splitRun_opened {c : Params} (hd : 1 ≤ c.jsonMaxDepth) {e : Bytes} (he : c.isElement e = true) (t : Bytes) :
    splitRun c.jsonMaxDepth ⟨⟨.valueOrEnd, [.arr]⟩, [], []⟩ (e ++ t) =
      splitRun c.jsonMaxDepth ⟨⟨.value, [.arr]⟩, [], []⟩ (e ++ t) := by
  obtain ⟨mode, hrun, hc, hhead, -⟩ := isElement_spec he
  cases e with
  | nil =>
    cases hrun
    cases hc
  | cons x xs =>
    have hws : isJws x ≠ true := by simp [hhead x rfl]
    obtain ⟨inner, hinner, -⟩ := Option.bind_eq_some_iff.1 hrun
    have hbegin : jBegin (c.jsonMaxDepth - 1) [] x = some inner := by
      simpa only [jStep, if_neg hws] using hinner
    have hclose : x ≠ 0x5D := by rintro rfl; cases hbegin
    have hcomma : x ≠ 0x2C := by rintro rfl; cases hbegin
    have hfirst : jStep c.jsonMaxDepth ⟨.valueOrEnd, [.arr]⟩ x = some inner.inArray := by
      have hin := jBegin_inArray hd [] x
      rw [hbegin] at hin
      simp only [jStep, if_neg hws, if_neg hclose]
      exact hin
    have hcollect := splitStep_collects (cur := []) (els := []) (by simp) (inArray_stack_ne_nil inner) hfirst
      fun _ hb => absurd hb hcomma
    have hvalue : splitStep c.jsonMaxDepth ⟨⟨.value, [.arr]⟩, [], []⟩ x = some ⟨inner.inArray, [] ++ [x], []⟩ :=
      splitStep_of_jStep hd start_sane hinner
    rw [List.cons_append, splitRun, splitRun, hcollect, hvalue]

/-- SPLIT_ARRAY finds the elements a payload array was made of (rule R143). -/
theorem splitArray_arrayPayload {c : Params} (hd : 1 ≤ c.jsonMaxDepth) {els : List Bytes}
    (h : ∀ e ∈ els, c.isElement e = true) : splitArray c (arrayPayload els) = some els := by
  have hopen : splitStep c.jsonMaxDepth ⟨⟨.value, []⟩, [], []⟩ 0x5B = some ⟨⟨.valueOrEnd, [.arr]⟩, [], []⟩ := by
    have hstep : jStep c.jsonMaxDepth ⟨.value, []⟩ 0x5B = some ⟨.valueOrEnd, [.arr]⟩ := if_pos hd
    simp only [splitStep, hstep]
    rfl
  have hrun : splitRun c.jsonMaxDepth ⟨⟨.value, []⟩, [], []⟩ (arrayPayload els) = some ⟨⟨.after, []⟩, [], els⟩ := by
    rw [arrayPayload, List.append_assoc, List.singleton_append, splitRun, hopen, Option.bind_some]
    cases els with
    | nil => rfl
    | cons e es =>
      have hsplit := splitRun_joinComma hd (els := []) h
      cases es with
      | nil =>
        have hsingle : joinComma [e] = e := by simp [joinComma, List.intercalate]
        rw [hsingle] at hsplit ⊢
        rwa [splitRun_opened hd (h e (by simp))]
      | cons f es =>
        rw [joinComma_cons_cons, List.append_assoc, List.append_assoc] at hsplit ⊢
        rwa [splitRun_opened hd (h e (by simp))]
  simp only [splitArray, hrun, if_true]

/-! ### Fields -/

/-- The type of a field value. -/
def FieldValue.ty : FieldValue → FieldType
  | .int _ => .int
  | .str _ => .str
  | .raw _ => .raw

/-- The fields of a variant value have the types of its descriptor. -/
theorem ty_of_mem_fields {c : Params} {v : Variant} : ∀ fv ∈ v.fields c, fv.1.ty = fv.2.ty := by
  cases v <;> simp [Variant.fields, Variant.descriptor, Variant.values, publishDescriptor, timeQueryDescriptor,
    timeReplyDescriptor, profileStartDescriptor, FieldValue.ty]

/-- What a field value has to meet to be encoded: the INT range, the contract of RAW (rules R10, R84). -/
def FieldValue.Encodable (c : Params) : FieldValue → Prop
  | .int n => c.inInt n = true
  | .str _ => True
  | .raw b => c.isElement b = true

theorem encodable_of_mem_values {c : Params} {v : Variant} (hrange : v.inRange c = true)
    (hraw : v.rawContract c = true) {fv : FieldValue} (h : fv ∈ v.values) : fv.Encodable c := by
  cases fv with
  | int n => exact Variant.inRange_iff.1 hrange n h
  | str b => trivial
  | raw b => exact (Variant.rawContract_iff.1 hraw b h).1

theorem decField_encField {c : Params} {fv : FieldValue} (h : fv.Encodable c) :
    decField c fv.ty (encField fv) = some fv := by
  cases fv with
  | int n => simp only [FieldValue.ty, decField, encField, decInt_encInt h, Option.map_some]
  | str b => simp only [FieldValue.ty, decField, encField, decStr_encStr, Option.map_some]
  | raw b => rfl

theorem isElement_encField {c : Params} {fv : FieldValue} (h : fv.Encodable c) : c.isElement (encField fv) = true := by
  cases fv with
  | int n => exact isElement_encInt c n
  | str b => exact isElement_of_strText (strText_encStr b)
  | raw b => exact h

/-- Fields decode from their texts, and a run of absent ones from their defaults. -/
theorem decFields_append {c : Params} {kept run : List (FieldDesc × FieldValue)}
    (hkept : ∀ fv ∈ kept, decField c fv.1.ty (encField fv.2) = some fv.2)
    (hrun : ∀ fv ∈ run, fv.1.dflt = some fv.2) :
    decFields c ((kept ++ run).map Prod.fst) ((kept.map Prod.snd).map encField) =
      some ((kept ++ run).map Prod.snd) := by
  induction kept with
  | nil =>
    induction run with
    | nil => rfl
    | cons fv run ih =>
      have hrest := ih fun x hx => hrun x (List.mem_cons_of_mem fv hx)
      simp only [List.nil_append, List.map_nil] at hrest
      simp [decFields, hrun fv (by simp), hrest]
  | cons fv kept ih =>
    have hrest := ih fun x hx => hkept x (List.mem_cons_of_mem fv hx)
    simp only [List.cons_append, List.map_cons, decFields, hkept fv (by simp), hrest, Option.map_some]

/-- A registered descriptor is found by its own characters. -/
theorem findDescriptor_descriptor {c : Params} (hl : c.legal = true) (v : Variant) :
    findDescriptor c (v.descriptor c).pfx = some (v.descriptor c) := by
  have hnodup : c.registeredPrefixes.Nodup := by
    simp only [Params.legal, Bool.and_eq_true, decide_eq_true_eq] at hl
    obtain ⟨-, -, hnodup⟩ := hl
    exact hnodup
  have hne : Config.pfxPublish ≠ c.pfxTq ∧ Config.pfxPublish ≠ c.pfxTr ∧ Config.pfxPublish ≠ c.pfxPs ∧
      c.pfxTq ≠ c.pfxTr ∧ c.pfxTq ≠ c.pfxPs ∧ c.pfxTr ≠ c.pfxPs := by
    simpa [Params.registeredPrefixes, and_assoc] using hnodup
  obtain ⟨h01, h02, h03, h12, h13, h23⟩ := hne
  cases v <;> simp [findDescriptor, registry, Variant.descriptor, publishDescriptor, timeQueryDescriptor,
    timeReplyDescriptor, profileStartDescriptor, h01, h02, h03, h12, h13, h23]

/-- PL_DEC takes back what PL_ENC writes (rule R154). -/
theorem plDec_plEnc {c : Params} (hl : c.legal = true) {v : Variant} (hrange : v.inRange c = true)
    (hraw : v.rawContract c = true) : plDec c (plEnc c v) = .known v := by
  obtain ⟨kept, run, hfields, henc, hrun, -⟩ := exists_written c v
  have hmem : ∀ fv ∈ kept, fv ∈ v.fields c := fun fv h => hfields ▸ List.mem_append_left run h
  have henc' : ∀ fv ∈ kept, fv.2.Encodable c := fun fv h =>
    encodable_of_mem_values hrange hraw (map_snd_fields c v ▸ List.mem_map_of_mem (hmem fv h))
  have hsplit : splitArray c (arrayPayload ((kept.map Prod.snd).map encField)) =
      some ((kept.map Prod.snd).map encField) := by
    refine splitArray_arrayPayload (legal_jsonMaxDepth hl) ?_
    simp only [List.map_map, List.mem_map]
    rintro _ ⟨fv, h, rfl⟩
    exact isElement_encField (henc' fv h)
  have hdec : decFields c (v.descriptor c).fields ((kept.map Prod.snd).map encField) = some v.values := by
    rw [← map_fst_fields, ← map_snd_fields c v, hfields]
    refine decFields_append (fun fv h => ?_) hrun
    rw [ty_of_mem_fields fv (hmem fv h)]
    exact decField_encField (henc' fv h)
  simp only [plDec, henc, findDescriptor_descriptor hl, hsplit, hdec, Option.bind_some, variantOfValues_values]

end Sys2Proof

/-! ## Decoding what the encoder writes (rules R70 to R92, R154) -/

namespace Sys2Proof

/-! ### Wire lines -/

theorem structuredShape_plEnc (c : Params) (v : Variant) : structuredShape (plEnc c v).payload = true :=
  structuredShape_iff.2 (.inr (.inr ⟨_, rfl⟩))

/-- A payload stands on the wire the way it is read back, after a word or structured (rules R70, R73). -/
theorem lineReading_wireBytes {c : Params} (hl : c.legal = true) {l : Line} (hp : l.pfx.all isWord = true)
    (hq : structuredShape l.payload = true ∨
      (l.pfx ≠ [] ∧ l.payload ≠ [] ∧ ∀ x ∈ l.payload, c.isWs x = false)) : c.LineReading (wireBytes l) l := by
  cases hshape : structuredShape l.payload with
  | true =>
    rw [wireBytes, if_pos hshape]
    exact lineReading_structured hl hp hshape
  | false =>
    obtain ⟨hne, hlen, htoken⟩ := hq.resolve_left (by simp [hshape])
    rw [wireBytes, if_neg (by simp [hshape])]
    exact lineReading_bare hl hp hne hshape hlen htoken

theorem decodeLine_wireLine {c : Params} (hl : c.legal = true) {l : Line} (hread : c.LineReading (wireBytes l) l)
    (ck : CkForm) :
    (plDec c l = .unknown → decodeLine c (wireLine c ck l) = .ok (.lineUnknown ck l)) ∧
      ∀ v, plDec c l = .known v → decodeLine c (wireLine c ck l) = .ok (lineOfVariant ck v) := by
  obtain ⟨verdict, rfl, hparse⟩ := lineParse_ckFieldOf hl hread ck
  refine ⟨fun h => ?_, fun v h => ?_⟩ <;> simp only [decodeLine, wireLine, hparse, h]

theorem decodeLine_variant {c : Params} (hl : c.legal = true) {v : Variant} (hrange : v.inRange c = true)
    (hraw : v.rawContract c = true) (ck : CkForm) :
    decodeLine c (wireLine c ck (plEnc c v)) = .ok (lineOfVariant ck v) := by
  have hread := lineReading_wireBytes hl (Machine.legal_pfx_word hl v) (.inl (structuredShape_plEnc c v))
  exact (decodeLine_wireLine hl hread ck).2 v (plDec_plEnc hl hrange hraw)

/-- A value without RAW fields meets their contract. -/
theorem rawContract_of_no_raw {c : Params} {v : Variant} (h : ∀ b, FieldValue.raw b ∉ v.values) :
    v.rawContract c = true :=
  Variant.rawContract_iff.2 fun b hb => absurd hb (h b)

theorem decodeLine_unknown {c : Params} (hl : c.legal = true) {l : Line} (h : c.unknownLineOk l = true) (ck : CkForm) :
    decodeLine c (wireLine c ck l) = .ok (.lineUnknown ck l) := by
  simp only [Params.unknownLineOk, Bool.and_eq_true, Bool.or_eq_true, decide_eq_true_eq, List.all_eq_true,
    Bool.not_eq_true', Option.isNone_iff_eq_none] at h
  obtain ⟨⟨⟨hword, hfind⟩, hform⟩, -⟩ := h
  have hne : l.pfx ≠ [] := by
    intro hnil
    rw [hnil] at hfind
    cases hfind
  refine (decodeLine_wireLine hl (lineReading_wireBytes hl (List.all_eq_true.2 hword) ?_) ck).1
    (plDec_eq_unknown.2 hfind)
  exact hform.imp_right fun ⟨hlen, htoken⟩ => ⟨hne, List.length_pos_iff.1 hlen, htoken⟩

/-! ### Checksum fields and the command port -/

theorem decodeCkField_value {c : Params} (hl : c.legal = true) (c0 c1 c2 : BitVec 6) :
    decodeCkField c [c.b64Char c0, c.b64Char c1, c.b64Char c2] = .ok (.ckfieldValue c0 c1 c2) := by
  have hb64 : ∀ x ∈ [c.b64Char c0, c.b64Char c1, c.b64Char c2], isB64Url x = true := by
    simp [isB64Url_b64Char hl]
  simp [decodeCkField, ne_bypass_of_isB64Url hl hb64, isB64Url_b64Char hl, b64Val_b64Char hl]

theorem decodePort_nextSend (now : Time) (txEmpty : Bool) :
    decodePort (.command 2 [] now (if txEmpty then 1 else 0)) = .nextSend now txEmpty := by
  cases txEmpty <;> rfl

/-- Settles O23, row by row: the port and the fields by their codes, a line by its reading and its payload. -/
theorem decodeOfEncodeIsIdentity : Obligations.DecodeOfEncodeIsIdentity := by
  intro c i e hl hwf henc
  cases i with
  | feed | drain | reservedOp3 | reset =>
    cases henc
    rfl
  | nextSend now txEmpty =>
    cases henc
    exact congrArg DecodeResult.ok (decodePort_nextSend now txEmpty)
  | linePublish ck p =>
    cases henc
    obtain ⟨hrange, hraw⟩ := Bool.and_eq_true_iff.1 hwf
    exact decodeLine_variant hl hrange hraw ck
  | lineTq ck q =>
    cases henc
    exact decodeLine_variant hl hwf (rawContract_of_no_raw (by simp [Variant.values])) ck
  | lineTr ck r =>
    cases henc
    exact decodeLine_variant hl hwf (rawContract_of_no_raw (by simp [Variant.values])) ck
  | linePs ck p =>
    cases henc
    exact decodeLine_variant hl hwf (rawContract_of_no_raw (by simp [Variant.values])) ck
  | lineUnknown ck l =>
    cases henc
    exact decodeLine_unknown hl hwf ck
  | ckfieldValue c0 c1 c2 =>
    cases henc
    exact decodeCkField_value hl c0 c1 c2
  | ckfieldBypass =>
    cases henc
    exact if_pos rfl
  | crc18 | ckEnc | ckDec | ckVerify | lineParse | lineSer | plEnc | plDec | splitArray | encInt | decInt | encStr
  | decStr | encRaw | decRaw | msec | utcPack | tsHas | tsGet | tsOnq | tsOnr | lineProcess | dispatch | schemaLookup
  | schemaResolve | mkMsg => cases henc

/-- Settles O25, word by word. -/
theorem specEncodedWordsDecode : Obligations.SpecEncodedWordsDecode := by
  refine ⟨rfl, rfl, rfl, rfl, ?timeQuery, ?profileStart, ?ckField⟩
  case timeQuery => decide +kernel
  case profileStart => decide +kernel
  case ckField => decide +kernel

end Sys2Proof

/-! ## The calendar (rules R85, R172)

UTC_PACK counts years from March and cuts them into 400-year eras, the eras into centuries, four-year cycles and
years. The calendar adds up the days of years and months from 1970 on; both are the same sum. -/

namespace Sys2Proof.Machine

open Sys2Proof

/-! ### Days of years and months -/

theorem isLeapYear_iff {y : Nat} : isLeapYear y = true ↔ (y % 4 = 0 ∧ y % 100 ≠ 0) ∨ y % 400 = 0 := by
  simp [isLeapYear]

/-- The leap years up to the year `y`. -/
def leapsThrough (y : Nat) : Nat := y / 4 - y / 100 + y / 400

theorem leapsThrough_succ (y : Nat) :
    leapsThrough (y + 1) = leapsThrough y + (if isLeapYear (y + 1) then 1 else 0) := by
  have hle : y / 100 ≤ y / 4 := by omega
  simp only [leapsThrough, isLeapYear_iff, Nat.succ_div, Nat.dvd_iff_mod_eq_zero]
  by_cases h400 : (y + 1) % 400 = 0
  · have h100 : (y + 1) % 100 = 0 := by omega
    have h4 : (y + 1) % 4 = 0 := by omega
    simp only [h400, h100, h4, if_true, or_true]
    omega
  · by_cases h100 : (y + 1) % 100 = 0
    · have h4 : (y + 1) % 4 = 0 := by omega
      simp [h400, h100, h4]
    · by_cases h4 : (y + 1) % 4 = 0
      · simp only [h400, h100, h4, if_true, if_false, ne_eq, not_false_eq_true, and_true, true_or]
        omega
      · simp [h400, h100, h4]

/-- 477 leap years precede 1970. -/
theorem daysBeforeYear_eq (k : Nat) : daysBeforeYear k + 477 = 365 * k + leapsThrough (1969 + k) := by
  induction k with
  | zero => rfl
  | succ k ih =>
    have hleaps := leapsThrough_succ (1969 + k)
    have hyear : 1969 + k + 1 = 1970 + k := by omega
    rw [hyear] at hleaps
    rw [daysBeforeYear, ← Nat.add_assoc 1969 k 1, hyear, hleaps]
    split <;> simp_all <;> omega

/-- The days from 1 January of a year to 1 March. -/
theorem daysBeforeMarch (y : Nat) : daysBeforeMonth y 2 = 59 + if isLeapYear y then 1 else 0 := by
  have hdays : daysBeforeMonth y 2 = 0 + 31 + if isLeapYear y then 29 else 28 := rfl
  rw [hdays]
  split <;> rfl

/-- From March on the months before month `mp + 3` have the days of a straight line. -/
theorem daysBeforeMonth_from_march (y : Nat) {mp : Nat} (h : mp < 10) :
    daysBeforeMonth y (mp + 2) = daysBeforeMonth y 2 + (153 * mp + 2) / 5 := by
  have step (k : Nat) : daysBeforeMonth y (k + 1) = daysBeforeMonth y k + daysInMonth y (k + 1) := rfl
  interval_cases mp <;> simp [step, daysInMonth]

/-- A date counted from 1 March of the year 0, `Y` being the year that begins in March and `mp` its month. -/
theorem dayNumber_from_march {Y mp d : Nat} (hY : 1970 ≤ Y) (hmp : mp < 10) (hd : 1 ≤ d) :
    dayNumber Y (mp + 3) d + 719469 = 365 * Y + leapsThrough Y + (153 * mp + 2) / 5 + d := by
  obtain ⟨k, rfl⟩ := Nat.exists_eq_add_of_le hY
  have hyears := daysBeforeYear_eq k
  have hleaps := leapsThrough_succ (1969 + k)
  have hyear : 1969 + k + 1 = 1970 + k := by omega
  rw [hyear] at hleaps
  have hmonths := daysBeforeMonth_from_march (1970 + k) hmp
  rw [daysBeforeMarch] at hmonths
  rw [dayNumber, Nat.add_sub_cancel_left, show mp + 3 - 1 = mp + 2 from rfl, hmonths]
  omega

/-- January and February are the last months of the year that begins in March before. -/
theorem dayNumber_of_january_february {Y mp d : Nat} (hY : 1969 ≤ Y) (hmp : 10 ≤ mp) (hmp' : mp ≤ 11) (hd : 1 ≤ d) :
    dayNumber (Y + 1) (mp - 9) d + 719469 = 365 * Y + leapsThrough Y + (153 * mp + 2) / 5 + d := by
  obtain ⟨k, rfl⟩ := Nat.exists_eq_add_of_le hY
  have hyears := daysBeforeYear_eq k
  have hk : 1969 + k + 1 - 1970 = k := by omega
  have hmonths : daysBeforeMonth (1969 + k + 1) (mp - 9 - 1) + 306 = (153 * mp + 2) / 5 := by
    interval_cases mp <;> rfl
  rw [dayNumber, hk]
  omega

/-! ### The year and the month of a day -/

/-- Where a day of an era lies: its century `b`, its four-year cycle `q` of that, its year `k` of that, and its day
`doy` of that. Only the last year of a cycle has a day 365, but for the last cycle of the first three centuries. -/
structure DayOfEra (doe : Int) (b q k doy : Nat) : Prop where
  sum : doe = 36524 * b + 1461 * q + 365 * k + doy
  century : b ≤ 3
  cycle : q ≤ 24
  year : k ≤ 3
  day : doy ≤ 365
  leap : doy = 365 → k = 3 ∧ (q = 24 → b = 3)

theorem exists_dayOfEra {doe : Int} (h0 : 0 ≤ doe) (h1 : doe < 146097) : ∃ b q k doy, DayOfEra doe b q k doy := by
  lift doe to Nat using h0
  obtain ⟨b, r, hdoe, hb, hr⟩ : ∃ b r : Nat, doe = 36524 * b + r ∧ b ≤ 3 ∧ (r < 36524 ∨ (r = 36524 ∧ b = 3)) := by
    by_cases hlast : doe = 146096
    · exact ⟨3, 36524, by omega, by omega, .inr ⟨rfl, rfl⟩⟩
    · exact ⟨doe / 36524, doe % 36524, by omega, by omega, .inl (by omega)⟩
  obtain ⟨k, doy, hs, hk, hdoy⟩ : ∃ k doy : Nat, r % 1461 = 365 * k + doy ∧ k ≤ 3 ∧
      (doy < 365 ∨ (doy = 365 ∧ k = 3)) := by
    by_cases hlast : r % 1461 = 1460
    · exact ⟨3, 365, by omega, by omega, .inr ⟨rfl, rfl⟩⟩
    · exact ⟨r % 1461 / 365, r % 1461 % 365, by omega, by omega, .inl (by omega)⟩
  exact ⟨b, r / 1461, k, doy, by omega, hb, by omega, hk, by omega, fun hleap => ⟨by omega, fun hq => by omega⟩⟩

theorem centuryOfEra_eq {doe b r : Int} (hdoe : doe = 36524 * b + r) (hr : 0 ≤ r) (hr' : r ≤ 36524) (hb : 0 ≤ b)
    (hb' : b ≤ 3) (hlast : r = 36524 → b = 3) : doe / 36524 - doe / 146096 = b := by
  omega

/-- The formula of rule R172 for the year of an era. -/
theorem DayOfEra.yearOfEra {doe : Int} {b q k doy : Nat} (h : DayOfEra doe b q k doy) :
    (doe - doe / 1460 + doe / 36524 - doe / 146096) / 365 = (100 * b + 4 * q + k : Nat) := by
  obtain ⟨hdoe, hb, hq, hk, hdoy, hleap⟩ := h
  have hcentury : doe / 36524 - doe / 146096 = b :=
    centuryOfEra_eq (r := 1461 * q + 365 * k + doy) (by omega) (by omega) (by omega) (by omega) (by omega) (by omega)
  have hcycle : (doe / 1460 = 25 * b + q ∧ doy < 365) ∨ (doe / 1460 = 25 * b + q + 1 ∧ 0 < doy) := by omega
  omega

/-- The year of an era and the day in it. -/
theorem exists_yearOfEra {doe : Int} (h0 : 0 ≤ doe) (h1 : doe < 146097) :
    ∃ yoe doy : Nat, (doe - doe / 1460 + doe / 36524 - doe / 146096) / 365 = yoe ∧ yoe < 400 ∧
      doe = 365 * yoe + yoe / 4 - yoe / 100 + doy ∧ doy ≤ 365 ∧
      (doy = 365 → (yoe + 1) % 4 = 0 ∧ ((yoe + 1) % 100 = 0 → yoe = 399)) := by
  obtain ⟨b, q, k, doy, hday⟩ := exists_dayOfEra h0 h1
  refine ⟨100 * b + 4 * q + k, doy, hday.yearOfEra, ?_⟩
  obtain ⟨hsum, hb, hq, hk, hdoy, hleap⟩ := hday
  have hcycles : (100 * b + 4 * q + k) / 4 = 25 * b + q := by omega
  have hcenturies : (100 * b + 4 * q + k) / 100 = b := by omega
  exact ⟨by omega, by omega, hdoy, by omega⟩

theorem leapsThrough_era {yoe era : Nat} (h : yoe < 400) :
    leapsThrough (yoe + era * 400) = 97 * era + (yoe / 4 - yoe / 100) := by
  unfold leapsThrough
  omega

theorem leapsThrough_mono : Monotone leapsThrough :=
  monotone_nat_of_le_succ fun y => (leapsThrough_succ y).symm ▸ Nat.le_add_right _ _

theorem isLeapYear_era {yoe era : Nat} (h : (yoe + 1) % 4 = 0 ∧ ((yoe + 1) % 100 = 0 → yoe = 399)) :
    isLeapYear (yoe + era * 400 + 1) = true := by
  rw [isLeapYear_iff]
  omega

/-- The days before an era, of the years of it, and of the year. -/
theorem days_of_era {days doe : Int} {era yoe doy : Nat} (hdoe : days + 719468 - era * 146097 = doe)
    (hsum : doe = 365 * yoe + yoe / 4 - yoe / 100 + doy) (hyoe : yoe < 400) :
    days + 719468 = (365 * (yoe + era * 400) + leapsThrough (yoe + era * 400) + doy : Nat) := by
  rw [leapsThrough_era hyoe]
  omega

theorem day_of_month {doy mp d : Nat} (hd : doy + 1 = (153 * mp + 2) / 5 + d) :
    (doy : Int) - (153 * mp + 2) / 5 + 1 = d := by
  omega

/-- The year and the month of rule R172 for the month `mp` of a year `Y` that begins in March. -/
theorem date_from_march {Y mp : Nat} (hmp : mp ≤ 11) (d : Int) :
    ((Y : Int) + (if (if (mp : Int) < 10 then (mp : Int) + 3 else mp - 9) ≤ 2 then 1 else 0),
        (if (mp : Int) < 10 then (mp : Int) + 3 else mp - 9), d) =
      (((if mp < 10 then Y else Y + 1 : Nat) : Int), ((if mp < 10 then mp + 3 else mp - 9 : Nat) : Int), d) := by
  by_cases h : mp < 10
  · have h' : (mp : Int) < 10 := by omega
    have hlate : ¬ (mp : Int) + 3 ≤ 2 := by omega
    simp only [if_pos h, if_pos h', if_neg hlate, Prod.mk.injEq]
    exact ⟨by omega, by omega, trivial⟩
  · have h' : ¬ (mp : Int) < 10 := by omega
    have hearly : (mp : Int) - 9 ≤ 2 := by omega
    simp only [if_neg h, if_neg h', if_pos hearly, Prod.mk.injEq]
    exact ⟨by omega, by omega, trivial⟩

/-- The formulas of rule R172 place a day in a year `Y` that begins in March, as its day `doy`, in its month `mp`. -/
theorem civilFromDays_eq {days : Int} (hdays : 0 ≤ days) :
    ∃ Y doy : Nat, days + 719468 = (365 * Y + leapsThrough Y + doy : Nat) ∧ doy ≤ 365 ∧
      (doy = 365 → isLeapYear (Y + 1) = true) ∧
      ∀ mp d : Nat, mp = (5 * doy + 2) / 153 → doy + 1 = (153 * mp + 2) / 5 + d →
        civilFromDays days = (((if mp < 10 then Y else Y + 1 : Nat) : Int),
          ((if mp < 10 then mp + 3 else mp - 9 : Nat) : Int), (d : Int)) := by
  obtain ⟨era, hera⟩ : ∃ era : Nat, (days + 719468) / 146097 = era :=
    ⟨((days + 719468) / 146097).toNat, by omega⟩
  obtain ⟨doe, hdoe⟩ : ∃ doe, days + 719468 - era * 146097 = doe := ⟨_, rfl⟩
  obtain ⟨yoe, doy, hyoe, hyoe', hsum, hdoy, hleap⟩ := exists_yearOfEra (doe := doe) (by omega) (by omega)
  refine ⟨yoe + era * 400, doy, days_of_era hdoe hsum hyoe', hdoy, fun h => isLeapYear_era (hleap h),
    fun mp d hmp hd => ?_⟩
  have hrest : doe - (365 * (yoe : Int) + yoe / 4 - yoe / 100) = doy := by
    rw [hsum]
    exact add_sub_cancel_left _ _
  have hmonth : (5 * (doy : Int) + 2) / 153 = mp := by
    rw [hmp]
    rfl
  have hmp' : mp ≤ 11 := by omega
  simp only [civilFromDays, hera, hdoe, hyoe, hrest, hmonth, day_of_month hd]
  exact date_from_march (Y := yoe + era * 400) hmp' d

/-- A day of the month is within the month: a day 365 of the year from March is 29 February. -/
theorem le_daysInMonth {Y doy mp d : Nat} (hmp : mp = (5 * doy + 2) / 153) (hd : doy + 1 = (153 * mp + 2) / 5 + d)
    (hdoy : doy ≤ 365) (hleap : doy = 365 → isLeapYear (Y + 1) = true) :
    1 ≤ d ∧ d ≤ daysInMonth (if mp < 10 then Y else Y + 1) (if mp < 10 then mp + 3 else mp - 9) := by
  have hmp' : mp ≤ 11 := by omega
  refine ⟨by omega, ?_⟩
  by_cases hfeb : mp = 11
  · subst hfeb
    have hdays : daysInMonth (Y + 1) 2 = if isLeapYear (Y + 1) then 29 else 28 := rfl
    have hlt : d ≤ 28 ∨ doy = 365 := by omega
    change d ≤ daysInMonth (Y + 1) 2
    rw [hdays]
    split
    · omega
    · rename_i hnot
      exact hlt.resolve_right fun h => hnot (hleap h)
  · have hlong : daysInMonth (if mp < 10 then Y else Y + 1) (if mp < 10 then mp + 3 else mp - 9) =
        if mp = 1 ∨ mp = 3 ∨ mp = 6 ∨ mp = 8 then 30 else 31 := by
      have hlt : mp < 11 := by omega
      interval_cases mp <;> rfl
    rw [hlong]
    split <;> omega

/-- A date in a year that begins in March is that many days after 1 March of the year 0. -/
theorem dayNumber_eq {Y mp d : Nat} (hY : 1969 ≤ Y) (hmp : mp ≤ 11) (hjan : Y = 1969 → 10 ≤ mp) (hd : 1 ≤ d) :
    dayNumber (if mp < 10 then Y else Y + 1) (if mp < 10 then mp + 3 else mp - 9) d + 719469 =
      365 * Y + leapsThrough Y + (153 * mp + 2) / 5 + d := by
  split
  · exact dayNumber_from_march (by omega) (by omega) hd
  · exact dayNumber_of_january_february hY (by omega) hmp hd

/-- From 1970-01-01 to 9999-12-31 the formulas of rule R172 give the calendar date of a day. -/
theorem civilFromDays_spec {days : Int} (h0 : 0 ≤ days) (h1 : days < 2932897) :
    ∃ y m d : Nat, civilFromDays days = ((y : Int), (m : Int), (d : Int)) ∧ 1970 ≤ y ∧ y ≤ 9999 ∧ 1 ≤ m ∧ m ≤ 12 ∧
      1 ≤ d ∧ d ≤ daysInMonth y m ∧ (dayNumber y m d : Int) = days := by
  obtain ⟨Y, doy, hdays, hdoy, hleap, hciv⟩ := civilFromDays_eq h0
  obtain ⟨mp, hmp⟩ : ∃ mp, mp = (5 * doy + 2) / 153 := ⟨_, rfl⟩
  obtain ⟨d, hd⟩ : ∃ d, doy + 1 = (153 * mp + 2) / 5 + d := ⟨doy + 1 - (153 * mp + 2) / 5, by omega⟩
  have hmp' : mp ≤ 11 := by omega
  have hlow : 1969 < Y ∨ (Y = 1969 ∧ 306 ≤ doy) := by
    by_contra hnot
    have hbound : leapsThrough Y ≤ 477 := leapsThrough_mono (show Y ≤ 1969 by omega)
    omega
  have hhigh : Y < 9999 ∨ (Y = 9999 ∧ doy < 306) := by
    by_contra hnot
    have hbound : 2424 ≤ leapsThrough Y := leapsThrough_mono (show 9999 ≤ Y by omega)
    omega
  obtain ⟨hd1, hd'⟩ := le_daysInMonth hmp hd hdoy hleap
  refine ⟨_, _, d, hciv mp d hmp hd, ?_, ?_, ?_, ?_, hd1, hd', ?_⟩
  · split <;> omega
  · split <;> omega
  · split <;> omega
  · split <;> omega
  · have hnumber := dayNumber_eq (Y := Y) (by omega) hmp' (by omega) hd1
    omega

/-! ### The time of day, and UTC_PACK -/

theorem packTimeOfDay_spec {msod : Int} (h0 : 0 ≤ msod) (h1 : msod < 86400000) :
    ∃ h mi sec ms : Nat, h < 24 ∧ mi < 60 ∧ sec < 60 ∧ ms < 1000 ∧
      packTimeOfDay msod = (h * 10000000 + mi * 100000 + sec * 1000 + ms : Nat) ∧
      ((h * 3600000 + mi * 60000 + sec * 1000 + ms : Nat) : Int) = msod := by
  lift msod to Nat using h0
  refine ⟨msod / 3600000, msod % 3600000 / 60000, msod % 60000 / 1000, msod % 1000, by omega, by omega, by omega,
    by omega, rfl, by omega⟩

/-- The milliseconds of whole days and the time of day add up to the instant. -/
theorem instant_of_day_and_time {day h mi sec ms : Nat} {total : Int} (hday : (day : Int) = total / 86400000)
    (htime : ((h * 3600000 + mi * 60000 + sec * 1000 + ms : Nat) : Int) = total % 86400000) :
    ((day * 86400000 + h * 3600000 + mi * 60000 + sec * 1000 + ms : Nat) : Int) = total := by
  push_cast at htime ⊢
  rw [← Int.mul_ediv_add_emod total 86400000, ← hday, ← htime]
  ring

/-- A time in the range of UTC_PACK is less than 2932897 days of milliseconds after the epoch. -/
theorem msSinceEpoch_bounds {c : Params} {now : Int} (htps : 1 ≤ c.tps) (h : c.inCalendar now = true) :
    0 ≤ msSinceEpoch c now ∧ msSinceEpoch c now < 2932897 * 86400000 := by
  simp only [Params.inCalendar, Bool.and_eq_true, decide_eq_true_eq] at h
  have h0 : (0 : Int) ≤ now := h.1
  have h1 : (now : Int) < 253402300800 * (c.tps : Int) := h.2
  have htps : (0 : Int) < c.tps := by omega
  have hlow : (0 : Int) ≤ now * 1000 := by omega
  have hhigh : (now * 1000 : Int) < 2932897 * 86400000 * c.tps := by omega
  exact ⟨Int.ediv_nonneg hlow htps.le, Int.ediv_lt_of_lt_mul htps hhigh⟩

theorem exec_utcPack_of_inCalendar {s : State} (hr : s.phase = .running) {now : Time}
    (h : s.cfg.inCalendar now = true) : exec (.utcPack now) s =
      .next { s with out := ⟨.stamp (utcPack s.cfg now).1 (utcPack s.cfg now).2, []⟩ } := by
  rw [exec, execUtcPack, whenRunning_of_running _ hr, State.begin_cfg, stampOf_of_inCalendar h, Ans.next_andThen]
  rfl

/-- Settles O27: the day of the instant has a calendar date, and the rest of it a time of day. -/
theorem utcPackIsTheCalendarInstant : Obligations.UtcPackIsTheCalendarInstant := by
  intro s now hr htps
  refine ⟨fun hin => ?_, fun hout => (exec_utcPack_refused_calendar hr now).2 hout⟩
  obtain ⟨h0, h1⟩ := msSinceEpoch_bounds htps hin
  obtain ⟨y, m, d, hciv, hy, hy', hm, hm', hd, hd', hnumber⟩ :=
    civilFromDays_spec (days := msSinceEpoch s.cfg now / 86400000) (by omega) (by omega)
  obtain ⟨h, mi, sec, ms, hh, hmi, hsec, hms, htime, hmsod⟩ :=
    packTimeOfDay_spec (msod := msSinceEpoch s.cfg now % 86400000) (by omega) (by omega)
  refine ⟨y, m, d, h, mi, sec, ms, hy, hy', hm, hm', hd, hd', hh, hmi, hsec, hms, ?_, ?_⟩
  · exact instant_of_day_and_time hnumber hmsod
  · have hdate : packDate ((y : Int), (m : Int), (d : Int)) = (y * 10000 + m * 100 + d : Nat) := by
      simp only [packDate]
      omega
    have hpack : utcPack s.cfg now = (((y * 10000 + m * 100 + d : Nat) : Int),
        ((h * 10000000 + mi * 100000 + sec * 1000 + ms : Nat) : Int)) := by
      simp only [utcPack, hciv, htime, hdate]
    rw [exec_utcPack_of_inCalendar hr hin, hpack]

end Sys2Proof.Machine

/-! ## CRC18 (rules R100, R101)

One shift of the register is linear, and so is everything made of it. Read as a polynomial, the register is multiplied
by `X` modulo the generator by a shift, so over a span it is the message times `X ^ 18` in the quotient ring by the
generator. -/

namespace Sys2Proof

/-! ### Linearity of the register (rule R101 (a)) -/

theorem crcShift_eq (poly r : U18) : crcShift poly r = (r <<< 1) ^^^ (if r.msb then poly else 0#18) := by
  cases h : r.msb <;> simp [crcShift, h]

theorem crcShift_xor (poly r s : U18) : crcShift poly (r ^^^ s) = crcShift poly r ^^^ crcShift poly s := by
  rw [crcShift_eq, crcShift_eq, crcShift_eq, BitVec.msb_xor, BitVec.shiftLeft_xor_distrib]
  have hfeedback : (if r.msb ^^ s.msb then poly else 0#18) =
      (if r.msb then poly else 0#18) ^^^ (if s.msb then poly else 0#18) := by
    cases r.msb <;> cases s.msb <;> simp
  rw [hfeedback]
  ac_rfl

theorem iterate_crcShift_xor (poly : U18) (n : Nat) (r s : U18) :
    (crcShift poly)^[n] (r ^^^ s) = (crcShift poly)^[n] r ^^^ (crcShift poly)^[n] s :=
  Function.Semiconj₂.iterate (crcShift_xor poly) n r s

/-- A byte enters the bits 17:10 of the register by exclusive-or. -/
theorem byteAtTop_xor (a b : Byte) :
    (a ^^^ b).zeroExtend 18 <<< 10 = a.zeroExtend 18 <<< 10 ^^^ b.zeroExtend 18 <<< 10 := by
  simp [BitVec.shiftLeft_xor_distrib]

theorem crcByte_xor (poly r s : U18) (a b : Byte) :
    crcByte poly (r ^^^ s) (a ^^^ b) = crcByte poly r a ^^^ crcByte poly s b := by
  rw [crcByte, crcByte, crcByte, ← iterate_crcShift_xor, byteAtTop_xor]
  congr 1
  ac_rfl

theorem foldl_crcByte_xor (poly r s : U18) {a b : Bytes} (h : a.length = b.length) :
    (List.zipWith (· ^^^ ·) a b).foldl (crcByte poly) (r ^^^ s) =
      a.foldl (crcByte poly) r ^^^ b.foldl (crcByte poly) s := by
  induction a generalizing b r s with
  | nil =>
    obtain rfl := List.eq_nil_of_length_eq_zero h.symm
    rfl
  | cons x a ih =>
    obtain ⟨y, b, rfl⟩ := List.exists_cons_of_length_eq_add_one h.symm
    simp only [List.zipWith_cons_cons, List.foldl_cons, crcByte_xor]
    exact ih _ _ (Nat.succ.inj h)

theorem crc18_of_no_xorOut {c : Params} (h : c.crcXorOut = 0) (span : Bytes) :
    crc18 c span = span.foldl (crcByte c.crcPoly) 0#18 := by
  simp [crc18, h]

/-! ### The table of one-byte CRCs (rule R101 (b), (c)) -/

/-- Shifts that push no set bit out of the register only shift. -/
theorem iterate_crcShift_of_lt {poly r : U18} {n : Nat} (h : r.toNat * 2 ^ n < 2 ^ 18) :
    (crcShift poly)^[n] r = r <<< n := by
  induction n with
  | zero => simp
  | succ n ih =>
    have hn : r.toNat * 2 ^ n < 2 ^ 17 := by rw [pow_succ, ← mul_assoc] at h; omega
    have hshift : (r <<< n).toNat = r.toNat * 2 ^ n := by
      rw [BitVec.toNat_shiftLeft, Nat.shiftLeft_eq, Nat.mod_eq_of_lt (by omega)]
    have hmsb : (r <<< n).msb = false := by
      rw [BitVec.msb_eq_false_iff_two_mul_lt, hshift]
      omega
    rw [Function.iterate_succ_apply', ih (by omega), crcShift, hmsb, BitVec.shiftLeft_add]
    rfl

/-- The register is its top byte, in place, and its low ten bits. -/
theorem register_split (r : U18) :
    r = (r.truncate 10).zeroExtend 18 ^^^ (((r >>> 10).truncate 8 : Byte).zeroExtend 18 <<< 10) := by
  ext i hi
  by_cases h : i < 10
  · simp [h, BitVec.getLsbD_eq_getElem hi]
  · have htop : i - 10 < 8 := by omega
    have hi' : 10 + (i - 10) = i := by omega
    simp [h, htop, hi', hi, BitVec.getLsbD_eq_getElem]

theorem crcByte_low_bits (poly : U18) (low : BitVec 10) :
    crcByte poly (low.zeroExtend 18) 0#8 = low.zeroExtend 18 <<< 8 := by
  have hlow := low.isLt
  have hzero : low.zeroExtend 18 ^^^ ((0#8).zeroExtend 18 <<< 10) = low.zeroExtend 18 := by simp
  rw [crcByte, hzero, iterate_crcShift_of_lt]
  rw [BitVec.toNat_setWidth_of_le (by omega)]
  omega

/-- The low ten bits are shifted into the place of the top byte, which the table accounts for. -/
theorem crcByte_eq_table (poly r : U18) (x : Byte) :
    crcByte poly r x = (r <<< 8) ^^^ crcByte poly 0#18 ((r >>> 10).truncate 8 ^^^ x) := by
  have hshift : (r.truncate 10).zeroExtend 18 <<< 8 = r <<< 8 := by
    ext i hi
    by_cases h : i < 8
    · simp [h]
    · have hlow : i - 8 < 10 := by omega
      simp [h, hlow, BitVec.getLsbD_eq_getElem (x := r) (i := i - 8) (by omega)]
  have henter : crcByte poly r x =
      crcByte poly ((r.truncate 10).zeroExtend 18 ^^^ 0#18) (0#8 ^^^ ((r >>> 10).truncate 8 ^^^ x)) := by
    rw [crcByte, crcByte, BitVec.zero_xor, BitVec.xor_zero, byteAtTop_xor, ← BitVec.xor_assoc, ← register_split]
  rw [henter, crcByte_xor, crcByte_low_bits, hshift]

end Sys2Proof

namespace Sys2Proof.Machine

open Sys2Proof

/-! ### CRC18 as a row -/

theorem exec_crc18_of_running {s : State} (hr : s.phase = .running) (span : Bytes) :
    exec (.crc18 span) s = .next { s with out := ⟨.value18 (crc18 s.cfg span), []⟩ } :=
  whenRunning_answer hr fun s => .value18 (crc18 s.cfg span)

/-! ### Bits as polynomials over GF(2) -/

/-- The coefficient of a bit. -/
def bitCoeff (b : Bool) : ZMod 2 := if b then 1 else 0

theorem bitCoeff_xor (a b : Bool) : bitCoeff (a ^^ b) = bitCoeff a + bitCoeff b := by
  cases a <;> cases b <;> decide

theorem bitCoeff_injective : Function.Injective bitCoeff := by decide

theorem bitsPoly_concat (bits : List Bool) (b : Bool) :
    bitsPoly (bits ++ [b]) = bitsPoly bits * Polynomial.X + Polynomial.C (bitCoeff b) := by
  cases b <;> simp [bitsPoly, bitCoeff]

/-- The first bits stand above the last ones. -/
theorem bitsPoly_append (xs ys : List Bool) :
    bitsPoly (xs ++ ys) = bitsPoly xs * Polynomial.X ^ ys.length + bitsPoly ys := by
  induction ys using List.reverseRecOn with
  | nil => simp [bitsPoly]
  | append_singleton ys y ih =>
    rw [← List.append_assoc, bitsPoly_concat, ih, bitsPoly_concat, List.length_append, List.length_singleton]
    ring

/-- The coefficients of the polynomial of a list of bits, the last bit being the constant one. -/
theorem coeff_bitsPoly (bits : List Bool) (k : Nat) :
    (bitsPoly bits).coeff k = bitCoeff (bits.reverse.getD k false) := by
  induction bits using List.reverseRecOn generalizing k with
  | nil => simp [bitsPoly, bitCoeff]
  | append_singleton bits b ih =>
    rw [bitsPoly_concat, List.reverse_concat]
    cases k with
    | zero => simp
    | succ k => simp [ih]

theorem degree_bitsPoly_lt {bits : List Bool} {n : Nat} (h : bits.length ≤ n) : (bitsPoly bits).degree < n := by
  rw [Polynomial.degree_lt_iff_coeff_zero]
  intro k hk
  rw [coeff_bitsPoly, List.getD_eq_default _ _ (by simp; omega)]
  rfl

/-- A list of bits of known length is read off its polynomial. -/
theorem eq_of_bitsPoly_eq {xs ys : List Bool} (hlen : xs.length = ys.length) (h : bitsPoly xs = bitsPoly ys) :
    xs = ys := by
  refine List.reverse_injective (List.ext_getElem (by simpa using hlen) fun k hx hy => ?_)
  have hk := congrArg (·.coeff k) h
  simp only [coeff_bitsPoly, List.getD_eq_getElem _ _ hx, List.getD_eq_getElem _ _ hy] at hk
  exact bitCoeff_injective hk

theorem getD_reverse_msbFirst {w : Nat} (v : BitVec w) (k : Nat) :
    ((List.range w).map fun i => v.getMsbD i).reverse.getD k false = v.getLsbD k := by
  by_cases hk : k < w
  · have hk' : w - 1 - (w - 1 - k) = k := by omega
    have hlt : w - 1 - k < w := by omega
    simp [hk, BitVec.getMsbD, hk', hlt]
  · simp [hk, BitVec.getLsbD_of_ge v k (by omega)]

/-- The coefficients of a word's polynomial are its bits by number. -/
theorem coeff_bitsPoly_msbFirst {w : Nat} (v : BitVec w) (k : Nat) :
    (bitsPoly ((List.range w).map fun i => v.getMsbD i)).coeff k = bitCoeff (v.getLsbD k) := by
  rw [coeff_bitsPoly, getD_reverse_msbFirst]

theorem coeff_valuePoly (v : U18) (k : Nat) : (valuePoly v).coeff k = bitCoeff (v.getLsbD k) :=
  coeff_bitsPoly_msbFirst v k

theorem degree_valuePoly_lt (v : U18) : (valuePoly v).degree < 18 :=
  degree_bitsPoly_lt (by simp)

theorem valuePoly_xor (a b : U18) : valuePoly (a ^^^ b) = valuePoly a + valuePoly b := by
  ext k
  simp only [coeff_valuePoly, Polynomial.coeff_add, BitVec.getLsbD_xor, bitCoeff_xor]

theorem valuePoly_zero : valuePoly 0#18 = 0 := by
  ext k
  simp [coeff_valuePoly, bitCoeff]

/-! ### The span as a polynomial -/

theorem bitsOf_append (a b : Bytes) : bitsOf (a ++ b) = bitsOf a ++ bitsOf b :=
  List.flatMap_append

theorem bitsOf_length (span : Bytes) : (bitsOf span).length = 8 * span.length := by
  simp [bitsOf, List.length_flatMap, mul_comm]

theorem bitsPoly_bitsOf_concat (span : Bytes) (b : Byte) :
    bitsPoly (bitsOf (span ++ [b])) = bitsPoly (bitsOf span) * Polynomial.X ^ 8 + bitsPoly (bitsOf [b]) := by
  rw [bitsOf_append, bitsPoly_append, bitsOf_length]
  rfl

/-- A byte that enters the register stands for the byte times `X ^ 10`. -/
theorem valuePoly_byteAtTop (b : Byte) :
    valuePoly (b.zeroExtend 18 <<< 10) = bitsPoly (bitsOf [b]) * Polynomial.X ^ 10 := by
  have hbits : bitsOf [b] = (List.range 8).map fun i => b.getMsbD i := List.flatMap_singleton ..
  ext k
  rw [hbits, coeff_valuePoly, Polynomial.coeff_mul_X_pow', coeff_bitsPoly_msbFirst]
  by_cases hk : k < 10
  · simp [hk, bitCoeff]
  · have hbit : (b.zeroExtend 18 <<< 10).getLsbD k = b.getLsbD (k - 10) := by
      by_cases htop : k - 10 < 8
      · have hk18 : k < 18 := by omega
        simp [hk, hk18]
      · rw [BitVec.getLsbD_of_ge b _ (by omega), BitVec.getLsbD_of_ge _ _ (by omega)]
    rw [hbit, if_pos (by omega)]

/-! ### The register modulo the generator (rule R100) -/

theorem generatorPoly_monic (c : Params) : (generatorPoly c).Monic :=
  Polynomial.monic_X_pow_add (degree_valuePoly_lt c.crcPoly)

theorem degree_generatorPoly (c : Params) : (generatorPoly c).degree = 18 := by
  rw [generatorPoly, Polynomial.degree_add_eq_left_of_degree_lt] <;> rw [Polynomial.degree_X_pow]
  · rfl
  · exact degree_valuePoly_lt c.crcPoly

/-- A shift multiplies by `X`, but for the bit that runs over. -/
theorem valuePoly_shiftLeft_one (r : U18) :
    valuePoly (r <<< 1) + (if r.msb then Polynomial.X ^ 18 else 0) = valuePoly r * Polynomial.X := by
  have hover (k : Nat) : (if r.msb then (Polynomial.X ^ 18 : Polynomial (ZMod 2)) else 0).coeff k =
      bitCoeff (decide (k = 18) && r.msb) := by
    cases r.msb <;> simp [bitCoeff, Polynomial.coeff_X_pow]
  ext k
  rw [Polynomial.coeff_add, coeff_valuePoly, hover, ← bitCoeff_xor]
  cases k with
  | zero => simp [bitCoeff]
  | succ k =>
    rw [Polynomial.coeff_mul_X, coeff_valuePoly]
    congr 1
    rcases lt_trichotomy k 17 with hk | rfl | hk
    · have hk18 : k + 1 < 18 := by omega
      simp [hk.ne, hk18, BitVec.getLsbD_eq_getElem (show k < 18 by omega)]
    · simp [BitVec.msb_eq_getLsbD_last]
    · simp [hk.ne', BitVec.getLsbD_of_ge r k (by omega)]

/-- The bit that runs over brings the generator in. -/
theorem valuePoly_crcShift (c : Params) (r : U18) :
    valuePoly (crcShift c.crcPoly r) + (if r.msb then generatorPoly c else 0) = valuePoly r * Polynomial.X := by
  rw [← valuePoly_shiftLeft_one, crcShift_eq, valuePoly_xor]
  cases r.msb
  · simp [valuePoly_zero]
  · simp only [if_true, generatorPoly]
    linear_combination CharTwo.add_self_eq_zero (valuePoly c.crcPoly)

theorem mk_valuePoly_crcShift (c : Params) (r : U18) :
    AdjoinRoot.mk (generatorPoly c) (valuePoly (crcShift c.crcPoly r)) =
      AdjoinRoot.mk (generatorPoly c) (valuePoly r) * AdjoinRoot.root (generatorPoly c) := by
  rw [← AdjoinRoot.mk_X, ← map_mul, ← valuePoly_crcShift c]
  split <;> simp

theorem mk_valuePoly_iterate_crcShift (c : Params) (n : Nat) (r : U18) :
    AdjoinRoot.mk (generatorPoly c) (valuePoly ((crcShift c.crcPoly)^[n] r)) =
      AdjoinRoot.mk (generatorPoly c) (valuePoly r) * AdjoinRoot.root (generatorPoly c) ^ n := by
  induction n with
  | zero => simp
  | succ n ih => rw [Function.iterate_succ_apply', mk_valuePoly_crcShift, ih, pow_succ, mul_assoc]

/-- The register after a span is the message times `X ^ 18`, modulo the generator. -/
theorem mk_valuePoly_register (c : Params) (span : Bytes) :
    AdjoinRoot.mk (generatorPoly c) (valuePoly (span.foldl (crcByte c.crcPoly) 0#18)) =
      AdjoinRoot.mk (generatorPoly c) (bitsPoly (bitsOf span) * Polynomial.X ^ 18) := by
  induction span using List.reverseRecOn with
  | nil => simp [bitsOf, bitsPoly, valuePoly_zero]
  | append_singleton span b ih =>
    rw [List.foldl_append, List.foldl_cons, List.foldl_nil, crcByte, mk_valuePoly_iterate_crcShift, valuePoly_xor,
      valuePoly_byteAtTop, bitsPoly_bitsOf_concat]
    simp only [map_mul, map_add, map_pow, AdjoinRoot.mk_X, ih]
    ring

/-- The constant term of the generator keeps `X` and it coprime. -/
theorem isCoprime_X_generatorPoly {c : Params} (h : c.crcPoly.getLsbD 0 = true) :
    IsCoprime Polynomial.X (generatorPoly c) := by
  rw [Polynomial.irreducible_X.coprime_iff_not_dvd, Polynomial.X_dvd_iff]
  simp [generatorPoly, coeff_valuePoly, h, bitCoeff]

/-- Settles O1: the register is congruent to the message times `X ^ 18` and of degree below the generator's. -/
theorem crcIsPolynomialRemainder : Obligations.CrcIsPolynomialRemainder := by
  intro s span hr hx
  refine ⟨crc18 s.cfg span, exec_crc18_of_running hr span, ?_⟩
  have hreduced : Polynomial.modByMonic (valuePoly (crc18 s.cfg span)) (generatorPoly s.cfg) =
      valuePoly (crc18 s.cfg span) :=
    (Polynomial.modByMonic_eq_self_iff (generatorPoly_monic s.cfg)).2
      (by rw [degree_generatorPoly]; exact degree_valuePoly_lt _)
  rw [← hreduced, crc18_of_no_xorOut hx]
  exact Polynomial.modByMonic_eq_of_dvd_sub (generatorPoly_monic s.cfg)
    (AdjoinRoot.mk_eq_mk.1 (mk_valuePoly_register s.cfg span))

/-- Settles O2: from the register 0 = 0 ^^^ 0, by linearity. -/
theorem crcIsLinear : Obligations.CrcIsLinear := by
  intro c a b hx hlen
  simpa only [crc18_of_no_xorOut hx, BitVec.xor_self] using foldl_crcByte_xor c.crcPoly 0#18 0#18 hlen

/-- Settles O3: each step of the table is a step of the register. -/
theorem crcStreamsThroughByteTable : Obligations.CrcStreamsThroughByteTable := by
  intro c a b hx
  simp only [crc18_of_no_xorOut hx, List.foldl_append, List.foldl_cons, List.foldl_nil]
  congr 1
  funext r x
  exact crcByte_eq_table c.crcPoly r x

/-- Equal registers: the generator divides the difference of the messages. -/
theorem generatorPoly_dvd_of_crc18_eq {c : Params} {a b : Bytes} (h : crc18 c a = crc18 c b) :
    generatorPoly c ∣ (bitsPoly (bitsOf a) - bitsPoly (bitsOf b)) * Polynomial.X ^ 18 := by
  have hreg : a.foldl (crcByte c.crcPoly) 0#18 = b.foldl (crcByte c.crcPoly) 0#18 :=
    (BitVec.xor_left_inj c.crcXorOut).1 h
  rw [sub_mul, ← AdjoinRoot.mk_eq_mk, ← mk_valuePoly_register, ← mk_valuePoly_register, hreg]

/-- A burst stands in the message above the bits that follow it. -/
theorem bitsPoly_burst_sub {before x y after_ : List Bool} (hlen : x.length = y.length) :
    bitsPoly (before ++ x ++ after_) - bitsPoly (before ++ y ++ after_) =
      (bitsPoly x - bitsPoly y) * Polynomial.X ^ after_.length := by
  simp only [bitsPoly_append, hlen]
  ring

/-- Settles O4: equal CRCs make the generator, which is coprime to `X`, divide the difference of the two bursts, which
is of lower degree. -/
theorem crcDetectsShortBursts : Obligations.CrcDetectsShortBursts := by
  intro c a b before x y after_ hconst ha hb hlen hle hne heq
  have hdvd := generatorPoly_dvd_of_crc18_eq heq
  rw [ha, hb, bitsPoly_burst_sub hlen, mul_assoc, ← pow_add] at hdvd
  have hburst : generatorPoly c ∣ bitsPoly x - bitsPoly y :=
    (isCoprime_X_generatorPoly hconst).symm.pow_right.dvd_of_dvd_mul_right hdvd
  have hdegree : (bitsPoly x - bitsPoly y).degree < (generatorPoly c).degree := by
    rw [degree_generatorPoly]
    exact (Polynomial.degree_sub_le _ _).trans_lt
      (max_lt (degree_bitsPoly_lt hle) (degree_bitsPoly_lt (hlen ▸ hle)))
  exact hne (eq_of_bitsPoly_eq hlen (sub_eq_zero.1 (Polynomial.eq_zero_of_dvd_of_degree_lt hburst hdegree)))

/-! ## CK_VERIFY and LINE_SER (rules R104, R126) -/

theorem ckVerify_of_ckDec {c : Params} {span f : Bytes} {received : U18} (h : ckDec c f = some received) :
    ckVerify c span f = some (decide (received = crc18 c span), received, crc18 c span) :=
  ckVerify_eq_some.2 ⟨received, h, rfl⟩

theorem exec_ckVerify_of_ckDec {s : State} (hr : s.phase = .running) {span f : Bytes} {received : U18}
    (h : ckDec s.cfg f = some received) : exec (.ckVerify span f) s = .next { s with
      out := ⟨.verify (decide (received = crc18 s.cfg span)) received (crc18 s.cfg span), []⟩ } := by
  rw [exec, execCkVerify, whenRunning_of_running _ hr, State.begin_cfg, ckVerify_of_ckDec h]
  rfl

/-- Settles O6: the two values are what CK_DEC and CRC18 answer. -/
theorem verifyComparesReceivedWithComputed : Obligations.VerifyComparesReceivedWithComputed := by
  intro s span f hr hlen hall
  obtain ⟨received, hdec⟩ := Option.isSome_iff_exists.1 (ckDec_isSome.2 ⟨hlen, hall⟩)
  exact ⟨received, crc18 s.cfg span, exec_ckDec_of_some hr hdec, exec_crc18_of_running hr span,
    exec_ckVerify_of_ckDec hr hdec⟩

/-- LINE_SER of a line in its domain answers the framed bytes and the field of their span. -/
theorem exec_lineSer_of_word {s : State} {l : Line} (hr : s.phase = .running) (hp : l.pfx.all isWord = true)
    (hq : l.payload ≠ []) : exec (.lineSer l) s = .next { s with
      out := ⟨.bytes (framedBytes l ++ ckEnc s.cfg (crc18 s.cfg (s.cfg.span (framedBytes l) l))), []⟩ } := by
  have hlen : decide (1 ≤ l.payload.length) = true := decide_eq_true (List.length_pos_iff.2 hq)
  rw [exec, execLineSer, whenRunning_of_running _ hr, hlen, inDomain_true, State.serialize_of_word hp, List.append_nil]
  rfl

/-- Settles O11: the bytes before the field are `framedBytes`. -/
theorem lineSerEmitsSeparatorsByEdges : Obligations.LineSerEmitsSeparatorsByEdges := by
  intro s l hr hp hq
  refine ⟨framedBytes l, rfl, fun hpad => ?_, exec_lineSer_of_word hr hp hq⟩
  simp [Params.pad, hpad]

end Sys2Proof.Machine

/-! ## LINE_SER and back (rules R126, R127, R235) -/

namespace Sys2Proof

/-- The separator LINE_SER writes is whitespace (rules R7, R126). -/
theorem isWs_of_mem_separator {c : Params} (h : c.legal = true) : ∀ x ∈ ([0x20] : Bytes), c.isWs x = true := by
  simp only [Params.legal, Bool.and_eq_true] at h
  obtain ⟨⟨⟨⟨-, hspace, -⟩, -⟩, -⟩, -⟩ := h
  rintro x (⟨⟩ | ⟨_, ⟨⟩⟩)
  exact hspace

theorem structuredShape_eq_false_of_last {q : Bytes} (h : q.getLast?.any isCloser = false) :
    structuredShape q = false := by
  by_contra hq
  simp [getLast_of_structuredShape (Bool.not_eq_false _ ▸ hq)] at h

/-- A payload that neither begins with an opener nor ends with a closer is framed between spaces (rule R126). -/
theorem framedBytes_of_bare {l : Line} (hopen : l.payload.head?.any isOpener = false)
    (hclose : l.payload.getLast?.any isCloser = false) : framedBytes l = l.pfx ++ [0x20] ++ l.payload ++ [0x20] := by
  simp [framedBytes, sepUnless, hopen, hclose]

/-- A bare token between spaces, after no word character, is read under no word run (rule R124). The token's own
leading word characters are the run of rule R122; what is left of it is neither structured nor padded, so C applies. -/
theorem lineReading_bare_of_no_pfx {c : Params} (hl : c.legal = true) {q : Bytes} (hlen : q ≠ [])
    (htoken : ∀ x ∈ q, c.isWs x = false) (hclose : q.getLast?.any isCloser = false) :
    c.LineReading ([0x20] ++ q ++ [0x20]) ⟨[], q⟩ := by
  have hspace := isWs_of_mem_separator hl
  have hbare : c.BareAmid ([0x20] ++ q ++ [0x20]) q :=
    ⟨[0x20], [0x20], rfl, fun x hx => (List.mem_append.1 hx).elim (hspace x) (hspace x), by simp, by simp, hlen,
      htoken⟩
  obtain ⟨p, t, hq, hp, ht⟩ : ∃ p t, q = p ++ t ∧ (∀ x ∈ p, isWord x = true) ∧ ∀ x ∈ t.head?, isWord x = false :=
    ⟨_, _, List.takeWhile_append_dropWhile.symm, fun x => List.mem_takeWhile_imp, head_dropWhile _ _⟩
  have htail : ∀ x ∈ t, c.isWs x = false := fun x hx => htoken x (hq ▸ List.mem_append_right p hx)
  have hstrip : stripBy c.isWs (t ++ [0x20]) = t :=
    stripBy_eq_of_append (lead := []) nofun hspace (fun x hx => htail x (List.mem_of_mem_head? hx))
      fun x hx => htail x (List.mem_of_mem_getLast? hx)
  have hA : ¬ ∃ r, c.StructuredAmid (t ++ [0x20]) r := by
    rintro ⟨r, h⟩
    have hshape := ((structuredAmid_iff hl).1 h).1
    rw [hstrip] at hshape
    rw [hq, List.getLast?_append_of_ne_nil _ (ne_nil_of_structuredShape hshape),
      getLast_of_structuredShape hshape] at hclose
    cases hclose
  have hB : ¬ ∃ r, c.BareAmid (t ++ [0x20]) r := by
    rintro ⟨r, h⟩
    obtain rfl := (bareAmid_iff.1 h).2.trans hstrip
    obtain ⟨gapA, gapB, hgaps, -, hneA, hneB, -⟩ := h
    have hsum := congrArg List.length hgaps
    have hposA := List.length_pos_iff.2 hneA
    have hposB := List.length_pos_iff.2 hneB
    simp only [List.length_append, List.length_singleton] at hsum
    omega
  refine ⟨[0x20], p, t ++ [0x20], by simp [hq], hspace, ?_, hp, ?_, .inr (.inr ⟨hA, hB, rfl, hbare⟩)⟩
  · rw [← List.append_assoc, ← hq, List.head?_append_of_ne_nil _ hlen]
    exact fun x hx => htoken x (List.mem_of_mem_head? hx)
  · cases t with
    | nil => rintro x ⟨⟩; rfl
    | cons y ys => exact ht

/-- What LINE_SER emits before the field reads as the line itself (rule R127). -/
theorem lineReading_framedBytes {c : Params} (hl : c.legal = true) {l : Line} (hp : l.pfx.all isWord = true)
    (hq : structuredShape l.payload = true ∨ (l.payload ≠ [] ∧ (∀ x ∈ l.payload, c.isWs x = false) ∧
      l.payload.head?.any isOpener = false ∧ l.payload.getLast?.any isCloser = false)) :
    c.LineReading (framedBytes l) l := by
  rcases hq with hshape | ⟨hlen, htoken, hopen, hclose⟩
  · rw [framedBytes_of_structured hshape]
    exact lineReading_structured hl hp hshape
  · rw [framedBytes_of_bare hopen hclose]
    obtain ⟨pfx, payload⟩ := l
    cases pfx with
    | nil => exact lineReading_bare_of_no_pfx hl hlen htoken hclose
    | cons x xs => exact lineReading_bare hl hp nofun (structuredShape_eq_false_of_last hclose) hlen htoken

end Sys2Proof

namespace Sys2Proof.Machine

open Sys2Proof

/-- Settles O8: the bytes before the field read as the line, and the field is that of their span. -/
theorem lineSerThenParseRestoresLine : Obligations.LineSerThenParseRestoresLine := by
  intro s l hr hl hp hq
  have hne : l.payload ≠ [] := hq.elim ne_nil_of_structuredShape And.left
  obtain ⟨v, hform, hparse⟩ := lineParse_ckFieldOf hl (lineReading_framedBytes hl hp hq) .value
  cases v with
  | bypass => cases hform
  | valid =>
    refine ⟨_, exec_lineSer_of_word hr hp hne, ?_⟩
    rw [exec_lineParse_of_running hr, ← hparse]
    rfl

/-- LINE_SER of a payload under a run outside WORD takes the CONTRACT fault. -/
theorem exec_lineSer_of_not_word {s : State} {l : Line} (hr : s.phase = .running) (hp : l.pfx.all isWord = false)
    (hq : l.payload ≠ []) : exec (.lineSer l) s =
      .next { s with out := ⟨.none, [.contract l.pfx]⟩, phase := .stuck l.pfx } := by
  have hlen : decide (1 ≤ l.payload.length) = true := decide_eq_true (List.length_pos_iff.2 hq)
  rw [exec, execLineSer, whenRunning_of_running _ hr, hlen, inDomain_true, State.serialize_of_not_word hp]
  rfl

/-- Settles O12: the fault is the only event of the row. -/
theorem badPrefixTakesContractFault : Obligations.BadPrefixTakesContractFault :=
  fun _ _ hr hq hp => exec_lineSer_of_not_word hr hp hq

end Sys2Proof.Machine

/-! ## A payload through the frame (rules R127, R154) -/

namespace Sys2Proof.Machine

open Sys2Proof

/-- Settles O14: a written payload is structured, so its line comes back from the frame (O8), and PL_DEC takes back
what PL_ENC wrote. -/
theorem payloadRoundTripThroughFrame : Obligations.PayloadRoundTripThroughFrame := by
  intro s v hr hl hrange hraw
  obtain ⟨b, hser, hparse⟩ := lineSerThenParseRestoresLine s (plEnc s.cfg v) hr hl (legal_pfx_word hl v)
    (.inl (structuredShape_plEnc s.cfg v))
  refine ⟨plEnc s.cfg v, b, exec_plEnc_of_inRange hr hrange, hser, hparse, ?_⟩
  rw [exec_plDec_of_running hr, plDec_plEnc hl hrange hraw]

end Sys2Proof.Machine

/-! ## Integer fields (rules R82, R144, R145) -/

namespace Sys2Proof

/-! ### Integer literals -/

/-- A run of digits stands for the number whose digits they are, most significant first. -/
theorem decimalValue_eq_ofDigits (ds : Bytes) :
    decimalValue ds = Nat.ofDigits 10 (ds.reverse.map fun d => d.toNat - 0x30) := by
  rw [Nat.ofDigits_eq_foldr, List.foldr_map, List.foldr_reverse, decimalValue]
  refine congrArg (fun step => ds.foldl step 0) (funext₂ fun n d => ?_)
  rw [Nat.cast_id, Nat.add_comm]

/-- The digits of an integer literal: all of them digits, the first of them 0 only when alone (rules R80, R82). -/
theorem jsonIntPart_cons {d : Byte} {ds : Bytes} :
    JsonIntPart (d :: ds) ↔ (∀ x ∈ d :: ds, isDigit x = true) ∧ (d = 0x30 → ds = []) := by
  constructor
  · rintro (h | ⟨d', ds', h, hd, hne, hds⟩)
    · cases h
      exact ⟨by decide, fun _ => rfl⟩
    · cases h
      exact ⟨List.forall_mem_cons.2 ⟨hd, hds⟩, fun hzero => absurd hzero hne⟩
  · rintro ⟨hall, hlead⟩
    obtain ⟨hd, hds⟩ := List.forall_mem_cons.1 hall
    by_cases hzero : d = 0x30
    · exact .inl (by rw [hzero, hlead hzero])
    · exact .inr ⟨d, ds, rfl, hd, hzero, hds⟩

theorem jsonIntPart_ne_nil {ds : Bytes} (h : JsonIntPart ds) : ds ≠ [] := by
  rcases h with rfl | ⟨d, ds, rfl, -⟩ <;> simp

theorem isDigit_of_mem_jsonIntPart {ds : Bytes} (h : JsonIntPart ds) : ∀ x ∈ ds, isDigit x = true := by
  cases ds with
  | nil => nofun
  | cons d ds => exact (jsonIntPart_cons.1 h).1

theorem decNat_eq_some {ds : Bytes} {n : Nat} : decNat ds = some n ↔ JsonIntPart ds ∧ decimalValue ds = n := by
  cases ds with
  | nil => exact iff_of_false nofun fun h => jsonIntPart_ne_nil h.1 rfl
  | cons d ds =>
    rw [jsonIntPart_cons, ← List.all_eq_true, decNat]
    cases (d :: ds).all isDigit <;> by_cases hlead : d = 0x30 <;> by_cases hds : ds = [] <;> simp [hlead, hds]

/-- The integer an element stands for, in range or not (rule R145). -/
def IntLiteral (e : Bytes) (v : Int) : Prop :=
  ∃ ds : Bytes, JsonIntPart ds ∧ ((e = ds ∧ v = (decimalValue ds : Nat)) ∨
    (e = 0x2D :: ds ∧ v = -((decimalValue ds : Nat) : Int)))

/-- DEC_INT accepts the integer literals in the INT range (rule R145). -/
theorem decInt_eq_some_iff {c : Params} {e : Bytes} {v : Int} :
    decInt c e = some v ↔ c.inInt v = true ∧ IntLiteral e v := by
  have hguard (o : Option Int) : (o.bind fun w => if c.inInt w then some w else none) = some v ↔
      c.inInt v = true ∧ o = some v := by
    cases o with
    | none => simp
    | some w =>
      rw [Option.bind_some, Option.some.injEq]
      constructor
      · intro h
        split_ifs at h with hin
        cases h
        exact ⟨hin, rfl⟩
      · rintro ⟨hin, rfl⟩
        exact if_pos hin
  refine (hguard _).trans (and_congr_right fun _ => ?_)
  cases e with
  | nil =>
    refine iff_of_false nofun ?_
    rintro ⟨ds, hds, ⟨h, -⟩ | ⟨h, -⟩⟩
    · exact jsonIntPart_ne_nil hds h.symm
    · cases h
  | cons x xs =>
    by_cases hminus : x = 0x2D
    · subst hminus
      simp only [if_true, Option.map_eq_some_iff, Option.bind_eq_bind, Option.bind_eq_some_iff, decNat_eq_some]
      constructor
      · rintro ⟨_, ⟨n, ⟨hds, rfl⟩, ⟨⟩⟩, rfl⟩
        exact ⟨xs, hds, .inr ⟨rfl, rfl⟩⟩
      · rintro ⟨ds, hds, ⟨rfl, -⟩ | ⟨h, rfl⟩⟩
        · exact absurd (isDigit_of_mem_jsonIntPart hds 0x2D (by simp)) (by decide)
        · cases h
          exact ⟨_, ⟨_, ⟨hds, rfl⟩, rfl⟩, rfl⟩
    · simp only [if_neg hminus, Option.map_eq_some_iff, Option.bind_eq_bind, Option.bind_eq_some_iff, decNat_eq_some]
      constructor
      · rintro ⟨_, ⟨n, ⟨hds, rfl⟩, ⟨⟩⟩, rfl⟩
        exact ⟨x :: xs, hds, .inl ⟨rfl, rfl⟩⟩
      · rintro ⟨ds, hds, ⟨rfl, rfl⟩ | ⟨h, -⟩⟩
        · exact ⟨_, ⟨_, ⟨hds, rfl⟩, rfl⟩, rfl⟩
        · exact absurd (List.cons.inj h).1 hminus

/-- ENC_INT writes the sign and the digits (rule R144). -/
theorem encInt_eq_digits (v : Int) : encInt v = (if v < 0 then [0x2D] else []) ++
    (if v = 0 then [0x30] else (Nat.digits 10 v.natAbs).reverse.map fun d => BitVec.ofNat 8 (0x30 + d)) := by
  have hdigits : decimal v.natAbs =
      if v = 0 then [0x30] else (Nat.digits 10 v.natAbs).reverse.map digitByte := by
    split_ifs with hzero
    · rw [hzero]
      rfl
    · exact decimal_of_pos (Int.natAbs_pos.2 hzero)
  rw [encInt, hdigits]
  split_ifs <;> rfl

end Sys2Proof

namespace Sys2Proof.Machine

open Sys2Proof

/-! ### The rows -/

theorem exec_encInt_of_inInt {s : State} (hr : s.phase = .running) {v : Int} (hv : s.cfg.inInt v = true) :
    exec (.encInt v) s = .next { s with out := ⟨.bytes (encInt v), []⟩ } := by
  rw [exec, execEncInt, whenRunning_of_running _ hr, State.begin_cfg, hv, inDomain_true]
  rfl

theorem exec_decInt_of_running {s : State} (hr : s.phase = .running) (e : Bytes) :
    exec (.decInt e) s = .next { s with out := ⟨.intOrError (decInt s.cfg e), []⟩ } :=
  whenRunning_answer hr fun s => .intOrError (decInt s.cfg e)

/-- Settles O19, by the digits of the absolute value. -/
theorem encIntIsShortestDecimal : Obligations.EncIntIsShortestDecimal := by
  intro s v hr hv
  rw [exec_encInt_of_inInt hr hv, encInt_eq_digits]

/-- Settles O20, by the integer literals DEC_INT accepts. -/
theorem decIntAcceptsIntegerLiteralsInRange : Obligations.DecIntAcceptsIntegerLiteralsInRange := by
  intro s hr
  refine ⟨fun e => ⟨decInt s.cfg e, exec_decInt_of_running hr e, fun v => ?_⟩, fun v hv => ?_⟩
  · simp only [decInt_eq_some_iff, IntLiteral, decimalValue_eq_ofDigits]
  · refine ⟨encInt v, exec_encInt_of_inInt hr hv, ?_⟩
    rw [exec_decInt_of_running hr, decInt_encInt hv]

end Sys2Proof.Machine

/-! ## Arity and field types (rules R140, R142) -/

namespace Sys2Proof

/-- What a field decodes to from its element, or without one (rule R142). -/
def FieldDesc.read (c : Params) (f : FieldDesc) : Option Bytes → Option FieldValue
  | some e => decField c f.ty e
  | none => f.dflt

theorem decFields_cons (c : Params) (f : FieldDesc) (fs : List FieldDesc) (els : List Bytes) :
    decFields c (f :: fs) els =
      (f.read c els[0]?).bind fun v => (decFields c fs els.tail).map fun vs => v :: vs := by
  cases els with
  | nil => cases h : f.dflt <;> simp [decFields, FieldDesc.read, h]
  | cons e es => cases h : decField c f.ty e <;> simp [decFields, FieldDesc.read, h]

/-- The fields of an element list: a value for each field, read from the element in its place (rule R142). -/
theorem decFields_eq_some_iff {c : Params} : ∀ {fs : List FieldDesc} {els : List Bytes} {vs : List FieldValue},
    decFields c fs els = some vs ↔ vs.length = fs.length ∧ els.length ≤ fs.length ∧
      ∀ (j : Nat) (f : FieldDesc), fs[j]? = some f → vs[j]? = f.read c els[j]? := by
  intro fs
  induction fs with
  | nil =>
    intro els vs
    cases els <;> simp [decFields, eq_comm]
  | cons f fs ih =>
    intro els vs
    have htail : els.tail.length ≤ fs.length ↔ els.length ≤ fs.length + 1 := by
      rw [List.length_tail]
      omega
    simp only [decFields_cons, Option.bind_eq_some_iff, Option.map_eq_some_iff, ih, htail, List.getElem?_tail]
    constructor
    · rintro ⟨v, hfirst, ws, ⟨hlen, hle, hrest⟩, rfl⟩
      refine ⟨congrArg (· + 1) hlen, hle, ?_⟩
      rintro (_ | j) g hg
      · cases hg
        exact hfirst.symm
      · exact hrest j g hg
    · rintro ⟨hlen, hle, hread⟩
      obtain ⟨v, ws, rfl⟩ := List.exists_cons_of_length_eq_add_one hlen
      exact ⟨v, (hread 0 f rfl).symm, ws, ⟨Nat.succ.inj hlen, hle, fun j g => hread (j + 1) g⟩, rfl⟩

/-- A registered descriptor is the descriptor of some value. -/
theorem exists_descriptor_of_mem_registry {c : Params} {d : Descriptor} (h : d ∈ registry c) :
    ∃ v : Variant, v.descriptor c = d := by
  simp only [registry, List.mem_cons, List.not_mem_nil, or_false] at h
  rcases h with rfl | rfl | rfl | rfl
  · exact ⟨.publish ⟨[], [], 0, []⟩, rfl⟩
  · exact ⟨.timeQuery ⟨0, 0, 0, 0⟩, rfl⟩
  · exact ⟨.timeReply ⟨0, 0, 0, 0, 0, 0⟩, rfl⟩
  · exact ⟨.profileStart ⟨0, 0, [], [], []⟩, rfl⟩

/-- The value built under a name has the descriptor of that name. -/
theorem descriptor_of_variantOfValues {c : Params} {u v : Variant} {vs : List FieldValue}
    (h : variantOfValues (u.descriptor c).name vs = some v) : v.descriptor c = u.descriptor c := by
  generalize hname : (u.descriptor c).name = name at h
  unfold variantOfValues at h
  split at h <;> cases h <;> cases u <;> cases hname <;> rfl

/-- PL_DEC of a payload that splits, under the characters of a descriptor, yields what the fields make (rule R142). -/
theorem plDec_eq_known_iff {c : Params} (hl : c.legal = true) {l : Line} {u : Variant} {els : List Bytes}
    (hpfx : l.pfx = (u.descriptor c).pfx) (hels : splitArray c l.payload = some els) {v : Variant} :
    plDec c l = .known v ↔
      v.descriptor c = u.descriptor c ∧ decFields c (u.descriptor c).fields els = some v.values := by
  have hfind : findDescriptor c l.pfx = some (u.descriptor c) := hpfx ▸ findDescriptor_descriptor hl u
  constructor
  · intro h
    obtain ⟨d, els', vs, hd, hels', hdec, hval⟩ := plDec_eq_known h
    cases hfind.symm.trans hd
    cases hels.symm.trans hels'
    exact ⟨descriptor_of_variantOfValues hval, by rw [values_of_variantOfValues hval, hdec]⟩
  · rintro ⟨hdesc, hdec⟩
    rw [← hdesc] at hfind hdec
    simp only [plDec, hfind, hels, hdec, Option.bind_some, variantOfValues_values]

end Sys2Proof

namespace Sys2Proof.Machine

open Sys2Proof

/-- Settles O17: a value has one field for each field of its descriptor, so the arity is all that is left to check. -/
theorem decoderChecksArityAndTypes : Obligations.DecoderChecksArityAndTypes := by
  intro s l d els hr hl hd hpfx hels
  obtain ⟨u, rfl⟩ := exists_descriptor_of_mem_registry hd
  refine ⟨plDec s.cfg l, exec_plDec_of_running hr l, ?_, fun v => ?_⟩
  · cases h : plDec s.cfg l with
    | known v => exact .inr ⟨v, rfl⟩
    | unknown =>
      have hnone := plDec_eq_unknown.1 h
      rw [hpfx, findDescriptor_descriptor hl] at hnone
      cases hnone
    | decodeError => exact .inl rfl
  · rw [plDec_eq_known_iff hl hpfx hels, decFields_eq_some_iff]
    refine and_congr_right fun hdesc => ?_
    rw [← descriptor_length s.cfg v, hdesc]
    exact and_iff_right rfl

end Sys2Proof.Machine

/-! ## The recognizer and the grammar (rules R80, R81)

From a configuration the recognizer accepts a text that brings it to the end of a value with nothing left open. Per
production of the grammar one lemma says that the recognizer accepts it before a text accepted after it, and one that
whatever it accepts begins with it. -/

namespace Sys2Proof

/-! ### Accepted texts -/

/-- The recognizer reads the text and ends after a value with nothing left open. -/
def Accepts (d : Nat) (st : JState) (t : Bytes) : Prop :=
  ∃ mode, jRun d st t = some ⟨mode, []⟩ ∧ mode.complete = true

theorem accepts_nil {d : Nat} {mode : JMode} {stack : List JCtx} :
    Accepts d ⟨mode, stack⟩ [] ↔ mode.complete = true ∧ stack = [] := by
  simp [Accepts, jRun, and_comm]

theorem accepts_append_of_jRun {d : Nat} {st st' : JState} {a : Bytes} (h : jRun d st a = some st') {t : Bytes} :
    Accepts d st (a ++ t) ↔ Accepts d st' t := by
  simp only [Accepts, jRun_append, h, Option.bind_some]

theorem accepts_cons_of_jStep {d : Nat} {st st' : JState} {b : Byte} (h : jStep d st b = some st') {t : Bytes} :
    Accepts d st (b :: t) ↔ Accepts d st' t := by
  simp only [Accepts, jRun, h, Option.bind_some]

theorem accepts_cons {d : Nat} {st : JState} {b : Byte} {t : Bytes} :
    Accepts d st (b :: t) ↔ ∃ st', jStep d st b = some st' ∧ Accepts d st' t := by
  cases h : jStep d st b with
  | none => simp [Accepts, jRun, h]
  | some st' => simp [accepts_cons_of_jStep h]

/-- Where no value may end, or something is open, there is a byte to read. -/
theorem exists_cons_of_accepts {d : Nat} {mode : JMode} {stack : List JCtx} {t : Bytes}
    (hmore : mode.complete = false ∨ stack ≠ []) (h : Accepts d ⟨mode, stack⟩ t) :
    ∃ b t' st', t = b :: t' ∧ jStep d ⟨mode, stack⟩ b = some st' ∧ Accepts d st' t' := by
  cases t with
  | nil =>
    obtain ⟨hc, hstack⟩ := accepts_nil.1 h
    rcases hmore with hinc | hne
    · simp [hc] at hinc
    · exact absurd hstack hne
  | cons b t =>
    obtain ⟨st', hstep, h⟩ := accepts_cons.1 h
    exact ⟨b, t, st', rfl, hstep, h⟩

/-- A run of bytes that leave the configuration as it is. -/
theorem accepts_run_append {d : Nat} {st : JState} {p : Byte → Bool} (hstay : ∀ x, p x = true → jStep d st x = some st)
    {run : Bytes} (hrun : ∀ x ∈ run, p x = true) {t : Bytes} : Accepts d st (run ++ t) ↔ Accepts d st t := by
  induction run with
  | nil => rfl
  | cons x xs ih =>
    obtain ⟨hx, hxs⟩ := List.forall_mem_cons.1 hrun
    rw [List.cons_append, accepts_cons_of_jStep (hstay x hx), ih hxs]

/-- The longest run of bytes of a class, and the rest. -/
theorem exists_longest_run (p : Byte → Bool) (t : Bytes) :
    ∃ run rest, t = run ++ rest ∧ (∀ x ∈ run, p x = true) ∧ ∀ x ∈ rest.head?, p x = false :=
  ⟨t.takeWhile p, t.dropWhile p, List.takeWhile_append_dropWhile.symm, fun _ => List.mem_takeWhile_imp,
    head_dropWhile p t⟩

/-! ### Whitespace -/

/-- Where whitespace is passed over. -/
def JMode.SkipsWs (mode : JMode) : Prop := mode ∈ [.value, .valueOrEnd, .keyOrEnd, .key, .colon, .after]

theorem jStep_ws {mode : JMode} (hm : mode.SkipsWs) (d : Nat) (stack : List JCtx) {x : Byte} (hx : isJws x = true) :
    jStep d ⟨mode, stack⟩ x = some ⟨mode, stack⟩ := by
  simp only [JMode.SkipsWs, List.mem_cons, List.not_mem_nil, or_false] at hm
  rcases hm with rfl | rfl | rfl | rfl | rfl | rfl <;> exact if_pos hx

theorem accepts_ws_append {mode : JMode} (hm : mode.SkipsWs) {d : Nat} {stack : List JCtx} {w : Bytes} (hw : JsonWs w)
    {t : Bytes} : Accepts d ⟨mode, stack⟩ (w ++ t) ↔ Accepts d ⟨mode, stack⟩ t :=
  accepts_run_append (fun _ => jStep_ws hm d stack) hw

/-- The first byte that is not passed over. -/
theorem exists_token_of_accepts {mode : JMode} (hm : mode.SkipsWs) {d : Nat} {stack : List JCtx} {t : Bytes}
    (hmore : mode.complete = false ∨ stack ≠ []) (h : Accepts d ⟨mode, stack⟩ t) :
    ∃ w b t' st', t = w ++ b :: t' ∧ JsonWs w ∧ isJws b = false ∧ jStep d ⟨mode, stack⟩ b = some st' ∧
      Accepts d st' t' := by
  obtain ⟨w, rest, rfl, hw, hhead⟩ := exists_longest_run isJws t
  obtain ⟨b, t', st', rfl, hstep, hrest⟩ := exists_cons_of_accepts hmore ((accepts_ws_append hm hw).1 h)
  exact ⟨w, b, t', st', rfl, hw, hhead b rfl, hstep, hrest⟩

/-! ### What follows a value -/

/-- The byte that closes an array or object. -/
def JCtx.closer : JCtx → Byte
  | .arr => 0x5D
  | .obj => 0x7D

/-- The byte that opens an array or object. -/
def JCtx.opener : JCtx → Byte
  | .arr => 0x5B
  | .obj => 0x7B

/-- Where the recognizer stands after the opening byte. -/
def JCtx.opened : JCtx → JMode
  | .arr => .valueOrEnd
  | .obj => .keyOrEnd

/-- Where the recognizer stands after a comma. -/
def JCtx.next : JCtx → JMode
  | .arr => .value
  | .obj => .key

theorem skipsWs_opened (ctx : JCtx) : ctx.opened.SkipsWs := by
  cases ctx <;> simp [JCtx.opened, JMode.SkipsWs]

theorem skipsWs_next (ctx : JCtx) : ctx.next.SkipsWs := by
  cases ctx <;> simp [JCtx.next, JMode.SkipsWs]

theorem skipsWs_after : JMode.SkipsWs .after := by simp [JMode.SkipsWs]

theorem skipsWs_value : JMode.SkipsWs .value := skipsWs_next .arr

theorem skipsWs_colon : JMode.SkipsWs .colon := by simp [JMode.SkipsWs]

theorem jAfter_comma (ctx : JCtx) (stack : List JCtx) : jAfter (ctx :: stack) 0x2C = some ⟨ctx.next, ctx :: stack⟩ := by
  cases ctx <;> rfl

theorem jAfter_closer (ctx : JCtx) (stack : List JCtx) : jAfter (ctx :: stack) ctx.closer = some ⟨.after, stack⟩ := by
  cases ctx <;> rfl

/-- After a value inside an array or object come a comma or the closing byte, besides whitespace. -/
theorem jAfter_token {ctx : JCtx} {stack : List JCtx} {b : Byte} {st : JState} (hb : isJws b = false)
    (h : jAfter (ctx :: stack) b = some st) :
    (b = 0x2C ∧ st = ⟨ctx.next, ctx :: stack⟩) ∨ (b = ctx.closer ∧ st = ⟨.after, stack⟩) := by
  unfold jAfter at h
  rw [if_neg (by simp [hb])] at h
  split_ifs at h with hcomma harr hobj
  · cases ctx <;> cases h <;> exact .inl ⟨hcomma, rfl⟩
  · cases ctx <;> cases h
    exact .inr ⟨harr, rfl⟩
  · cases ctx <;> cases h
    exact .inr ⟨hobj, rfl⟩

theorem accepts_after_nil {d : Nat} {t : Bytes} : Accepts d ⟨.after, []⟩ t ↔ JsonWs t := by
  constructor
  · intro h
    induction t with
    | nil => nofun
    | cons b t ih =>
      obtain ⟨st, hstep, h⟩ := accepts_cons.1 h
      obtain ⟨hws, rfl⟩ := jAfter_nil hstep
      exact List.forall_mem_cons.2 ⟨hws, ih h⟩
  · intro h
    rw [← t.append_nil, accepts_ws_append skipsWs_after h, accepts_nil]
    exact ⟨rfl, rfl⟩

theorem exists_separator_of_accepts {d : Nat} {ctx : JCtx} {stack : List JCtx} {t : Bytes}
    (h : Accepts d ⟨.after, ctx :: stack⟩ t) :
    ∃ w t', JsonWs w ∧ ((t = w ++ 0x2C :: t' ∧ Accepts d ⟨ctx.next, ctx :: stack⟩ t') ∨
      (t = w ++ ctx.closer :: t' ∧ Accepts d ⟨.after, stack⟩ t')) := by
  obtain ⟨w, b, t', st, rfl, hw, hb, hstep, h⟩ :=
    exists_token_of_accepts skipsWs_after (.inr (List.cons_ne_nil ctx stack)) h
  refine ⟨w, t', hw, ?_⟩
  rcases jAfter_token hb hstep with ⟨rfl, rfl⟩ | ⟨rfl, rfl⟩
  · exact .inl ⟨rfl, h⟩
  · exact .inr ⟨rfl, h⟩

theorem accepts_comma {d : Nat} {ctx : JCtx} {stack : List JCtx} {w t : Bytes} (hw : JsonWs w)
    (h : Accepts d ⟨ctx.next, ctx :: stack⟩ t) : Accepts d ⟨.after, ctx :: stack⟩ (w ++ 0x2C :: t) :=
  (accepts_ws_append skipsWs_after hw).2 (accepts_cons.2 ⟨_, jAfter_comma ctx stack, h⟩)

theorem accepts_closer {d : Nat} {ctx : JCtx} {stack : List JCtx} {w t : Bytes} (hw : JsonWs w)
    (h : Accepts d ⟨.after, stack⟩ t) : Accepts d ⟨.after, ctx :: stack⟩ (w ++ ctx.closer :: t) :=
  (accepts_ws_append skipsWs_after hw).2 (accepts_cons.2 ⟨_, jAfter_closer ctx stack, h⟩)

/-- A byte that may follow a value ends a number too. -/
theorem jStep_of_jAfter {d : Nat} {mode : JMode} (hc : mode.complete = true) {stack : List JCtx} {b : Byte}
    {st : JState} (h : jAfter stack b = some st) : jStep d ⟨mode, stack⟩ b = some st := by
  have hb : isJws b = true ∨ b = 0x2C ∨ b = 0x5D ∨ b = 0x7D := by
    unfold jAfter at h
    split_ifs at h <;> simp_all
  have hdigit : isDigit b = false ∧ b ≠ 0x2E ∧ b ≠ 0x65 ∧ b ≠ 0x45 := by
    rcases hb with hws | rfl | rfl | rfl
    · rcases isJws_cases hws with rfl | rfl | rfl | rfl <;> decide
    · decide
    · decide
    · decide
  obtain ⟨hnot, hdot, he, hE⟩ := hdigit
  cases mode with
  | after => exact h
  | numZero | numInt | numFrac | numExp => 
    simpa only [jStep, hnot, hdot, he, hE, decide_false, Bool.or_self, Bool.false_eq_true, if_false] using h
  | value | valueOrEnd | keyOrEnd | key | colon | str | esc | hex | lit | numMinus | numDot | numE | numESign =>
    cases hc

theorem accepts_of_after {d : Nat} {mode : JMode} (hc : mode.complete = true) {stack : List JCtx} {t : Bytes}
    (h : Accepts d ⟨.after, stack⟩ t) : Accepts d ⟨mode, stack⟩ t := by
  cases t with
  | nil => exact accepts_nil.2 ⟨hc, (accepts_nil.1 h).2⟩
  | cons b t =>
    obtain ⟨st, hstep, h⟩ := accepts_cons.1 h
    exact accepts_cons.2 ⟨st, jStep_of_jAfter hc hstep, h⟩

/-- A value ends where the next byte is read as after a value. -/
theorem after_of_accepts {d : Nat} {mode : JMode} {stack : List JCtx} {t : Bytes}
    (hstep : ∀ b ∈ t.head?, jStep d ⟨mode, stack⟩ b = jAfter stack b) (h : Accepts d ⟨mode, stack⟩ t) :
    Accepts d ⟨.after, stack⟩ t := by
  cases t with
  | nil => exact accepts_nil.2 ⟨rfl, (accepts_nil.1 h).2⟩
  | cons b t =>
    obtain ⟨st, hst, h⟩ := accepts_cons.1 h
    exact accepts_cons.2 ⟨st, (hstep b rfl).symm.trans hst, h⟩

/-! ### Strings -/

theorem jRun_jsonChar {d : Nat} {stack : List JCtx} {key : Bool} {ch : Bytes} (h : JsonChar ch) :
    jRun d ⟨.str key, stack⟩ ch = some ⟨.str key, stack⟩ := by
  cases h with
  | unescaped b hctl hquote hesc =>
    simp only [jRun, jStep, if_neg hquote, if_neg hesc, if_neg (BitVec.not_lt.2 hctl)]
    rfl
  | escape b hb =>
    simp only [List.mem_cons, List.not_mem_nil, or_false] at hb
    rcases hb with rfl | rfl | rfl | rfl | rfl | rfl | rfl | rfl <;> rfl
  | unicode h0 h1 h2 h3 hh0 hh1 hh2 hh3 =>
    obtain ⟨d0, hd0⟩ := Option.isSome_iff_exists.1 hh0
    obtain ⟨d1, hd1⟩ := Option.isSome_iff_exists.1 hh1
    obtain ⟨d2, hd2⟩ := Option.isSome_iff_exists.1 hh2
    obtain ⟨d3, hd3⟩ := Option.isSome_iff_exists.1 hh3
    exact jRun_escape ⟨h0, h1, h2, h3, rfl, hd0, hd1, hd2, hd3⟩

/-- Where the recognizer stands after the closing quote. -/
def JMode.afterString (key : Bool) : JMode := if key then .colon else .after

theorem accepts_string_body {d : Nat} {stack : List JCtx} {key : Bool} {chars : List Bytes}
    (hchars : ∀ ch ∈ chars, JsonChar ch) {t : Bytes} (h : Accepts d ⟨.afterString key, stack⟩ t) :
    Accepts d ⟨.str key, stack⟩ (chars.flatten ++ 0x22 :: t) := by
  induction chars with
  | nil => exact (accepts_cons_of_jStep rfl).2 h
  | cons ch chars ih =>
    obtain ⟨hch, hrest⟩ := List.forall_mem_cons.1 hchars
    rw [List.flatten_cons, List.append_assoc, accepts_append_of_jRun (jRun_jsonChar hch)]
    exact ih hrest

theorem exists_hex_digit_of_accepts {d left : Nat} {stack : List JCtx} {key : Bool} {t : Bytes}
    (h : Accepts d ⟨.hex key left, stack⟩ t) : ∃ x t', t = x :: t' ∧ (hexVal x).isSome = true ∧
      Accepts d ⟨if left ≤ 1 then .str key else .hex key (left - 1), stack⟩ t' := by
  obtain ⟨x, t', st, rfl, hstep, h⟩ := exists_cons_of_accepts (.inl rfl) h
  simp only [jStep] at hstep
  split_ifs at hstep with hx hleft
  · cases hstep
    exact ⟨x, t', rfl, hx, by rwa [if_pos hleft]⟩
  · cases hstep
    exact ⟨x, t', rfl, hx, by rwa [if_neg hleft]⟩

/-- After a backslash comes the rest of an escape. -/
theorem exists_escape_of_accepts {d : Nat} {stack : List JCtx} {key : Bool} {t : Bytes}
    (h : Accepts d ⟨.esc key, stack⟩ t) :
    ∃ ch t', 0x5C :: t = ch ++ t' ∧ JsonChar ch ∧ Accepts d ⟨.str key, stack⟩ t' := by
  obtain ⟨b, t, st, rfl, hstep, h⟩ := exists_cons_of_accepts (.inl rfl) h
  simp only [jStep] at hstep
  split_ifs at hstep with hu hsimple <;> cases hstep
  · obtain ⟨h0, t, rfl, hh0, h⟩ := exists_hex_digit_of_accepts h
    obtain ⟨h1, t, rfl, hh1, h⟩ := exists_hex_digit_of_accepts (left := 3) h
    obtain ⟨h2, t, rfl, hh2, h⟩ := exists_hex_digit_of_accepts (left := 2) h
    obtain ⟨h3, t, rfl, hh3, h⟩ := exists_hex_digit_of_accepts (left := 1) h
    exact ⟨_, t, by rw [hu]; rfl, .unicode h0 h1 h2 h3 hh0 hh1 hh2 hh3, h⟩
  · exact ⟨[0x5C, b], t, rfl, .escape b hsimple, h⟩

theorem jStep_string_byte (d : Nat) (stack : List JCtx) (key : Bool) (b : Byte) : jStep d ⟨.str key, stack⟩ b =
    if b = 0x22 then some ⟨.afterString key, stack⟩
    else if b = 0x5C then some ⟨.esc key, stack⟩
    else if b < 0x20 then none
    else some ⟨.str key, stack⟩ := rfl

/-- Inside a string comes the closing quote or a character. -/
theorem exists_char_of_accepts {d : Nat} {stack : List JCtx} {key : Bool} {t : Bytes}
    (h : Accepts d ⟨.str key, stack⟩ t) :
    (∃ t', t = 0x22 :: t' ∧ Accepts d ⟨.afterString key, stack⟩ t') ∨
      ∃ ch t', t = ch ++ t' ∧ JsonChar ch ∧ Accepts d ⟨.str key, stack⟩ t' := by
  obtain ⟨b, t, st, rfl, hstep, h⟩ := exists_cons_of_accepts (.inl rfl) h
  rw [jStep_string_byte] at hstep
  split_ifs at hstep with hquote hesc hctl <;> cases hstep
  · exact .inl ⟨t, by rw [hquote], h⟩
  · subst hesc
    exact .inr (exists_escape_of_accepts h)
  · exact .inr ⟨[b], t, rfl, .unescaped b (BitVec.not_lt.1 hctl) hquote hesc, h⟩

theorem jsonChar_ne_nil {ch : Bytes} (h : JsonChar ch) : ch ≠ [] := by
  cases h <;> nofun

theorem exists_string_body_of_accepts {d : Nat} {stack : List JCtx} {key : Bool} : ∀ {t : Bytes},
    Accepts d ⟨.str key, stack⟩ t → ∃ (chars : List Bytes) (t' : Bytes), t = chars.flatten ++ 0x22 :: t' ∧
      (∀ ch ∈ chars, JsonChar ch) ∧ Accepts d ⟨.afterString key, stack⟩ t' := fun {t} h => by
  rcases exists_char_of_accepts h with ⟨t', rfl, h⟩ | ⟨ch, t', ht, hch, h⟩
  · exact ⟨[], t', rfl, nofun, h⟩
  · have hshorter : t'.length < t.length := by
      have := List.length_pos_iff.2 (jsonChar_ne_nil hch)
      rw [ht, List.length_append]
      omega
    obtain ⟨chars, t'', rfl, hchars, h⟩ := exists_string_body_of_accepts h
    exact ⟨ch :: chars, t'', by simp [ht], List.forall_mem_cons.2 ⟨hch, hchars⟩, h⟩
termination_by t => t.length
decreasing_by exact hshorter

/-! ### Literals -/

theorem accepts_lit_iff {d : Nat} {stack : List JCtx} {text : Bytes} (hne : text ≠ []) {t : Bytes} :
    Accepts d ⟨.lit text, stack⟩ t ↔ ∃ t', t = text ++ t' ∧ Accepts d ⟨.after, stack⟩ t' := by
  induction text generalizing t with
  | nil => exact absurd rfl hne
  | cons x xs ih =>
    have hlast {u : Bytes} : Accepts d ⟨if xs = [] then .after else .lit xs, stack⟩ u ↔
        ∃ t', u = xs ++ t' ∧ Accepts d ⟨.after, stack⟩ t' := by
      split_ifs with hxs
      · simp [hxs]
      · exact ih hxs
    constructor
    · intro h
      obtain ⟨b, t, st, rfl, hstep, h⟩ := exists_cons_of_accepts (.inl rfl) h
      obtain ⟨rfl, hst⟩ := Option.ite_none_right_eq_some.1 hstep
      cases hst
      obtain ⟨t', rfl, hrest⟩ := hlast.1 h
      exact ⟨t', rfl, hrest⟩
    · rintro ⟨t', rfl, h⟩
      exact accepts_cons.2 ⟨_, if_pos rfl, hlast.2 ⟨t', rfl, h⟩⟩

/-! ### Numbers: what the recognizer accepts (rule R80) -/

/-- The byte begins an exponent. -/
def isExponentMark (b : Byte) : Bool := b = 0x65 || b = 0x45

theorem isExponentMark_iff {b : Byte} : isExponentMark b = true ↔ b = 0x65 ∨ b = 0x45 := by
  simp [isExponentMark]

theorem accepts_digits {d : Nat} {mode : JMode} (hm : mode ∈ [.numInt, .numFrac, .numExp]) {stack : List JCtx}
    {ds : Bytes} (hds : ∀ x ∈ ds, isDigit x = true) {t : Bytes} :
    Accepts d ⟨mode, stack⟩ (ds ++ t) ↔ Accepts d ⟨mode, stack⟩ t := by
  refine accepts_run_append (fun x hx => ?_) hds
  simp only [List.mem_cons, List.not_mem_nil, or_false] at hm
  rcases hm with rfl | rfl | rfl <;> exact if_pos hx

theorem exists_cons_of_jsonDigits {ds : Bytes} (h : JsonDigits ds) :
    ∃ x xs, ds = x :: xs ∧ isDigit x = true ∧ ∀ y ∈ xs, isDigit y = true := by
  obtain ⟨hne, hds⟩ := h
  obtain ⟨x, xs, rfl⟩ := List.exists_cons_of_ne_nil hne
  obtain ⟨hx, hxs⟩ := List.forall_mem_cons.1 hds
  exact ⟨x, xs, rfl, hx, hxs⟩

/-- One digit and more, where a first digit leads to where digits go on. -/
theorem accepts_first_digits {d : Nat} {mode mode' : JMode} {stack : List JCtx}
    (hstep : ∀ x, isDigit x = true → jStep d ⟨mode, stack⟩ x = some ⟨mode', stack⟩)
    (hm : mode' ∈ [.numInt, .numFrac, .numExp]) {ds : Bytes} (hds : JsonDigits ds) {t : Bytes}
    (h : Accepts d ⟨mode', stack⟩ t) : Accepts d ⟨mode, stack⟩ (ds ++ t) := by
  obtain ⟨x, xs, rfl, hx, hxs⟩ := exists_cons_of_jsonDigits hds
  rw [List.cons_append, accepts_cons_of_jStep (hstep x hx), accepts_digits hm hxs]
  exact h

theorem jStep_numE_digit (d : Nat) (stack : List JCtx) (x : Byte) (hx : isDigit x = true) :
    jStep d ⟨.numE, stack⟩ x = some ⟨.numExp, stack⟩ := by
  have hsign : ¬ (x = 0x2B ∨ x = 0x2D) := by
    rintro (rfl | rfl) <;> cases hx
  simp only [jStep, Bool.or_eq_true, decide_eq_true_eq, if_neg hsign, if_pos hx]

theorem accepts_exponent {d : Nat} {mode : JMode} (hm : mode ∈ [.numZero, .numInt, .numFrac]) {stack : List JCtx}
    {e : Bytes} (he : JsonExponent e) {t : Bytes} (h : Accepts d ⟨.after, stack⟩ t) :
    Accepts d ⟨mode, stack⟩ (e ++ t) := by
  simp only [List.mem_cons, List.not_mem_nil, or_false] at hm
  rcases he with rfl | ⟨x, sign, ds, rfl, hx, hsign, hds⟩
  · refine accepts_of_after ?_ h
    rcases hm with rfl | rfl | rfl <;> rfl
  · have hmark : jStep d ⟨mode, stack⟩ x = some ⟨.numE, stack⟩ := by
      rcases hm with rfl | rfl | rfl <;> rcases hx with rfl | rfl <;> rfl
    have hend : Accepts d ⟨.numExp, stack⟩ t := accepts_of_after rfl h
    rw [List.cons_append, accepts_cons_of_jStep hmark, List.append_assoc]
    have hsigned : Accepts d ⟨.numESign, stack⟩ (ds ++ t) :=
      accepts_first_digits (mode := .numESign) (fun _ hx => if_pos hx) (by simp) hds hend
    rcases hsign with rfl | rfl | rfl
    · exact accepts_first_digits (jStep_numE_digit d stack) (by simp) hds hend
    · exact accepts_cons.2 ⟨_, rfl, hsigned⟩
    · exact accepts_cons.2 ⟨_, rfl, hsigned⟩

theorem accepts_fraction {d : Nat} {mode : JMode} (hm : mode ∈ [.numZero, .numInt]) {stack : List JCtx}
    {f e : Bytes} (hf : JsonFraction f) (he : JsonExponent e) {t : Bytes} (h : Accepts d ⟨.after, stack⟩ t) :
    Accepts d ⟨mode, stack⟩ (f ++ (e ++ t)) := by
  simp only [List.mem_cons, List.not_mem_nil, or_false] at hm
  rcases hf with rfl | ⟨ds, rfl, hds⟩
  · refine accepts_exponent ?_ he h
    rcases hm with rfl | rfl <;> simp
  · have hpoint : jStep d ⟨mode, stack⟩ 0x2E = some ⟨.numDot, stack⟩ := by
      rcases hm with rfl | rfl <;> rfl
    rw [List.cons_append, accepts_cons_of_jStep hpoint]
    exact accepts_first_digits (mode := .numDot) (mode' := .numFrac) (fun _ hx => if_pos hx) (by simp) hds
      (accepts_exponent (by simp) he h)

theorem accepts_unsigned {d : Nat} {mode : JMode} (hm : mode.opensInt) {stack : List JCtx} {i f e : Bytes}
    (hi : JsonIntPart i) (hf : JsonFraction f) (he : JsonExponent e) {t : Bytes}
    (h : Accepts d ⟨.after, stack⟩ t) : Accepts d ⟨mode, stack⟩ (i ++ (f ++ (e ++ t))) := by
  rcases hi with rfl | ⟨x, xs, rfl, hx, hne, hxs⟩
  · have hstep := jStep_first_digit (d := d) (stack := stack) hm (x := 0x30) rfl
    rw [List.singleton_append, accepts_cons_of_jStep hstep]
    exact accepts_fraction (by simp) hf he h
  · have hstep := jStep_first_digit (d := d) (stack := stack) hm hx
    rw [if_neg hne] at hstep
    rw [List.cons_append, accepts_cons_of_jStep hstep, accepts_digits (by simp) hxs]
    exact accepts_fraction (by simp) hf he h

theorem accepts_number {d : Nat} {stack : List JCtx} {v : Bytes} (hv : JsonNumber v) {t : Bytes}
    (h : Accepts d ⟨.after, stack⟩ t) : Accepts d ⟨.value, stack⟩ (v ++ t) := by
  obtain ⟨sign, i, f, e, rfl, hsign, hi, hf, he⟩ := hv
  simp only [List.append_assoc]
  rcases hsign with rfl | rfl
  · exact accepts_unsigned (.inl rfl) hi hf he h
  · exact accepts_cons.2 ⟨⟨.numMinus, stack⟩, rfl, accepts_unsigned (.inr rfl) hi hf he h⟩

/-! ### Numbers: what an accepted text begins with (rule R80) -/

theorem exists_exponent_digits_of_accepts {d : Nat} {stack : List JCtx} {t : Bytes}
    (h : Accepts d ⟨.numExp, stack⟩ t) :
    ∃ ds t', t = ds ++ t' ∧ (∀ x ∈ ds, isDigit x = true) ∧ Accepts d ⟨.after, stack⟩ t' := by
  obtain ⟨ds, t', rfl, hds, hhead⟩ := exists_longest_run isDigit t
  refine ⟨ds, t', rfl, hds, after_of_accepts (fun b hb => ?_) ((accepts_digits (by simp) hds).1 h)⟩
  exact if_neg (by simp [hhead b hb])

/-- Where a digit must come. -/
theorem exists_digit_of_accepts {d : Nat} {mode mode' : JMode} {stack : List JCtx} (hinc : mode.complete = false)
    (hdigit : ∀ x, jStep d ⟨mode, stack⟩ x = if isDigit x then some ⟨mode', stack⟩ else none) {t : Bytes}
    (h : Accepts d ⟨mode, stack⟩ t) : ∃ x t', t = x :: t' ∧ isDigit x = true ∧ Accepts d ⟨mode', stack⟩ t' := by
  obtain ⟨x, t', st, rfl, hstep, h⟩ := exists_cons_of_accepts (.inl hinc) h
  rw [hdigit, Option.ite_none_right_eq_some] at hstep
  obtain ⟨hx, hst⟩ := hstep
  cases hst
  exact ⟨x, t', rfl, hx, h⟩

theorem exists_signed_digits_of_accepts {d : Nat} {stack : List JCtx} {t : Bytes} (h : Accepts d ⟨.numE, stack⟩ t) :
    ∃ sign ds t', t = sign ++ ds ++ t' ∧ (sign = [] ∨ sign = [0x2B] ∨ sign = [0x2D]) ∧ JsonDigits ds ∧
      Accepts d ⟨.after, stack⟩ t' := by
  obtain ⟨b, t, st, rfl, hstep, h⟩ := exists_cons_of_accepts (.inl rfl) h
  simp only [jStep, Bool.or_eq_true, decide_eq_true_eq] at hstep
  split_ifs at hstep with hsign hdigit <;> cases hstep
  · obtain ⟨x, t, rfl, hx, h⟩ := exists_digit_of_accepts (mode' := .numExp) rfl (fun _ => rfl) h
    obtain ⟨ds, t', rfl, hds, h⟩ := exists_exponent_digits_of_accepts h
    refine ⟨[b], x :: ds, t', rfl, .inr ?_, ⟨nofun, List.forall_mem_cons.2 ⟨hx, hds⟩⟩, h⟩
    exact hsign.imp (congrArg ([·])) (congrArg ([·]))
  · obtain ⟨ds, t', rfl, hds, h⟩ := exists_exponent_digits_of_accepts h
    exact ⟨[], b :: ds, t', rfl, .inl rfl, ⟨nofun, List.forall_mem_cons.2 ⟨hdigit, hds⟩⟩, h⟩

theorem exists_exponent_of_accepts {d : Nat} {mode : JMode} {stack : List JCtx} {t : Bytes}
    (hstep : ∀ b ∈ t.head?, jStep d ⟨mode, stack⟩ b =
      if isExponentMark b then some ⟨.numE, stack⟩ else jAfter stack b) (h : Accepts d ⟨mode, stack⟩ t) :
    ∃ e t', t = e ++ t' ∧ JsonExponent e ∧ Accepts d ⟨.after, stack⟩ t' := by
  by_cases hmark : ∃ b ∈ t.head?, isExponentMark b = true
  · obtain ⟨b, hb, hmark⟩ := hmark
    obtain ⟨t, rfl⟩ := List.head?_eq_some_iff.1 hb
    rw [accepts_cons_of_jStep ((hstep b rfl).trans (if_pos hmark))] at h
    obtain ⟨sign, ds, t', rfl, hsign, hds, h⟩ := exists_signed_digits_of_accepts h
    exact ⟨b :: (sign ++ ds), t', rfl, .inr ⟨b, sign, ds, rfl, isExponentMark_iff.1 hmark, hsign, hds⟩, h⟩
  · exact ⟨[], t, rfl, .inl rfl,
      after_of_accepts (fun b hb => (hstep b hb).trans (if_neg fun h => hmark ⟨b, hb, h⟩)) h⟩

theorem exists_fraction_of_accepts {d : Nat} {mode : JMode} {stack : List JCtx} {t : Bytes}
    (hstep : ∀ b ∈ t.head?, jStep d ⟨mode, stack⟩ b = if b = 0x2E then some ⟨.numDot, stack⟩
      else if isExponentMark b then some ⟨.numE, stack⟩ else jAfter stack b) (h : Accepts d ⟨mode, stack⟩ t) :
    ∃ f e t', t = f ++ e ++ t' ∧ JsonFraction f ∧ JsonExponent e ∧ Accepts d ⟨.after, stack⟩ t' := by
  by_cases hpoint : (0x2E : Byte) ∈ t.head?
  · obtain ⟨t, rfl⟩ := List.head?_eq_some_iff.1 hpoint
    rw [accepts_cons_of_jStep (hstep 0x2E rfl)] at h
    obtain ⟨x, t, rfl, hx, h⟩ := exists_digit_of_accepts (mode' := .numFrac) rfl (fun _ => rfl) h
    obtain ⟨ds, rest, rfl, hds, hhead⟩ := exists_longest_run isDigit t
    obtain ⟨e, t', rfl, he, h⟩ := exists_exponent_of_accepts (mode := .numFrac)
      (fun b hb => if_neg (by simp [hhead b hb])) ((accepts_digits (by simp) hds).1 h)
    exact ⟨0x2E :: x :: ds, e, t', by simp, .inr ⟨x :: ds, rfl, nofun, List.forall_mem_cons.2 ⟨hx, hds⟩⟩, he, h⟩
  · obtain ⟨e, t', rfl, he, h⟩ := exists_exponent_of_accepts
      (fun b hb => (hstep b hb).trans (if_neg (by rintro rfl; exact hpoint hb))) h
    exact ⟨[], e, t', rfl, .inl rfl, he, h⟩

theorem exists_unsigned_of_accepts {d : Nat} {mode : JMode} (hm : mode.opensInt) {stack : List JCtx} {x : Byte}
    (hx : isDigit x = true) {t : Bytes} (h : Accepts d ⟨mode, stack⟩ (x :: t)) :
    ∃ i f e t', x :: t = i ++ f ++ e ++ t' ∧ JsonIntPart i ∧ JsonFraction f ∧ JsonExponent e ∧
      Accepts d ⟨.after, stack⟩ t' := by
  rw [accepts_cons_of_jStep (jStep_first_digit hm hx)] at h
  by_cases hzero : x = 0x30
  · rw [if_pos hzero] at h
    obtain ⟨f, e, t', rfl, hf, he, h⟩ := exists_fraction_of_accepts (fun _ _ => rfl) h
    exact ⟨[x], f, e, t', by simp, .inl (by rw [hzero]), hf, he, h⟩
  · rw [if_neg hzero] at h
    obtain ⟨ds, rest, rfl, hds, hhead⟩ := exists_longest_run isDigit t
    obtain ⟨f, e, t', rfl, hf, he, h⟩ := exists_fraction_of_accepts (mode := .numInt)
      (fun b hb => if_neg (by simp [hhead b hb])) ((accepts_digits (by simp) hds).1 h)
    exact ⟨x :: ds, f, e, t', by simp, .inr ⟨x, ds, rfl, hx, hzero, hds⟩, hf, he, h⟩

theorem exists_digit_of_accepts_minus {d : Nat} {stack : List JCtx} {t : Bytes}
    (h : Accepts d ⟨.numMinus, stack⟩ t) : ∃ x t', t = x :: t' ∧ isDigit x = true := by
  obtain ⟨x, t', st, rfl, hstep, -⟩ := exists_cons_of_accepts (.inl rfl) h
  refine ⟨x, t', rfl, ?_⟩
  simp only [jStep] at hstep
  split_ifs at hstep with hzero hdigit
  · rw [hzero]
    rfl
  · exact hdigit

/-- Where a value begins with a digit or a minus, a number is read. -/
theorem exists_number_of_accepts {d : Nat} {stack : List JCtx} {x : Byte} (hx : x = 0x2D ∨ isDigit x = true) {t : Bytes}
    (h : Accepts d ⟨.value, stack⟩ (x :: t)) :
    ∃ v t', x :: t = v ++ t' ∧ JsonNumber v ∧ Accepts d ⟨.after, stack⟩ t' := by
  rcases hx with rfl | hx
  · have hminus : jStep d ⟨.value, stack⟩ 0x2D = some ⟨.numMinus, stack⟩ := rfl
    rw [accepts_cons_of_jStep hminus] at h
    obtain ⟨x, t, rfl, hx⟩ := exists_digit_of_accepts_minus h
    obtain ⟨i, f, e, t', ht, hi, hf, he, h⟩ := exists_unsigned_of_accepts (.inr rfl) hx h
    exact ⟨[0x2D] ++ i ++ f ++ e, t', by simp [ht], ⟨[0x2D], i, f, e, rfl, .inr rfl, hi, hf, he⟩, h⟩
  · obtain ⟨i, f, e, t', ht, hi, hf, he, h⟩ := exists_unsigned_of_accepts (.inl rfl) hx h
    exact ⟨i ++ f ++ e, t', ht, ⟨[], i, f, e, rfl, .inl rfl, hi, hf, he⟩, h⟩

/-! ### Opening an array or object (rule R81) -/

theorem jStep_opener {d : Nat} (ctx : JCtx) {stack : List JCtx} (h : stack.length < d) :
    jStep d ⟨.value, stack⟩ ctx.opener = some ⟨ctx.opened, ctx :: stack⟩ := by
  cases ctx <;> exact if_pos h

/-- Just after the opening byte comes the closing one, or what comes after a comma. -/
theorem jStep_opened {d : Nat} (ctx : JCtx) (stack : List JCtx) {b : Byte} (hb : isJws b = false) :
    jStep d ⟨ctx.opened, ctx :: stack⟩ b =
      if b = ctx.closer then some ⟨.after, stack⟩ else jStep d ⟨ctx.next, ctx :: stack⟩ b := by
  have hws : ¬ isJws b = true := by simp [hb]
  cases ctx with
  | arr => simp only [jStep, JCtx.opened, JCtx.next, JCtx.closer, if_neg hws, jClose, if_true]
  | obj =>
    simp only [jStep, JCtx.opened, JCtx.next, JCtx.closer, if_neg hws, jClose, if_true]
    by_cases hclose : b = 0x7D
    · subst hclose
      rfl
    · simp only [if_neg hclose]

theorem jStep_next_closer {d : Nat} (ctx : JCtx) (stack : List JCtx) :
    jStep d ⟨ctx.next, ctx :: stack⟩ ctx.closer = none := by
  cases ctx <;> rfl

theorem complete_next (ctx : JCtx) : ctx.next.complete = false := by
  cases ctx <;> rfl

theorem accepts_opened_iff {d : Nat} {ctx : JCtx} {stack : List JCtx} {t : Bytes} :
    Accepts d ⟨ctx.opened, ctx :: stack⟩ t ↔
      (∃ w t', t = w ++ ctx.closer :: t' ∧ JsonWs w ∧ Accepts d ⟨.after, stack⟩ t') ∨
        Accepts d ⟨ctx.next, ctx :: stack⟩ t := by
  constructor
  · intro h
    obtain ⟨w, b, t', st, rfl, hw, hb, hstep, h⟩ :=
      exists_token_of_accepts (skipsWs_opened ctx) (.inr (List.cons_ne_nil ctx stack)) h
    rw [jStep_opened ctx stack hb] at hstep
    split_ifs at hstep with hclose
    · cases hstep
      exact .inl ⟨w, t', by rw [hclose], hw, h⟩
    · exact .inr ((accepts_ws_append (skipsWs_next ctx) hw).2 (accepts_cons.2 ⟨st, hstep, h⟩))
  · rintro (⟨w, t', rfl, hw, h⟩ | h)
    · have hb : isJws ctx.closer = false := by cases ctx <;> rfl
      refine (accepts_ws_append (skipsWs_opened ctx) hw).2 (accepts_cons.2 ⟨_, ?_, h⟩)
      rw [jStep_opened ctx stack hb, if_pos rfl]
    · obtain ⟨w, b, t', st, rfl, hw, hb, hstep, h⟩ :=
        exists_token_of_accepts (skipsWs_next ctx) (.inl (complete_next ctx)) h
      have hne : b ≠ ctx.closer := by
        rintro rfl
        rw [jStep_next_closer] at hstep
        cases hstep
      refine (accepts_ws_append (skipsWs_opened ctx) hw).2 (accepts_cons.2 ⟨st, ?_, h⟩)
      rw [jStep_opened ctx stack hb, if_neg hne, hstep]

/-! ### Values: what the recognizer accepts (rules R80, R81) -/

theorem accepts_string {d : Nat} {stack : List JCtx} {v : Bytes} (hv : JsonString v) {t : Bytes}
    (h : Accepts d ⟨.after, stack⟩ t) : Accepts d ⟨.value, stack⟩ (v ++ t) := by
  obtain ⟨chars, hchars, rfl⟩ := hv
  simp only [List.append_assoc, List.singleton_append]
  exact accepts_cons.2 ⟨⟨.str false, stack⟩, rfl, accepts_string_body hchars h⟩

theorem accepts_literal {d : Nat} {stack : List JCtx} {b : Byte} {text : Bytes} (hne : text ≠ [])
    (hb : jStep d ⟨.value, stack⟩ b = some ⟨.lit text, stack⟩) {t : Bytes} (h : Accepts d ⟨.after, stack⟩ t) :
    Accepts d ⟨.value, stack⟩ (b :: text ++ t) :=
  accepts_cons.2 ⟨_, hb, (accepts_lit_iff hne).2 ⟨t, rfl, h⟩⟩

/-- A value with `n` levels in it is accepted before what may follow it, where as many levels are left. -/
def ValueAccepted (d n : Nat) (v : Bytes) : Prop :=
  ∀ (stack : List JCtx) (t : Bytes), n = d - stack.length → Accepts d ⟨.after, stack⟩ t →
    Accepts d ⟨.value, stack⟩ (v ++ t)

/-- What stands between the opening and the closing byte of an array or object, with something in it. -/
def BodyAccepted (d : Nat) (ctx : JCtx) (n : Nat) (b : Bytes) : Prop :=
  ∀ (stack : List JCtx) (t : Bytes), n = d - (stack.length + 1) → Accepts d ⟨.after, stack⟩ t →
    Accepts d ⟨ctx.next, ctx :: stack⟩ (b ++ ctx.closer :: t)

theorem valueAccepted_empty {d n : Nat} (ctx : JCtx) {w : Bytes} (hw : JsonWs w) :
    ValueAccepted d (n + 1) ([ctx.opener] ++ w ++ [ctx.closer]) := by
  intro stack t hn h
  simp only [List.append_assoc, List.singleton_append]
  exact accepts_cons.2 ⟨_, jStep_opener ctx (by omega), accepts_opened_iff.2 (.inl ⟨w, t, rfl, hw, h⟩)⟩

theorem valueAccepted_of_body {d n : Nat} {ctx : JCtx} {b : Bytes} (hb : BodyAccepted d ctx n b) :
    ValueAccepted d (n + 1) ([ctx.opener] ++ b ++ [ctx.closer]) := by
  intro stack t hn h
  simp only [List.append_assoc, List.singleton_append]
  exact accepts_cons.2 ⟨_, jStep_opener ctx (by omega), accepts_opened_iff.2 (.inr (hb stack t (by omega) h))⟩

/-- The last value of an array or object, and the whitespace around it. -/
theorem accepts_last {d n : Nat} {ctx : JCtx} {stack : List JCtx} {w v w' t : Bytes} (hw : JsonWs w)
    (hv : ValueAccepted d n v) (hw' : JsonWs w') (hn : n = d - (stack.length + 1))
    (h : Accepts d ⟨.after, stack⟩ t) :
    Accepts d ⟨.value, ctx :: stack⟩ (w ++ v ++ w' ++ ctx.closer :: t) := by
  simp only [List.append_assoc]
  exact (accepts_ws_append skipsWs_value hw).2 (hv _ _ hn (accepts_closer hw' h))

/-- A value of an array or object, the whitespace around it, and a comma. -/
theorem accepts_more {d n : Nat} {ctx : JCtx} {stack : List JCtx} {w v w' t : Bytes} (hw : JsonWs w)
    (hv : ValueAccepted d n v) (hw' : JsonWs w') (hn : n = d - (stack.length + 1))
    (h : Accepts d ⟨ctx.next, ctx :: stack⟩ t) : Accepts d ⟨.value, ctx :: stack⟩ (w ++ v ++ w' ++ 0x2C :: t) := by
  simp only [List.append_assoc]
  exact (accepts_ws_append skipsWs_value hw).2 (hv _ _ hn (accepts_comma hw' h))

/-- A member of an object up to its value. -/
theorem accepts_key {d : Nat} {stack : List JCtx} {w k w1 : Bytes} (hw : JsonWs w) (hk : JsonString k)
    (hw1 : JsonWs w1) {t : Bytes} (h : Accepts d ⟨.value, .obj :: stack⟩ t) :
    Accepts d ⟨.key, .obj :: stack⟩ (w ++ k ++ w1 ++ [0x3A] ++ t) := by
  obtain ⟨chars, hchars, rfl⟩ := hk
  simp only [List.append_assoc, List.singleton_append]
  refine (accepts_ws_append (skipsWs_next .obj) hw).2 (accepts_cons.2 ⟨⟨.str true, .obj :: stack⟩, rfl, ?_⟩)
  refine accepts_string_body hchars ((accepts_ws_append skipsWs_colon hw1).2 (accepts_cons.2 ⟨_, ?_, h⟩))
  rfl

/-- Every production of the grammar is accepted, by induction over the derivation. -/
theorem valueAccepted_of_jsonValue {d n : Nat} {v : Bytes} (hv : JsonValue n v) : ValueAccepted d n v := by
  refine JsonValue.rec (motive_1 := fun n v _ => ValueAccepted d n v)
    (motive_2 := fun n _ a _ => ValueAccepted d (n + 1) a) (motive_3 := fun n _ b _ => BodyAccepted d .arr n b)
    (motive_4 := fun n b _ => ValueAccepted d (n + 1) b) (motive_5 := fun n b _ => BodyAccepted d .obj n b)
    ?string ?number ?true ?false ?null ?array ?object ?emptyArray ?elements ?lastElement ?moreElements
    ?emptyObject ?members ?lastMember ?moreMembers hv
  case string => exact fun hv _ _ _ h => accepts_string hv h
  case number => exact fun hv _ _ _ h => accepts_number hv h
  case true => exact fun _ _ _ h => accepts_literal (List.cons_ne_nil _ _) rfl h
  case false => exact fun _ _ _ h => accepts_literal (List.cons_ne_nil _ _) rfl h
  case null => exact fun _ _ _ h => accepts_literal (List.cons_ne_nil _ _) rfl h
  case array => exact fun _ hv => hv
  case object => exact fun _ hv => hv
  case emptyArray => exact fun hw => valueAccepted_empty .arr hw
  case elements => exact fun _ hb => valueAccepted_of_body hb
  case emptyObject => exact fun hw => valueAccepted_empty .obj hw
  case members => exact fun _ hb => valueAccepted_of_body hb
  case lastElement => exact fun hw _ hw' hv stack t hn h => accepts_last hw hv hw' hn h
  case moreElements =>
    intro n w v w' els b hw _ hw' _ hv hrest stack t hn h
    simpa only [List.append_assoc, List.cons_append, List.nil_append, JCtx.next] using
      accepts_more (ctx := .arr) hw hv hw' hn (hrest stack t hn h)
  case lastMember =>
    intro n w k w1 w2 v w' hw hk hw1 hw2 _ hw' hv stack t hn h
    simpa only [List.append_assoc, JCtx.next] using
      accepts_key hw hk hw1 (accepts_last (ctx := .obj) hw2 hv hw' hn h)
  case moreMembers =>
    intro n w k w1 w2 v w' b hw hk hw1 hw2 _ hw' _ hv hrest stack t hn h
    simpa only [List.append_assoc, List.cons_append, List.nil_append, JCtx.next] using
      accepts_key hw hk hw1 (accepts_more (ctx := .obj) hw2 hv hw' hn (hrest stack t hn h))

/-! ### Values: what an accepted text begins with (rules R80, R81) -/

/-- Accepted texts of bounded length begin with a value, where a value must come. -/
def ValuesUpTo (d bound : Nat) : Prop :=
  ∀ (stack : List JCtx) (t : Bytes), t.length ≤ bound → Accepts d ⟨.value, stack⟩ t →
    ∃ w v t', t = w ++ v ++ t' ∧ JsonWs w ∧ JsonValue (d - stack.length) v ∧ Accepts d ⟨.after, stack⟩ t'

theorem exists_elements_of_accepts {d bound : Nat} (hval : ValuesUpTo d bound) {stack : List JCtx} :
    ∀ {t : Bytes}, t.length ≤ bound → Accepts d ⟨.value, .arr :: stack⟩ t →
      ∃ (els : List Bytes) (b t' : Bytes), t = b ++ 0x5D :: t' ∧ JsonElements (d - (stack.length + 1)) els b ∧
        Accepts d ⟨.after, stack⟩ t' := fun {t} hlen h => by
  obtain ⟨w, v, t1, ht, hw, hv, h⟩ := hval _ t hlen h
  obtain ⟨w', t2, hw', ⟨rfl, hrest⟩ | ⟨rfl, hrest⟩⟩ := exists_separator_of_accepts h
  · have hshorter : t2.length < t.length := by
      simp only [ht, List.length_append, List.length_cons]
      omega
    obtain ⟨els, b, t', rfl, hels, h⟩ := exists_elements_of_accepts hval (hshorter.le.trans hlen) hrest
    exact ⟨v :: els, w ++ v ++ w' ++ [0x2C] ++ b, t', by simp [ht], .more hw hv hw' hels, h⟩
  · exact ⟨[v], w ++ v ++ w', t2, by simp [ht, JCtx.closer], .last hw hv hw', hrest⟩
termination_by t => t.length
decreasing_by exact hshorter

theorem exists_array_of_accepts {d bound : Nat} (hval : ValuesUpTo d bound) {stack : List JCtx} {t : Bytes}
    (hlen : t.length ≤ bound) (h : Accepts d ⟨.valueOrEnd, .arr :: stack⟩ t) :
    ∃ (els : List Bytes) (a t' : Bytes), 0x5B :: t = a ++ t' ∧ JsonArray (d - (stack.length + 1)) els a ∧
      Accepts d ⟨.after, stack⟩ t' := by
  rcases (accepts_opened_iff (ctx := .arr)).1 h with ⟨w, t', rfl, hw, h⟩ | h
  · exact ⟨[], [0x5B] ++ w ++ [0x5D], t', by simp [JCtx.closer], .empty hw, h⟩
  · obtain ⟨els, b, t', rfl, hels, h⟩ := exists_elements_of_accepts hval hlen h
    exact ⟨els, [0x5B] ++ b ++ [0x5D], t', by simp, .elements hels, h⟩

theorem exists_string_of_accepts {d : Nat} {stack : List JCtx} {key : Bool} {t : Bytes}
    (h : Accepts d ⟨.str key, stack⟩ t) :
    ∃ k t', 0x22 :: t = k ++ t' ∧ JsonString k ∧ Accepts d ⟨.afterString key, stack⟩ t' := by
  obtain ⟨chars, t', rfl, hchars, h⟩ := exists_string_body_of_accepts h
  exact ⟨[0x22] ++ chars.flatten ++ [0x22], t', by simp, ⟨chars, hchars, rfl⟩, h⟩

theorem exists_key_of_accepts {d : Nat} {stack : List JCtx} {t : Bytes} (h : Accepts d ⟨.key, stack⟩ t) :
    ∃ w k w1 t', t = w ++ k ++ w1 ++ [0x3A] ++ t' ∧ JsonWs w ∧ JsonString k ∧ JsonWs w1 ∧
      Accepts d ⟨.value, stack⟩ t' := by
  obtain ⟨w, b, t1, st, rfl, hw, hb, hstep, h⟩ := exists_token_of_accepts (skipsWs_next .obj) (.inl rfl) h
  simp only [jStep, JCtx.next, hb, Bool.false_eq_true, if_false, Option.ite_none_right_eq_some] at hstep
  obtain ⟨rfl, hst⟩ := hstep
  cases hst
  obtain ⟨k, t2, ht, hk, h⟩ := exists_string_of_accepts h
  obtain ⟨w1, b, t', st, rfl, hw1, hb, hstep, h⟩ := exists_token_of_accepts skipsWs_colon (.inl rfl) h
  simp only [jStep, hb, Bool.false_eq_true, if_false, Option.ite_none_right_eq_some] at hstep
  obtain ⟨rfl, hst⟩ := hstep
  cases hst
  exact ⟨w, k, w1, t', by simpa using ht, hw, hk, hw1, h⟩

theorem exists_members_of_accepts {d bound : Nat} (hval : ValuesUpTo d bound) {stack : List JCtx} :
    ∀ {t : Bytes}, t.length ≤ bound → Accepts d ⟨.key, .obj :: stack⟩ t →
      ∃ b t' : Bytes, t = b ++ 0x7D :: t' ∧ JsonMembers (d - (stack.length + 1)) b ∧
        Accepts d ⟨.after, stack⟩ t' := fun {t} hlen h => by
  obtain ⟨w, k, w1, t1, ht, hw, hk, hw1, h⟩ := exists_key_of_accepts h
  have hlen1 : t1.length < t.length := by
    simp only [ht, List.length_append, List.length_cons]
    omega
  obtain ⟨w2, v, t2, rfl, hw2, hv, h⟩ := hval _ t1 (hlen1.le.trans hlen) h
  obtain ⟨w', t3, hw', ⟨rfl, hrest⟩ | ⟨rfl, hrest⟩⟩ := exists_separator_of_accepts h
  · have hshorter : t3.length < t.length := by
      simp only [ht, List.length_append, List.length_cons]
      omega
    obtain ⟨b, t', rfl, hmem, h⟩ := exists_members_of_accepts hval (hshorter.le.trans hlen) hrest
    exact ⟨w ++ k ++ w1 ++ [0x3A] ++ w2 ++ v ++ w' ++ [0x2C] ++ b, t', by simp [ht],
      .more hw hk hw1 hw2 hv hw' hmem, h⟩
  · exact ⟨w ++ k ++ w1 ++ [0x3A] ++ w2 ++ v ++ w', t3, by simp [ht, JCtx.closer], .last hw hk hw1 hw2 hv hw', hrest⟩
termination_by t => t.length
decreasing_by exact hshorter

theorem exists_object_of_accepts {d bound : Nat} (hval : ValuesUpTo d bound) {stack : List JCtx} {t : Bytes}
    (hlen : t.length ≤ bound) (h : Accepts d ⟨.keyOrEnd, .obj :: stack⟩ t) :
    ∃ b t' : Bytes, 0x7B :: t = b ++ t' ∧ JsonObject (d - (stack.length + 1)) b ∧ Accepts d ⟨.after, stack⟩ t' := by
  rcases (accepts_opened_iff (ctx := .obj)).1 h with ⟨w, t', rfl, hw, h⟩ | h
  · exact ⟨[0x7B] ++ w ++ [0x7D], t', by simp [JCtx.closer], .empty hw, h⟩
  · obtain ⟨b, t', rfl, hmem, h⟩ := exists_members_of_accepts hval hlen h
    exact ⟨[0x7B] ++ b ++ [0x7D], t', by simp, .members hmem, h⟩

theorem jOpen_eq_some {d : Nat} {stack : List JCtx} {ctx : JCtx} {mode : JMode} {st : JState} :
    jOpen d stack ctx mode = some st ↔ stack.length < d ∧ st = ⟨mode, ctx :: stack⟩ := by
  simp [jOpen, eq_comm]

/-- The first byte of a value tells which it is. -/
theorem exists_value_of_accepts {d bound : Nat} (hval : ValuesUpTo d bound) {stack : List JCtx} {b : Byte} {t : Bytes}
    (hb : isJws b = false) (hlen : t.length ≤ bound) (h : Accepts d ⟨.value, stack⟩ (b :: t)) :
    ∃ v t', b :: t = v ++ t' ∧ JsonValue (d - stack.length) v ∧ Accepts d ⟨.after, stack⟩ t' := by
  by_cases hnumber : b = 0x2D ∨ isDigit b = true
  · obtain ⟨v, t', ht, hv, h⟩ := exists_number_of_accepts hnumber h
    exact ⟨v, t', ht, .number hv, h⟩
  obtain ⟨hminus, hdigit⟩ := not_or.1 hnumber
  have hzero : b ≠ 0x30 := by
    rintro rfl
    exact hdigit rfl
  obtain ⟨st, hstep, h⟩ := accepts_cons.1 h
  simp only [jStep, jBegin, hb, Bool.false_eq_true, if_false, if_neg hminus, if_neg hdigit, if_neg hzero] at hstep
  split_ifs at hstep with hquote hbrace hbracket ht hf hn
  · cases hstep
    obtain ⟨v, t', heq, hv, h⟩ := exists_string_of_accepts h
    exact ⟨v, t', by rw [hquote, heq], .string hv, h⟩
  · obtain ⟨hdepth, rfl⟩ := jOpen_eq_some.1 hstep
    obtain ⟨v, t', heq, hv, h⟩ := exists_object_of_accepts hval hlen h
    have hlevels : d - stack.length = d - (stack.length + 1) + 1 := by omega
    exact ⟨v, t', by rw [hbrace, heq], hlevels ▸ .object hv, h⟩
  · obtain ⟨hdepth, rfl⟩ := jOpen_eq_some.1 hstep
    obtain ⟨els, v, t', heq, hv, h⟩ := exists_array_of_accepts hval hlen h
    have hlevels : d - stack.length = d - (stack.length + 1) + 1 := by omega
    exact ⟨v, t', by rw [hbracket, heq], hlevels ▸ .array hv, h⟩
  · cases hstep
    obtain ⟨t', rfl, h⟩ := (accepts_lit_iff (List.cons_ne_nil _ _)).1 h
    exact ⟨_, t', by rw [ht]; rfl, .true, h⟩
  · cases hstep
    obtain ⟨t', rfl, h⟩ := (accepts_lit_iff (List.cons_ne_nil _ _)).1 h
    exact ⟨_, t', by rw [hf]; rfl, .false, h⟩
  · cases hstep
    obtain ⟨t', rfl, h⟩ := (accepts_lit_iff (List.cons_ne_nil _ _)).1 h
    exact ⟨_, t', by rw [hn]; rfl, .null, h⟩

theorem valuesUpTo (d bound : Nat) : ValuesUpTo d bound := by
  induction bound with
  | zero =>
    intro stack t hlen h
    obtain rfl := List.length_eq_zero_iff.1 (Nat.le_zero.1 hlen)
    cases (accepts_nil.1 h).1
  | succ bound ih =>
    intro stack t hlen h
    obtain ⟨w, b, t, st, rfl, hw, hb, hstep, h⟩ := exists_token_of_accepts skipsWs_value (.inl rfl) h
    have hshort : t.length ≤ bound := by
      simp only [List.length_append, List.length_cons] at hlen
      omega
    obtain ⟨v, t', ht, hv, h⟩ := exists_value_of_accepts ih hb hshort (accepts_cons.2 ⟨st, hstep, h⟩)
    exact ⟨w, v, t', by rw [ht, List.append_assoc], hw, hv, h⟩

end Sys2Proof

/-! ## SPLIT_ARRAY and the grammar (rules R81, R143) -/

namespace Sys2Proof

/-! ### The edges of a value -/

theorem not_isJws_of_isDigit {x : Byte} (h : isDigit x = true) : isJws x = false :=
  Bool.not_eq_true _ ▸ fun hws => not_isDigit_of_isJws hws h

theorem not_isJws_of_mem_jsonNumber {v : Bytes} (hv : JsonNumber v) : ∀ x ∈ v, isJws x = false := by
  obtain ⟨sign, i, f, e, rfl, hsign, hi, hf, he⟩ := hv
  have hdigits {ds : Bytes} (hds : JsonDigits ds) : ∀ x ∈ ds, isJws x = false :=
    fun x hx => not_isJws_of_isDigit (hds.2 x hx)
  have hminus : ∀ x ∈ sign, isJws x = false := by
    rcases hsign with rfl | rfl <;> decide
  have hint : ∀ x ∈ i, isJws x = false := fun x hx => not_isJws_of_isDigit (isDigit_of_mem_jsonIntPart hi x hx)
  have hfrac : ∀ x ∈ f, isJws x = false := by
    rcases hf with rfl | ⟨ds, rfl, hds⟩
    · nofun
    · exact List.forall_mem_cons.2 ⟨rfl, hdigits hds⟩
  have hexp : ∀ x ∈ e, isJws x = false := by
    rcases he with rfl | ⟨m, s, ds, rfl, hm, hs, hds⟩
    · nofun
    · have hmark : isJws m = false := by rcases hm with rfl | rfl <;> rfl
      have hs' : ∀ x ∈ s, isJws x = false := by rcases hs with rfl | rfl | rfl <;> decide
      exact List.forall_mem_cons.2 ⟨hmark, List.forall_mem_append.2 ⟨hs', hdigits hds⟩⟩
  simp only [List.forall_mem_append]
  exact ⟨⟨⟨hminus, hint⟩, hfrac⟩, hexp⟩

/-- A value begins and ends with bytes of its own, no whitespace. -/
theorem edges_of_jsonValue {n : Nat} {v : Bytes} (hv : JsonValue n v) :
    (∀ x ∈ v.head?, isJws x = false) ∧ ∀ x ∈ v.getLast?, isJws x = false := by
  cases hv with
  | string hv =>
    obtain ⟨chars, -, rfl⟩ := hv
    exact wrapped_edges rfl rfl _
  | number hv =>
    have hall := not_isJws_of_mem_jsonNumber hv
    exact ⟨fun x hx => hall x (List.mem_of_mem_head? hx), fun x hx => hall x (List.mem_of_mem_getLast? hx)⟩
  | true => decide
  | false => decide
  | null => decide
  | array hv => cases hv <;> exact wrapped_edges rfl rfl _
  | object hv => cases hv <;> exact wrapped_edges rfl rfl _

/-- A value inside the payload's array, with whitespace around it, is what the inner recognizer reads. -/
theorem readsValue_of_jsonValue {c : Params} {w v w' : Bytes} (hw : JsonWs w)
    (hv : JsonValue (c.jsonMaxDepth - 1) v) (hw' : JsonWs w') :
    c.ReadsValue (w ++ v ++ w') ∧ stripBy isJws (w ++ v ++ w') = v := by
  obtain ⟨hhead, hlast⟩ := edges_of_jsonValue hv
  refine ⟨?_, stripBy_eq_of_append hw hw' hhead hlast⟩
  have haccepts : Accepts (c.jsonMaxDepth - 1) ⟨.value, []⟩ (w ++ v ++ w') := by
    rw [List.append_assoc]
    exact (accepts_ws_append skipsWs_value hw).2 (valueAccepted_of_jsonValue hv _ _ rfl (accepts_after_nil.2 hw'))
  exact haccepts

/-! ### SPLIT_ARRAY of a payload of the grammar -/

theorem splitStep_of_complete {d : Nat} {mode : JMode} (hc : mode.complete = true) (cur : Bytes) (els : List Bytes) :
    splitStep d ⟨⟨mode, [.arr]⟩, cur, els⟩ 0x2C = some ⟨⟨.value, [.arr]⟩, [], els ++ [stripBy isJws cur]⟩ ∧
      splitStep d ⟨⟨mode, [.arr]⟩, cur, els⟩ 0x5D = some ⟨⟨.after, []⟩, [], els ++ [stripBy isJws cur]⟩ := by
  obtain ⟨hcomma, hclose⟩ := jStep_inArray_of_complete (d := d) hc
  have hnot : mode ≠ .valueOrEnd := by rintro rfl; cases hc
  constructor
  · simp only [splitStep, hcomma]
    rfl
  · simp only [splitStep, hclose]
    simp [hnot]

/-- SPLIT_ARRAY takes one value, with whitespace around it, up to the comma or the bracket. -/
theorem splitRun_readsValue {c : Params} (hd : 1 ≤ c.jsonMaxDepth) {cur : Bytes} (hcur : c.ReadsValue cur)
    (els : List Bytes) (t : Bytes) :
    splitRun c.jsonMaxDepth ⟨⟨.value, [.arr]⟩, [], els⟩ (cur ++ 0x2C :: t) =
        splitRun c.jsonMaxDepth ⟨⟨.value, [.arr]⟩, [], els ++ [stripBy isJws cur]⟩ t ∧
      splitRun c.jsonMaxDepth ⟨⟨.value, [.arr]⟩, [], els⟩ (cur ++ 0x5D :: t) =
        splitRun c.jsonMaxDepth ⟨⟨.after, []⟩, [], els ++ [stripBy isJws cur]⟩ t := by
  obtain ⟨mode, hrun, hc⟩ := hcur
  have hvalue : splitRun c.jsonMaxDepth ⟨⟨.value, [.arr]⟩, [], els⟩ cur = some ⟨⟨mode, [.arr]⟩, cur, els⟩ :=
    splitRun_of_jRun hd start_sane hrun
  obtain ⟨hcomma, hclose⟩ := splitStep_of_complete (d := c.jsonMaxDepth) hc cur els
  constructor
  · rw [splitRun_append, hvalue, Option.bind_some, splitRun, hcomma, Option.bind_some]
  · rw [splitRun_append, hvalue, Option.bind_some, splitRun, hclose, Option.bind_some]

theorem splitRun_jsonElements {c : Params} (hd : 1 ≤ c.jsonMaxDepth) {els : List Bytes} :
    ∀ {b : Bytes} {found : List Bytes}, JsonElements (c.jsonMaxDepth - 1) els b → ∀ t,
      splitRun c.jsonMaxDepth ⟨⟨.value, [.arr]⟩, [], found⟩ (b ++ 0x5D :: t) =
        splitRun c.jsonMaxDepth ⟨⟨.after, []⟩, [], found ++ els⟩ t := by
  induction els with
  | nil => nofun
  | cons v els ih =>
    intro b found hb t
    cases hb with
    | last hw hv hw' =>
      obtain ⟨hreads, hstrip⟩ := readsValue_of_jsonValue hw hv hw'
      rw [(splitRun_readsValue hd hreads found t).2, hstrip]
    | more hw hv hw' hels =>
      obtain ⟨hreads, hstrip⟩ := readsValue_of_jsonValue hw hv hw'
      rw [List.append_assoc, List.append_assoc, List.singleton_append, (splitRun_readsValue hd hreads found _).1,
        hstrip, ih hels, List.append_assoc, List.singleton_append]

/-- Just inside the outer array whitespace is collected. -/
theorem splitRun_opened_ws {d : Nat} {w : Bytes} (hw : JsonWs w) (els : List Bytes) : ∀ cur : Bytes,
    splitRun d ⟨⟨.valueOrEnd, [.arr]⟩, cur, els⟩ w = some ⟨⟨.valueOrEnd, [.arr]⟩, cur ++ w, els⟩ := by
  induction w with
  | nil => simp [splitRun]
  | cons x w ih =>
    intro cur
    obtain ⟨hx, hw⟩ := List.forall_mem_cons.1 hw
    have hstep : jStep d ⟨.valueOrEnd, [.arr]⟩ x = some ⟨.valueOrEnd, [.arr]⟩ :=
      jStep_ws (skipsWs_opened .arr) d _ hx
    rw [splitRun, splitStep_collects (by simp) (by simp) hstep fun _ _ => nofun, Option.bind_some, ih hw,
      List.append_assoc]
    rfl

/-- Just inside the outer array a value is read as after a comma. -/
theorem splitRun_opened_of_accepts {d : Nat} (hd : 1 ≤ d) {b : Bytes} (hb : Accepts (d - 1) ⟨.value, []⟩ b)
    (t : Bytes) : splitRun d ⟨⟨.valueOrEnd, [.arr]⟩, [], []⟩ (b ++ t) =
      splitRun d ⟨⟨.value, [.arr]⟩, [], []⟩ (b ++ t) := by
  obtain ⟨w, x, b, inner, rfl, hw, hx, hinner, -⟩ := exists_token_of_accepts skipsWs_value (.inl rfl) hb
  have hspace : splitRun d ⟨⟨.value, [.arr]⟩, [], []⟩ w = some ⟨⟨.value, [.arr]⟩, w, []⟩ :=
    splitRun_of_jRun (inner := ⟨.value, []⟩) hd start_sane (jRun_value_ws hw)
  have hvalue : splitStep d ⟨⟨.value, [.arr]⟩, w, []⟩ x = some ⟨inner.inArray, w ++ [x], []⟩ :=
    splitStep_of_jStep (inner := ⟨.value, []⟩) hd start_sane hinner
  have hne : x ≠ 0x5D ∧ x ≠ 0x2C := by
    constructor <;> rintro rfl <;> cases hinner
  have hfirst : jStep d ⟨.valueOrEnd, [.arr]⟩ x = some inner.inArray := by
    have hin : jStep d ⟨.value, [.arr]⟩ x = (jStep (d - 1) ⟨.value, []⟩ x).map JState.inArray :=
      jStep_inArray (st := ⟨.value, []⟩) hd (goesOn_of_jStep start_sane hinner)
    rw [hinner] at hin
    exact ((jStep_opened .arr [] hx).trans (if_neg hne.1)).trans hin
  have hopened : splitStep d ⟨⟨.valueOrEnd, [.arr]⟩, w, []⟩ x = some ⟨inner.inArray, w ++ [x], []⟩ :=
    splitStep_collects (by simp) (inArray_stack_ne_nil inner) hfirst fun _ hcomma => absurd hcomma hne.2
  rw [List.append_assoc, splitRun_append, splitRun_append _ _ w, splitRun_opened_ws hw, hspace, Option.bind_some,
    Option.bind_some, List.nil_append, List.cons_append, splitRun, splitRun, hvalue, hopened]

theorem accepts_of_jsonElements {c : Params} {els : List Bytes} {b : Bytes}
    (hb : JsonElements (c.jsonMaxDepth - 1) els b) :
    ∃ b1 b2, b = b1 ++ b2 ∧ Accepts (c.jsonMaxDepth - 1) ⟨.value, []⟩ b1 := by
  cases hb with
  | last hw hv hw' => exact ⟨_, [], (List.append_nil _).symm, (readsValue_of_jsonValue hw hv hw').1⟩
  | more hw hv hw' hels => exact ⟨_, _, List.append_assoc _ _ _, (readsValue_of_jsonValue hw hv hw').1⟩

theorem splitStep_bracket {d : Nat} (hd : 1 ≤ d) :
    splitStep d ⟨⟨.value, []⟩, [], []⟩ 0x5B = some ⟨⟨.valueOrEnd, [.arr]⟩, [], []⟩ := by
  have hstep : jStep d ⟨.value, []⟩ 0x5B = some ⟨.valueOrEnd, [.arr]⟩ := if_pos hd
  simp only [splitStep, hstep]
  rfl

theorem splitRun_jsonArray {c : Params} (hd : 1 ≤ c.jsonMaxDepth) {els : List Bytes} {a : Bytes}
    (ha : JsonArray (c.jsonMaxDepth - 1) els a) (t : Bytes) :
    splitRun c.jsonMaxDepth ⟨⟨.value, []⟩, [], []⟩ (a ++ t) =
      splitRun c.jsonMaxDepth ⟨⟨.after, []⟩, [], els⟩ t := by
  cases ha with
  | empty hw =>
    have hclose (w : Bytes) : splitStep c.jsonMaxDepth ⟨⟨.valueOrEnd, [.arr]⟩, w, []⟩ 0x5D =
        some ⟨⟨.after, []⟩, [], []⟩ := rfl
    simp only [List.append_assoc, List.cons_append, List.nil_append]
    rw [splitRun, splitStep_bracket hd, Option.bind_some, splitRun_append, splitRun_opened_ws hw, Option.bind_some,
      splitRun, hclose, Option.bind_some]
  | elements hb =>
    obtain ⟨b1, b2, rfl, haccepts⟩ := accepts_of_jsonElements hb
    have hinside := splitRun_jsonElements hd (found := []) hb t
    simp only [List.append_assoc, List.cons_append, List.nil_append] at hinside ⊢
    rw [splitRun, splitStep_bracket hd, Option.bind_some, splitRun_opened_of_accepts hd haccepts]
    exact hinside

/-- Outside the outer array whitespace changes nothing. -/
theorem splitRun_outside_ws {d : Nat} {mode : JMode} (hm : mode.SkipsWs) {els : List Bytes} {w : Bytes}
    (hw : JsonWs w) : splitRun d ⟨⟨mode, []⟩, [], els⟩ w = some ⟨⟨mode, []⟩, [], els⟩ := by
  induction w with
  | nil => rfl
  | cons x w ih =>
    obtain ⟨hx, hw⟩ := List.forall_mem_cons.1 hw
    have hstep : splitStep d ⟨⟨mode, []⟩, [], els⟩ x = some ⟨⟨mode, []⟩, [], els⟩ := by
      simp [splitStep, jStep_ws hm, hx]
    rw [splitRun, hstep, Option.bind_some, ih hw]

theorem splitArray_of_jsonPayload {c : Params} (hd : 1 ≤ c.jsonMaxDepth) {els : List Bytes} {p : Bytes}
    (h : JsonPayload c els p) : splitArray c p = some els := by
  obtain ⟨w, a, w', hw, ha, hw', rfl⟩ := h
  have hrun : splitRun c.jsonMaxDepth ⟨⟨.value, []⟩, [], []⟩ (w ++ a ++ w') = some ⟨⟨.after, []⟩, [], els⟩ := by
    rw [List.append_assoc, splitRun_append, splitRun_outside_ws skipsWs_value hw, Option.bind_some,
      splitRun_jsonArray hd ha, splitRun_outside_ws skipsWs_after hw']
  simp only [splitArray, hrun, if_true]

/-! ### What SPLIT_ARRAY splits is a payload of the grammar -/

theorem jStep_js_of_splitStep {d : Nat} {st st' : SplitState} {b : Byte} (h : splitStep d st b = some st') :
    jStep d st.js b = some st'.js := by
  obtain ⟨js, hjs⟩ := jStep_of_splitStep h
  simp only [splitStep, hjs] at h
  rw [hjs]
  split_ifs at h <;> cases h <;> rfl

theorem jRun_js_of_splitRun {d : Nat} {b : Bytes} : ∀ {st st' : SplitState}, splitRun d st b = some st' →
    jRun d st.js b = some st'.js := by
  induction b with
  | nil =>
    intro st st' h
    cases h
    rfl
  | cons x b ih =>
    intro st st' h
    obtain ⟨u, hu, h⟩ := Option.bind_eq_some_iff.1 h
    rw [jRun, jStep_js_of_splitStep hu, Option.bind_some, ih h]

theorem eq_bracket_of_splitStep {d : Nat} {mode : JMode} {cur : Bytes} {els : List Bytes} {b : Byte}
    (hb : isJws b = false) {st' : SplitState} (h : splitStep d ⟨⟨mode, []⟩, cur, els⟩ b = some st') : b = 0x5B := by
  by_contra hne
  have hother : (b != 0x5B) = true := bne_iff_ne.2 hne
  simp only [splitStep, hb, hother] at h
  cases h

/-- A payload that splits is an array with whitespace around it. -/
theorem exists_jsonPayload_of_splitArray {c : Params} {p : Bytes} {els : List Bytes}
    (h : splitArray c p = some els) : ∃ els', JsonPayload c els' p := by
  unfold splitArray at h
  split at h
  · cases h
  · rename_i fin hrun
    split_ifs at h with hend
    have haccepts : Accepts c.jsonMaxDepth ⟨.value, []⟩ p := ⟨.after, hend ▸ jRun_js_of_splitRun hrun, rfl⟩
    obtain ⟨w, b, t, st, rfl, hw, hb, hstep, haccepts⟩ := exists_token_of_accepts skipsWs_value (.inl rfl) haccepts
    rw [splitRun_append, splitRun_outside_ws skipsWs_value hw, Option.bind_some] at hrun
    obtain ⟨u, hu, -⟩ := Option.bind_eq_some_iff.1 hrun
    obtain rfl := eq_bracket_of_splitStep hb hu
    obtain ⟨-, rfl⟩ := jOpen_eq_some.1 hstep
    obtain ⟨els', a, t', ht, ha, hafter⟩ := exists_array_of_accepts (valuesUpTo _ _) le_rfl haccepts
    exact ⟨els', w, a, t', hw, ha, accepts_after_nil.1 hafter, by rw [ht, List.append_assoc]⟩

theorem splitArray_eq_some_iff {c : Params} (hd : 1 ≤ c.jsonMaxDepth) {p : Bytes} {els : List Bytes} :
    splitArray c p = some els ↔ JsonPayload c els p := by
  refine ⟨fun h => ?_, splitArray_of_jsonPayload hd⟩
  obtain ⟨els', hpayload⟩ := exists_jsonPayload_of_splitArray h
  cases h.symm.trans (splitArray_of_jsonPayload hd hpayload)
  exact hpayload

end Sys2Proof

namespace Sys2Proof.Machine

open Sys2Proof

theorem exec_splitArray_of_running {s : State} (hr : s.phase = .running) (p : Bytes) :
    exec (.splitArray p) s = .next { s with out := ⟨.elements (splitArray s.cfg p), []⟩ } :=
  whenRunning_answer hr fun s => .elements (splitArray s.cfg p)

/-- Settles O16: the payloads that split are those of the grammar, and the grammar fixes their elements. -/
theorem splitArrayAcceptsExactlyTheGrammar : Obligations.SplitArrayAcceptsExactlyTheGrammar := by
  intro s p hr hd
  refine ⟨fun els => ?_, fun hnone => ?_⟩
  · rw [exec_splitArray_of_running hr, ← splitArray_eq_some_iff hd]
    constructor
    · intro h
      simpa using congrArg State.out (Host.Outcome.next.inj h)
    · intro h
      rw [h]
  · rw [exec_splitArray_of_running hr]
    cases h : splitArray s.cfg p with
    | none => rfl
    | some els => exact absurd (exists_jsonPayload_of_splitArray h) hnone

end Sys2Proof.Machine

/-! ## The time synchronizer's rows (rules R171 to R179) -/

namespace Sys2Proof.Machine

open Sys2Proof

/-! ### TS_HAS and TS_GET -/

/-- Settles O28: the answer is the flag or the schedule's comparison. -/
theorem tsHasIffPendingOrDue : Obligations.TsHasIffPendingOrDue := by
  intro s now hr
  refine ⟨s.tsHas now, whenRunning_answer hr fun s => .bool (s.tsHas now), ?_⟩
  rw [State.tsHas, Bool.or_eq_true, State.due_iff]

/-- The new scheduled time with the constants of rule R170 written out (rule R175). -/
theorem slipLimited_eq (c : Params) (nextQ now : Time) :
    slipLimited c nextQ now = max (nextQ + 5 * c.tps) (now + 5 * c.tps - c.tps) := by
  simp [slipLimited, Params.intervalT, Params.graceT, Config.intervalSeconds, Config.graceSeconds]

theorem State.mark_eq_refused {s : State} {t : Time} {why : Refusal} :
    s.mark t = .refused why ↔ s.cfg.inInt (msecMark s.cfg s.start t) = false ∧ why = .markOutsideInt := by
  unfold State.mark
  split
  · rename_i hin; simp [hin]
  · rename_i hout; simp [hout, eq_comm]

/-- TS_GET is refused for the mark of a pending reply, or for the stamp of a due query (rules R171, R172). -/
theorem State.tsGet_eq_refused {s : State} {now : Time} {why : Refusal} :
    s.tsGet now = .refused why ↔
      (s.pendV = true ∧ s.cfg.inInt (msecMark s.cfg s.start now) = false ∧ why = .markOutsideInt) ∨
      (s.pendV = false ∧ s.nextQ ≤ now ∧ s.cfg.inCalendar now = false ∧ why = .timeOutsideCalendar) := by
  unfold State.tsGet
  cases hp : s.pendV with
  | true => simp [State.tsGetReply, Ans.andThen_eq_refused, State.mark_eq_refused]
  | false =>
    by_cases hdue : s.nextQ ≤ now
    · simp [State.due, hdue, State.tsGetQuery, Ans.andThen_eq_refused, stampOf_eq_refused]
    · simp [State.due, hdue]

theorem exec_tsGet_of_next {s u : State} (hr : s.phase = .running) {now : Time} {v : Option Variant}
    (h : s.begin.tsGet now = .next (v, u)) : exec (.tsGet now) s = .next (u.finish (.payload v)) := by
  rw [exec, execTsGet, whenRunning_of_running _ hr, h]
  rfl

theorem exec_tsGet_of_refused {s : State} (hr : s.phase = .running) {now : Time} {why : Refusal}
    (h : s.begin.tsGet now = .refused why) : exec (.tsGet now) s = .refused why := by
  rw [exec, execTsGet, whenRunning_of_running _ hr, h]
  rfl

/-- The reply branch of TS_GET in a block that begins an operation (rule R174). -/
theorem tsGet_begin_of_pending {s : State} {now : Time} (hp : s.pendV = true)
    (hmark : s.cfg.inInt (msecMark s.cfg s.start now) = true) :
    s.begin.tsGet now = .next
      (some (.timeReply { s.pend with txMsec := msecMark s.cfg s.start now }), s.begin.clearPending) :=
  State.tsGet_eq_next.2 (.inl ⟨hp, hmark, rfl⟩)

/-- The query branch of TS_GET in a block that begins an operation (rule R175). -/
theorem tsGet_begin_of_due {s : State} {now : Time} (hp : s.pendV = false) (hdue : s.nextQ ≤ now)
    (hcal : s.cfg.inCalendar now = true) :
    s.begin.tsGet now = .next (some (.timeQuery ⟨(utcPack s.cfg now).1, (utcPack s.cfg now).2, 0, 0⟩),
      s.begin.schedule (max (s.nextQ + 5 * s.cfg.tps) (now + 5 * s.cfg.tps - s.cfg.tps))) := by
  rw [← slipLimited_eq]
  exact State.tsGet_eq_next.2 (.inr (.inl ⟨hp, hdue, hcal, rfl⟩))

/-- Settles O29, branch by branch. -/
theorem tsGetTakesOneOfThreeBranches : Obligations.TsGetTakesOneOfThreeBranches := by
  intro s now hr
  refine ⟨fun hp hmark => ?reply, fun hp hdue hcal => ?query, fun hp hnot => ?idle, fun hp hmark => ?badMark,
    fun hp hdue hcal => ?badTime⟩
  case reply => exact exec_tsGet_of_next hr (tsGet_begin_of_pending hp hmark)
  case query => exact exec_tsGet_of_next hr (tsGet_begin_of_due hp hdue hcal)
  case idle => exact exec_tsGet_of_next hr (State.tsGet_eq_next.2 (.inr (.inr ⟨hp, hnot, rfl⟩)))
  case badMark => exact exec_tsGet_of_refused hr (State.tsGet_eq_refused.2 (.inl ⟨hp, hmark, rfl⟩))
  case badTime => exact exec_tsGet_of_refused hr (State.tsGet_eq_refused.2 (.inr ⟨hp, hdue, hcal, rfl⟩))

/-- The later of one interval after the scheduled time and four seconds after the send, by how late the send is
(rule R177). -/
theorem slip_spacing {nextQ now tps : Int} (htps : 1 ≤ tps) :
    (now ≤ nextQ + tps → max (nextQ + 5 * tps) (now + 5 * tps - tps) = nextQ + 5 * tps) ∧
    (nextQ + tps < now → max (nextQ + 5 * tps) (now + 5 * tps - tps) = now + 4 * tps) ∧
    now + 4 * tps ≤ max (nextQ + 5 * tps) (now + 5 * tps - tps) ∧
    nextQ + 5 * tps ≤ max (nextQ + 5 * tps) (now + 5 * tps - tps) ∧
    nextQ < max (nextQ + 5 * tps) (now + 5 * tps - tps) := by
  omega

/-- Settles O30: which of the two times is the later one, by how late the query is. -/
theorem slipLimitedScheduleSpacing : Obligations.SlipLimitedScheduleSpacing := by
  intro s now hr htps hp hdue hcal
  exact ⟨_, exec_tsGet_of_next hr (tsGet_begin_of_due hp hdue hcal), slip_spacing (Int.ofNat_le.2 htps)⟩

/-! ### TS_ONQ and TS_ONR -/

/-- TS_ONQ writes the slot and reads nothing of what it held (rule R178). -/
theorem exec_tsOnq_of_inInt {s : State} (hr : s.phase = .running) {q : TimeQuery} {w : Time}
    (hq : (Variant.timeQuery q).inRange s.cfg = true) (hmark : s.cfg.inInt (msecMark s.cfg s.start w) = true) :
    exec (.tsOnq q w) s = .next { s with
      pendV := true
      pend := ⟨q.yyyymmdd, q.hhmmssmmm, msecMark s.cfg s.start w, 0, s.fpId, s.fpLen⟩
      out := ⟨.none, []⟩ } := by
  rw [exec, execTsOnq, whenRunning_of_running _ hr, State.begin_cfg, hq, inDomain_true]
  exact State.tsOnq_eq_next.2 ⟨hmark, rfl⟩

theorem State.tsOnq_eq_refused {s : State} {q : TimeQuery} {w : Time} {why : Refusal} :
    s.tsOnq q w = .refused why ↔
      s.cfg.inInt (msecMark s.cfg s.start w) = false ∧ why = .markOutsideInt := by
  simp [State.tsOnq, Ans.andThen_eq_refused, State.mark_eq_refused]

/-- Settles O31: the second query meets a full slot and writes what it writes to the slot as it was. -/
theorem lastQueryWins : Obligations.LastQueryWins := by
  intro s q w hr hq
  refine ⟨fun hmark => ?_, fun hmark => ⟨_, exec_tsOnq_of_inInt hr hq hmark, rfl, fun q' w' hq' hmark' => ?_⟩⟩
  · rw [exec, execTsOnq, whenRunning_of_running _ hr, State.begin_cfg, hq, inDomain_true]
    exact State.tsOnq_eq_refused.2 ⟨hmark, rfl⟩
  · rw [exec_tsOnq_of_inInt hr hq' hmark']
    exact exec_tsOnq_of_inInt hr hq' hmark'

/-- Settles O32: behind the operand check there is no effect. -/
theorem receivedReplyHasNoEffect : Obligations.ReceivedReplyHasNoEffect := by
  intro s r w hr hrange
  rw [exec, execTsOnr, whenRunning_of_running _ hr, State.begin_cfg, hrange, inDomain_true, State.tsOnr_eq]
  rfl

end Sys2Proof.Machine

/-! ## NEXT_SEND (rules R171, R172, R211, R212) -/

namespace Sys2Proof.Machine

open Sys2Proof

theorem exec_nextSend_of_running {s : State} (hr : s.phase = .running) (now : Time) (e : Bool) :
    exec (.nextSend now e) s = s.begin.nextSend now e :=
  whenRunning_of_running (fun s => s.nextSend now e) hr

/-- TS_GET stops, or gives a payload, only where TS_HAS says so (rule R173). -/
theorem tsHas_of_tsGet {s : State} {now : Time} (h : ∀ u, s.tsGet now ≠ .next (none, u)) : s.tsHas now = true := by
  by_contra hno
  rw [Bool.not_eq_true, State.tsHas, Bool.or_eq_false_iff] at hno
  obtain ⟨hp, hdue⟩ := hno
  exact h s (by simp [State.tsGet, hp, hdue])

/-- With an empty transmit buffer NEXT_SEND frames the payload TS_GET gives (rule R211). -/
theorem State.nextSend_of_payload {s u : State} {now : Time} {v : Variant} (h : s.tsGet now = .next (some v, u)) :
    s.nextSend now true = .next (u.serialize (plEnc s.cfg v) [s.cfg.nl]) := by
  simp [State.nextSend, tsHas_of_tsGet (s := s) (now := now) (by simp [h]), h]

/-- With an empty transmit buffer a refusal of TS_GET is one of NEXT_SEND (rule R11). -/
theorem State.nextSend_of_refused {s : State} {now : Time} {why : Refusal} (h : s.tsGet now = .refused why) :
    s.nextSend now true = .refused why := by
  simp [State.nextSend, tsHas_of_tsGet (s := s) (now := now) (by simp [h]), h]

/-- NEXT_SEND is refused exactly where the TS_GET it calls is (rule R211). -/
theorem State.nextSend_eq_refused {s : State} {now : Time} {e : Bool} {why : Refusal} :
    s.nextSend now e = .refused why ↔ e = true ∧ s.tsGet now = .refused why := by
  refine ⟨fun h => ⟨?_, State.nextSend_refused h⟩, fun ⟨he, hget⟩ => ?_⟩
  · cases e with
    | true => rfl
    | false => simp [State.nextSend, answer] at h
  · rw [he, State.nextSend_of_refused hget]

/-- Settles O46: the refusals of NEXT_SEND are those of TS_GET. -/
theorem nextSendRefusesOnlyOutOfRangeTimes : Obligations.NextSendRefusesOnlyOutOfRangeTimes := by
  intro s now e hr
  have refused : ∀ why, exec (.nextSend now e) s = .refused why ↔ e = true ∧
      ((s.pendV = true ∧ s.cfg.inInt (msecMark s.cfg s.start now) = false ∧ why = .markOutsideInt) ∨
       (s.pendV = false ∧ s.nextQ ≤ now ∧ s.cfg.inCalendar now = false ∧ why = .timeOutsideCalendar)) := by
    intro why
    rw [exec_nextSend_of_running hr, State.nextSend_eq_refused, State.tsGet_eq_refused]
    rfl
  refine ⟨by simp [refused], by simp [refused], fun why h => ?_⟩
  obtain ⟨-, ⟨-, -, hwhy⟩ | ⟨-, -, -, hwhy⟩⟩ := (refused why).1 h
  · exact .inl hwhy
  · exact .inr hwhy

/-- The line of a variant value is framed (rules R7, R126). -/
theorem exists_lineSer_plEnc {c : Params} (hl : c.legal = true) (v : Variant) :
    ∃ b, lineSer c (plEnc c v) = some b :=
  ⟨_, if_pos (legal_pfx_word hl v)⟩

theorem State.tsGet_cfg {s u : State} {now : Time} {v : Option Variant} (h : s.tsGet now = .next (v, u)) :
    u.cfg = s.cfg := by
  rcases State.tsGet_eq_next.1 h with ⟨-, -, he⟩ | ⟨-, -, -, he⟩ | ⟨-, -, he⟩ <;>
    · obtain ⟨-, rfl⟩ := Prod.mk.inj he
      rfl

/-- NEXT_SEND returns the line of the payload TS_GET gives (rule R211). -/
theorem exec_nextSend_of_tsGet {s u : State} (hr : s.phase = .running) {now : Time} {v : Variant} {b : Bytes}
    (hget : s.begin.tsGet now = .next (some v, u)) (hser : lineSer s.cfg (plEnc s.cfg v) = some b) :
    exec (.nextSend now true) s = .next (u.finish (.bytes (b ++ [s.cfg.nl]))) := by
  have hcfg : u.cfg = s.cfg := State.tsGet_cfg (s := s.begin) hget
  rw [exec_nextSend_of_running hr, State.nextSend_of_payload hget]
  simp only [State.serialize, State.begin_cfg, hcfg, hser]

/-- NEXT_SEND of a due query with no reply pending (rules R175, R211). -/
theorem exec_nextSend_of_due {s : State} (hr : s.phase = .running) (hl : s.cfg.legal = true) {now : Time}
    (hp : s.pendV = false) (hdue : s.nextQ ≤ now) (hcal : s.cfg.inCalendar now = true) :
    ∃ b : Bytes,
      lineSer s.cfg (plEnc s.cfg (.timeQuery ⟨(utcPack s.cfg now).1, (utcPack s.cfg now).2, 0, 0⟩)) = some b ∧
      exec (.nextSend now true) s = .next { s with
        nextQ := max (s.nextQ + 5 * s.cfg.tps) (now + 5 * s.cfg.tps - s.cfg.tps)
        out := ⟨.bytes (b ++ [s.cfg.nl]), []⟩ } := by
  obtain ⟨b, hser⟩ := exists_lineSer_plEnc hl (.timeQuery ⟨(utcPack s.cfg now).1, (utcPack s.cfg now).2, 0, 0⟩)
  exact ⟨b, hser, exec_nextSend_of_tsGet hr (tsGet_begin_of_due hp hdue hcal) hser⟩

/-- Settles O45: a sent reply leaves the slot empty and the schedule as it was, so the query is next. -/
theorem replyIsSentBeforeQuery : Obligations.ReplyIsSentBeforeQuery := by
  intro s now hr hl
  refine ⟨fun hp hmark => ?_, fun hp hdue hcal => exec_nextSend_of_due hr hl hp hdue hcal⟩
  obtain ⟨b, hser⟩ :=
    exists_lineSer_plEnc hl (.timeReply { s.pend with txMsec := msecMark s.cfg s.start now })
  have hsend := exec_nextSend_of_tsGet hr (tsGet_begin_of_pending hp hmark) hser
  refine ⟨b, _, hser, hsend, rfl, fun now' hdue hcal => ?_⟩
  exact exec_nextSend_of_due (s := (s.begin.clearPending).finish _) hr hl rfl hdue hcal

end Sys2Proof.Machine

/-! ## Lines and DISPATCH (rules R171, R178, R205, R206) -/

namespace Sys2Proof.Machine

open Sys2Proof

/-! ### The effect of each kind of value -/

theorem dispatch_begin_publish (s : State) (p : Publish) :
    s.begin.dispatch (.publish p) = .next { s with
      mq := if s.cfg.mqDepth.all (fun d => decide (s.mq.length < d)) then
        s.mq ++ [⟨p.topic, p.body, schemaResolve Config.schemaLookup p.schemaName, 0, p.msec⟩] else s.mq
      out := ⟨.none, []⟩ } := rfl

theorem dispatch_begin_timeQuery {s : State} (hmark : s.cfg.inInt (msecMark s.cfg s.start s.lineT) = true)
    (q : TimeQuery) :
    s.begin.dispatch (.timeQuery q) = .next { s with
      pendV := true
      pend := ⟨q.yyyymmdd, q.hhmmssmmm, msecMark s.cfg s.start s.lineT, 0, s.fpId, s.fpLen⟩
      out := ⟨.none, []⟩ } :=
  State.tsOnq_eq_next.2 ⟨hmark, rfl⟩

theorem dispatch_begin_timeQuery_refused {s : State}
    (hmark : s.cfg.inInt (msecMark s.cfg s.start s.lineT) = false) (q : TimeQuery) :
    s.begin.dispatch (.timeQuery q) = .refused .markOutsideInt :=
  State.tsOnq_eq_refused.2 ⟨hmark, rfl⟩

theorem dispatch_begin_timeReply (s : State) (r : TimeReply) :
    s.begin.dispatch (.timeReply r) = .next { s with out := ⟨.none, []⟩ } := rfl

theorem dispatch_begin_profileStart (s : State) (p : ProfileStart) :
    s.begin.dispatch (.profileStart p) =
      .next { s with out := ⟨.none, [.unhandled s.cfg.pfxPs (.profileStart p)]⟩ } := rfl

/-- The LINE row of a value dispatches it, whatever the form of its checksum field (rule R205, log 11). -/
theorem exec_lineOfVariant {s : State} (hr : s.phase = .running) {ck : CkForm} {v : Variant}
    (hwf : wellFormed s.cfg (lineOfVariant ck v) = true) :
    exec (lineOfVariant ck v) s = s.begin.dispatch v := by
  have guard : ∀ k : State → Ans State, whenRunning s (fun s =>
      inDomain (wellFormed s.cfg (lineOfVariant ck v)) (k s)) = k s.begin := fun k => by
    rw [whenRunning_of_running _ hr, State.begin_cfg, hwf, inDomain_true]
  cases v with
  | publish p => exact guard fun s => s.dispatch (.publish p)
  | timeQuery q => exact guard fun s => s.dispatch (.timeQuery q)
  | timeReply r => exact guard fun s => s.dispatch (.timeReply r)
  | profileStart p => exact guard fun s => s.dispatch (.profileStart p)

/-- Settles O40: four of the rows are DISPATCH of their value, the fifth is one event. -/
theorem lineRowsHaveTheirEffect : Obligations.LineRowsHaveTheirEffect := by
  intro s ck hr
  have row : ∀ v : Variant, wellFormed s.cfg (lineOfVariant ck v) = true →
      exec (lineOfVariant ck v) s = s.begin.dispatch v := fun _ => exec_lineOfVariant hr
  refine ⟨fun p hwf => ?publish, fun q hwf hmark => ?timeQuery, fun q hwf hmark => ?badMark, fun r hwf => ?timeReply,
    fun p hwf => ?profileStart, fun l hwf => ?unknown⟩
  case publish => exact (row (.publish p) hwf).trans (dispatch_begin_publish s p)
  case timeQuery => exact (row (.timeQuery q) hwf).trans (dispatch_begin_timeQuery hmark q)
  case badMark => exact (row (.timeQuery q) hwf).trans (dispatch_begin_timeQuery_refused hmark q)
  case timeReply => exact (row (.timeReply r) hwf).trans (dispatch_begin_timeReply s r)
  case profileStart => exact (row (.profileStart p) hwf).trans (dispatch_begin_profileStart s p)
  case unknown =>
    rw [exec, execLineUnknown, whenRunning_of_running _ hr, State.begin_cfg, hwf, inDomain_true]
    rfl

/-! ### Where a line is refused -/

theorem exec_dispatch_of_inRange {s : State} (hr : s.phase = .running) {v : Variant}
    (hv : v.inRange s.cfg = true) : exec (.dispatch v) s = s.begin.dispatch v := by
  rw [exec, execDispatch, whenRunning_of_running _ hr, State.begin_cfg, hv, inDomain_true]

theorem exec_lineProcess_of_running {s : State} (hr : s.phase = .running) (b : Bytes) :
    exec (.lineProcess b) s = s.begin.lineProcess b :=
  whenRunning_of_running (fun s => s.lineProcess b) hr

/-- What neither faults nor is refused completes. -/
theorem Ans.exists_next {α : Type} {o : Ans α} (hf : ∀ why, o ≠ .fault why) (hr : ∀ why, o ≠ .refused why) :
    ∃ a, o = .next a := by
  cases o with
  | next a => exact ⟨a, rfl⟩
  | fault why => exact absurd rfl (hf why)
  | refused why => exact absurd rfl (hr why)

/-- DISPATCH is refused for the mark of a TimeQuery only (rule R171). -/
theorem State.dispatch_eq_refused {s : State} {v : Variant} {why : Refusal} :
    s.dispatch v = .refused why ↔ (∃ q, v = .timeQuery q) ∧
      s.cfg.inInt (msecMark s.cfg s.start s.lineT) = false ∧ why = .markOutsideInt := by
  cases v with
  | timeQuery q => simp [State.dispatch, State.tsOnq_eq_refused]
  | publish p | timeReply r | profileStart p => simp [State.dispatch]

/-- A TimeQuery line is one that LINE_PARSE accepts and that decodes to a TimeQuery. -/
theorem isQueryLine_iff {c : Params} {b : Bytes} :
    c.IsQueryLine b ↔ ∃ l verdict q, lineParse c b = .ok l verdict ∧ plDec c l = .known (.timeQuery q) := by
  constructor
  · rintro ⟨ck, q, h⟩
    obtain ⟨l, verdict, hparse, ⟨-, hi⟩ | ⟨v, hknown, hi⟩⟩ := decodeLine_eq_ok h
    · cases hi
    · cases v with
      | timeQuery q' => exact ⟨l, verdict, q', hparse, hknown⟩
      | publish p | timeReply r | profileStart p => cases hi
  · rintro ⟨l, verdict, q, hparse, hknown⟩
    exact ⟨verdict.form, q, by simp [decodeLine, hparse, hknown, lineOfVariant]⟩

/-- The line is a TimeQuery line, and the mark of the time `t` does not fit an INT (rule R171). -/
def State.RefusesLine (s : State) (line : Bytes) (t : Time) : Prop :=
  s.cfg.IsQueryLine line ∧ s.cfg.inInt (msecMark s.cfg s.start t) = false

theorem State.lineProcess_of_known {s : State} {b : Bytes} {l : Line} {verdict : Verdict} {v : Variant}
    (hparse : lineParse s.cfg b = .ok l verdict) (hknown : plDec s.cfg l = .known v) :
    s.lineProcess b = s.dispatch v := by
  simp [State.lineProcess, hparse, hknown]

/-- LINE_PROCESS is refused exactly on a TimeQuery line whose mark does not fit (rules R171, R205). -/
theorem State.lineProcess_eq_refused {s : State} {b : Bytes} {why : Refusal} :
    s.lineProcess b = .refused why ↔ s.RefusesLine b s.lineT ∧ why = .markOutsideInt := by
  constructor
  · intro h
    rcases s.lineProcess_cases b with ⟨e, -, he⟩ | ⟨l, verdict, v, hparse, hknown, hd⟩
    · rw [he] at h
      cases h
    · obtain ⟨⟨q, rfl⟩, hmark, hwhy⟩ := State.dispatch_eq_refused.1 (hd ▸ h)
      exact ⟨⟨isQueryLine_iff.2 ⟨l, verdict, q, hparse, hknown⟩, hmark⟩, hwhy⟩
  · rintro ⟨⟨hquery, hmark⟩, hwhy⟩
    obtain ⟨l, verdict, q, hparse, hknown⟩ := isQueryLine_iff.1 hquery
    rw [State.lineProcess_of_known hparse hknown]
    exact State.dispatch_eq_refused.2 ⟨⟨q, rfl⟩, hmark, hwhy⟩

/-- LINE_PROCESS returns no result and emits at most one event (rules R205, R230). -/
theorem State.lineProcess_out {s t : State} {b : Bytes} (h : s.lineProcess b = .next t) :
    t.out.result = s.out.result ∧ t.out.events.length ≤ s.out.events.length + 1 := by
  rcases s.lineProcess_cases b with ⟨e, -, he⟩ | ⟨_, _, v, -, -, hd⟩
  · rw [he] at h
    cases h
    simp
  · rcases State.dispatch_eq_next (hd ▸ h) with ⟨_, -, -, rfl⟩ | ⟨_, -, rfl⟩ | ⟨_, -, rfl⟩ | ⟨_, -, rfl⟩ <;> simp

/-- LINE_PROCESS keeps what is outside its write set. -/
theorem lineProcess_keepsTheRest {s t : State} {b : Bytes} (h : s.lineProcess b = .next t) :
    KeepsTheRest (.lineProcess b) s t :=
  have hfill : (Instr.lineProcess b).mayFillSlot := .inr (.inr (.inr (.inl ⟨b, rfl⟩)))
  have henqueue : (Instr.lineProcess b).mayEnqueue := .inr (.inr (.inl ⟨b, rfl⟩))
  (lineProcess_writes hfill henqueue h).keepsTheRest nofun

/-- Settles O41: a line is refused for its mark or completes; DISPATCH has the effect of the value's kind. -/
theorem lineProcessAndDispatchComplete : Obligations.LineProcessAndDispatchComplete := by
  intro s hr
  have row : ∀ v : Variant, v.inRange s.cfg = true → exec (.dispatch v) s = s.begin.dispatch v :=
    fun _ => exec_dispatch_of_inRange hr
  refine ⟨fun b hquery hmark => ?badLine, fun b hmark => ?line, fun p hp => ?publish, fun q hq hmark => ?timeQuery,
    fun q hq hmark => ?badMark, fun r hrange => ?timeReply, fun p hp => ?profileStart⟩
  case badLine =>
    rw [exec_lineProcess_of_running hr]
    exact State.lineProcess_eq_refused.2 ⟨⟨hquery, hmark⟩, rfl⟩
  case line =>
    have hfits : ∀ why, s.begin.lineProcess b ≠ .refused why := fun why h => by
      obtain ⟨⟨hquery, hout⟩, -⟩ := State.lineProcess_eq_refused.1 h
      exact Bool.false_ne_true (hout.symm.trans (hmark hquery))
    obtain ⟨t, ht⟩ := Ans.exists_next (fun _ => State.lineProcess_ne_fault) hfits
    obtain ⟨hresult, hevents⟩ := State.lineProcess_out ht
    have keeps := lineProcess_keepsTheRest ht
    obtain ⟨hacc, hlineT⟩ := keeps.acc_lineT nofun
    have hnextQ : t.nextQ = s.nextQ := keeps.nextQ_eq (by simp [Instr.mayEmptySlot])
    exact ⟨t, (exec_lineProcess_of_running hr b).trans ht, hresult, hevents, hacc, hnextQ, hlineT⟩
  case publish => exact (row _ hp).trans (dispatch_begin_publish s p)
  case timeQuery => exact (row _ hq).trans (dispatch_begin_timeQuery hmark q)
  case badMark => exact (row _ hq).trans (dispatch_begin_timeQuery_refused hmark q)
  case timeReply => exact (row _ hrange).trans (dispatch_begin_timeReply s r)
  case profileStart => exact (row _ hp).trans (dispatch_begin_profileStart s p)

end Sys2Proof.Machine

/-! ## Where FEED completes (rules R171, R201 to R205)

FEED is refused exactly where one of the lines it completes is, by induction on the lines of the chunk. -/

namespace Sys2Proof.Machine

open Sys2Proof

/-! ### The lines a chunk completes -/

/-- A separator is the first one of a list, or stands behind it. -/
theorem append_cons_eq_iff {α : Type} {x : α} {part rest before tail : List α} (h : x ∉ part) :
    part ++ x :: rest = before ++ x :: tail ↔
      (before = part ∧ tail = rest) ∨ ∃ between, before = part ++ x :: between ∧ rest = between ++ x :: tail := by
  rw [List.append_eq_append_iff]
  constructor
  · rintro (⟨gap, hbefore, htail⟩ | ⟨gap, hpart, hrest⟩)
    · cases gap <;> simp_all
    · cases gap <;> simp_all
  · rintro (⟨rfl, rfl⟩ | ⟨between, rfl, rfl⟩)
    · exact .inl ⟨[], by simp⟩
    · exact .inl ⟨x :: between, by simp⟩

theorem completes_of_no_nl {s : State} {data : Bytes} (h : s.cfg.nl ∉ data) (w : Time) (line : Bytes) (t : Time) :
    ¬ s.Completes data w line t := by
  rintro (⟨part, rest, rfl, -⟩ | ⟨before, rest, rfl, -⟩) <;> simp at h

/-- The lines of a chunk are its first one and those that the rest of it completes in a block whose accumulator is
empty (rules R202, R203). -/
theorem completes_append_nl {s u : State} {part : Bytes} (h : s.cfg.nl ∉ part) (hacc : u.acc = [])
    (hcfg : u.cfg = s.cfg) {rest : Bytes} {w : Time} {line : Bytes} {t : Time} :
    s.Completes (part ++ s.cfg.nl :: rest) w line t ↔
      (line = s.acc ++ part ∧ t = if s.acc = [] then w else s.lineT) ∨ u.Completes rest w line t := by
  simp only [State.Completes, hacc, hcfg, List.append_assoc, List.cons_append, List.nil_append, if_true,
    append_cons_eq_iff h]
  constructor
  · rintro (⟨p, r, ⟨rfl, rfl⟩ | ⟨between, rfl, -⟩, hnl, hline, ht⟩ |
      ⟨before, r, ⟨rfl, rfl⟩ | ⟨between, rfl, hrest⟩, hnl, ht⟩)
    · exact .inl ⟨hline, ht⟩
    · simp at hnl
    · exact .inr (.inl ⟨line, r, rfl, hnl, rfl, ht⟩)
    · exact .inr (.inr ⟨between, r, hrest, hnl, ht⟩)
  · rintro (⟨hline, ht⟩ | ⟨p, r, hrest, hnl, rfl, ht⟩ | ⟨between, r, hrest, hnl, ht⟩)
    · exact .inl ⟨part, rest, .inl ⟨rfl, rfl⟩, h, hline, ht⟩
    · exact .inr ⟨part, r, .inl ⟨rfl, hrest.symm⟩, hnl, ht⟩
    · exact .inr ⟨part ++ s.cfg.nl :: between, r, .inr ⟨between, rfl, hrest⟩, hnl, ht⟩

/-! ### The refusals -/

/-- FEED keeps what is outside its write set. -/
theorem feed_keepsTheRest {s t : State} {data : Bytes} {w : Time} (h : s.feed data w = .next t) :
    KeepsTheRest (.feed data w) s t :=
  (feed_writes h).keepsTheRest nofun

theorem feedLine_start {s t : State} {w : Time} {part : Bytes} (h : s.feedLine w part = .next t) :
    t.start = s.start := by
  obtain ⟨u, rfl, ⟨e, rfl⟩ | ⟨r, rfl⟩ | rfl | ⟨m, rfl⟩⟩ := State.feedLine_eq_next h <;> simp [State.stampLine_eq]

/-- A line is refused for its own mark only, which is that of the time it began (rules R171, R202). -/
theorem State.feedLine_eq_refused {s : State} {w : Time} {part : Bytes} {why : Refusal} :
    s.feedLine w part = .refused why ↔
      s.RefusesLine (s.acc ++ part) (if s.acc = [] then w else s.lineT) ∧ why = .markOutsideInt := by
  rw [State.feedLine, State.lineProcess_eq_refused, State.stampLine_eq]
  rfl

/-- FEED is refused exactly where it completes a line that is refused (log 18), by induction on the lines. -/
theorem feed_refused_iff {s : State} {data : Bytes} {w : Time} :
    s.feed data w = .refused .markOutsideInt ↔ ∃ line t, s.Completes data w line t ∧ s.RefusesLine line t := by
  by_cases hnl : s.cfg.nl ∈ data
  · obtain ⟨part, rest, hdata, hpart⟩ := List.eq_append_cons_of_mem hnl
    rw [hdata, State.feed_append_nl hpart]
    cases hline : s.feedLine w part with
    | fault why => exact absurd hline State.feedLine_ne_fault
    | refused why =>
      obtain ⟨hfirst, rfl⟩ := State.feedLine_eq_refused.1 hline
      exact iff_of_true rfl ⟨_, _, .inl ⟨part, rest, by simp, hpart, rfl, rfl⟩, hfirst⟩
    | next u =>
      obtain ⟨hacc, hcfg⟩ := State.feedLine_acc_cfg hline
      have hsame : ∀ line t, u.RefusesLine line t ↔ s.RefusesLine line t := fun line t => by
        rw [State.RefusesLine, State.RefusesLine, hcfg, feedLine_start hline]
      have hfirst : ¬ s.RefusesLine (s.acc ++ part) (if s.acc = [] then w else s.lineT) := fun hbad => by
        cases hline.symm.trans (State.feedLine_eq_refused.2 ⟨hbad, rfl⟩)
      rw [Ans.next_andThen, feed_refused_iff]
      constructor
      · rintro ⟨line, t, hc, hbad⟩
        exact ⟨line, t, (completes_append_nl hpart hacc hcfg).2 (.inr hc), (hsame line t).1 hbad⟩
      · rintro ⟨line, t, hc, hbad⟩
        rcases (completes_append_nl hpart hacc hcfg).1 hc with ⟨rfl, rfl⟩ | hc
        · exact absurd hbad hfirst
        · exact ⟨line, t, hc, (hsame line t).2 hbad⟩
  · rw [State.feed_of_no_nl hnl]
    exact iff_of_false nofun fun ⟨line, t, hc, _⟩ => completes_of_no_nl hnl w line t hc
termination_by data.length
decreasing_by simp only [hdata, List.length_append, List.length_cons]; omega

/-- FEED returns no result (rule R201). -/
theorem feed_begin_result {s t : State} {data : Bytes} {w : Time} (h : s.begin.feed data w = .next t) :
    t.out.result = .none :=
  congrArg (fun u : State => u.out.result) (begin_withEarlierEvents_of_feed h).symm

/-- Settles O35: FEED is refused exactly for the lines it completes, and its writes leave the schedule alone. -/
theorem feedCompletesAndKeepsSchedule : Obligations.FeedCompletesAndKeepsSchedule := by
  intro s data w hr hok
  have hexec : exec (.feed data w) s = s.begin.feed data w := by
    rw [exec, execFeed, whenRunning_of_running _ hr, State.begin_cfg, hok, inDomain_true]
  rw [hexec]
  refine ⟨fun hmarks => ?completes, fun line t hc hquery hout => ?refused⟩
  case refused => exact feed_refused_iff.2 ⟨line, t, hc, hquery, hout⟩
  case completes =>
    have hfits : ∀ why, s.begin.feed data w ≠ .refused why := fun why h => by
      obtain rfl := State.feed_refused h
      obtain ⟨line, t, hc, hquery, hout⟩ := feed_refused_iff.1 h
      exact Bool.false_ne_true (hout.symm.trans (hmarks line t hc hquery))
    obtain ⟨t, ht⟩ := Ans.exists_next (fun _ => State.feed_ne_fault) hfits
    have keeps := feed_keepsTheRest ht
    obtain ⟨hstart, hfpId, hfpLen, hprofile⟩ := keeps.session
    obtain ⟨hcfg, hinbox, hfree⟩ := keeps.model
    have hnextQ : t.nextQ = s.nextQ := keeps.nextQ_eq (by simp [Instr.mayEmptySlot])
    exact ⟨t, ht, feed_begin_result ht, keeps.mq_append nofun, hnextQ, hstart, hfpId, hfpLen, hprofile, hcfg,
      keeps.phase nofun, hinbox, hfree⟩

end Sys2Proof.Machine

/-! ## What the caller can reach (rules R200, R235, R242)

The command port selects four commands, the RESET input one more; none of them is a serializer run alone, so none
takes the CONTRACT fault. -/

namespace Sys2Proof.Machine

open Sys2Proof

/-- The samples of the inputs select five operations (rules R91, R200). -/
theorem decodePort_cases (p : PortInput) :
    (∃ data w, decodePort p = .feed data w) ∨ decodePort p = .drain ∨ (∃ now e, decodePort p = .nextSend now e) ∨
      decodePort p = .reservedOp3 ∨ ∃ t0 id len, decodePort p = .reset t0 id len := by
  cases p with
  | reset t0 id len => exact .inr (.inr (.inr (.inr ⟨t0, id, len, rfl⟩)))
  | command op data time txEmpty =>
    simp only [decodePort]
    split_ifs
    · exact .inl ⟨data, time, rfl⟩
    · exact .inr (.inl rfl)
    · exact .inr (.inr (.inl ⟨time, txEmpty == 1, rfl⟩))
    · exact .inr (.inr (.inr (.inl rfl)))

/-- A running operation faults only where its meaning does (rule R235). -/
theorem whenRunning_ne_fault {s : State} {k : State → Ans State} {why : Fault} (hr : s.phase = .running)
    (hk : k s.begin ≠ .fault why) : whenRunning s k ≠ .fault why := by
  rwa [whenRunning_of_running k hr]

theorem inDomain_ne_fault {ok : Bool} {k : Ans State} {why : Fault} (hk : k ≠ .fault why) :
    inDomain ok k ≠ .fault why :=
  fun h => hk (inDomain_eq_fault.1 h).2

/-- No operation the inputs select faults in a running block (rules R200, R242). -/
theorem exec_decodePort_ne_fault {s : State} (hr : s.phase = .running) (p : PortInput) {why : Fault} :
    exec (decodePort p) s ≠ .fault why := by
  rcases decodePort_cases p with ⟨data, w, hp⟩ | hp | ⟨now, e, hp⟩ | hp | ⟨t0, id, len, hp⟩ <;> rw [hp, exec]
  · exact whenRunning_ne_fault hr (inDomain_ne_fault State.feed_ne_fault)
  · exact whenRunning_ne_fault hr nofun
  · exact whenRunning_ne_fault hr State.nextSend_ne_fault
  · nofun
  · exact inDomain_ne_fault nofun

theorem exec_reset_phase {s t : State} {t0 : Time} {id len : Int} (h : exec (.reset t0 id len) s = .next t) :
    t.phase = .running := by
  obtain ⟨-, hdone⟩ := inDomain_eq_next.1 h
  rw [done_eq_next.1 hdone]
  rfl

/-- An operation the inputs select leaves a running block running: RESET constructs, no other writes the phase. -/
theorem exec_decodePort_phase {s t : State} (hl : s.cfg.legal = true) (hr : s.phase = .running) {p : PortInput}
    (h : exec (decodePort p) s = .next t) : t.phase = .running := by
  have kept : ∀ {i : Instr}, exec i s = .next t → (∀ t0 a b, i ≠ .reset t0 a b) → (∀ l, i ≠ .lineSer l) →
      t.phase = .running := fun hi hreset hser => (((exec_writes hl hi).keepsTheRest hreset).phase hser).trans hr
  rcases decodePort_cases p with ⟨data, w, hp⟩ | hp | ⟨now, e, hp⟩ | hp | ⟨t0, id, len, hp⟩ <;> rw [hp] at h
  · exact kept h nofun nofun
  · exact kept h nofun nofun
  · exact kept h nofun nofun
  · exact kept h nofun nofun
  · exact exec_reset_phase h

/-- Settles O59: a step holds the state or runs one of the five operations the inputs select. -/
theorem contractUnreachableFromOutside : Obligations.ContractUnreachableFromOutside := by
  intro s hs hr
  cases hin : s.inbox with
  | nil =>
    rw [step_of_inbox_nil hin]
    refine ⟨nofun, fun t ht => ?_⟩
    cases ht
    exact hr
  | cons p rest =>
    rw [step_of_inbox_cons hin]
    exact ⟨fun why => exec_decodePort_ne_fault (s := { s with inbox := rest }) hr p,
      fun t => exec_decodePort_phase (s := { s with inbox := rest }) hs.legal hr⟩

end Sys2Proof.Machine

/-! ## FEED is the loop of its rule (rules R201 to R204) -/

namespace Sys2Proof.Machine

open Sys2Proof

theorem findIdx?_nl_eq_none {nl : Byte} {data : Bytes} (h : nl ∉ data) :
    data.findIdx? (fun b => b == nl) = none :=
  List.findIdx?_eq_none_iff.2 fun _ hx => beq_false_of_ne fun e => h (e ▸ hx)

/-- The first newline of a chunk stands behind its first line. -/
theorem findIdx?_append_nl {nl : Byte} {part : Bytes} (h : nl ∉ part) (rest : Bytes) :
    (part ++ nl :: rest).findIdx? (fun b => b == nl) = some part.length := by
  simp [List.findIdx?_append, findIdx?_nl_eq_none h, List.findIdx?_cons]

theorem feedLoop_nil (w : Time) (fuel : Nat) (s : State) : feedLoop w fuel [] s = .next s := by
  cases fuel <;> rfl

/-- A turn of the loop that finds a newline does one line (rule R203). -/
theorem feedLoop_append_nl {s : State} {part : Bytes} (h : s.cfg.nl ∉ part) (rest : Bytes) (w : Time) (fuel : Nat) :
    feedLoop w (fuel + 1) (part ++ s.cfg.nl :: rest) s =
      (s.feedLine w part).andThen fun t => feedLoop w fuel rest t := by
  have hne : part ++ s.cfg.nl :: rest ≠ [] := by simp
  have hdrop : (part ++ s.cfg.nl :: rest).drop (part.length + 1) = rest := by simp [List.drop_append]
  rw [feedLoop, if_neg hne]
  simp only [findIdx?_append_nl h, List.take_left, hdrop]
  rw [State.feedLine, ← State.stampLine, State.stampLine_acc]

/-- A turn of the loop that finds none takes the rest of the chunk as its tail (rule R204). -/
theorem feedLoop_of_no_nl {s : State} {data : Bytes} (hne : data ≠ []) (h : s.cfg.nl ∉ data) (w : Time)
    (fuel : Nat) : feedLoop w (fuel + 1) data s = .next (s.feedTail w data) := by
  rw [feedLoop, if_neg hne, State.feedTail, if_neg hne, State.checkOverflow]
  simp only [findIdx?_nl_eq_none h]
  rw [← State.stampLine]
  split_ifs <;> rfl

/-- FEED is the loop with at least one turn for each byte, by induction on the turns: a turn does one line, or the
tail. -/
theorem feed_eq_feedLoop {w : Time} {fuel : Nat} :
    ∀ {data : Bytes} {s : State}, data.length ≤ fuel → s.feed data w = feedLoop w fuel data s := by
  have empty : ∀ s : State, s.feed [] w = .next s := fun s => State.feed_of_no_nl List.not_mem_nil w
  induction fuel with
  | zero =>
    intro data s hlen
    rw [List.eq_nil_of_length_eq_zero (Nat.le_zero.1 hlen), empty, feedLoop_nil]
  | succ fuel ih =>
    intro data s hlen
    by_cases hne : data = []
    · rw [hne, empty, feedLoop_nil]
    by_cases hnl : s.cfg.nl ∈ data
    · obtain ⟨part, rest, rfl, hpart⟩ := List.eq_append_cons_of_mem hnl
      have hrest : rest.length ≤ fuel := by
        simp only [List.length_append, List.length_cons] at hlen
        omega
      simp only [State.feed_append_nl hpart, feedLoop_append_nl hpart, ih hrest]
    · rw [State.feed_of_no_nl hnl, feedLoop_of_no_nl hne hnl]

theorem exec_feed_of_running {s : State} {data : Bytes} (hr : s.phase = .running)
    (hok : s.cfg.chunkOk data = true) (w : Time) : exec (.feed data w) s = s.begin.feed data w := by
  rw [exec, execFeed, whenRunning_of_running _ hr, State.begin_cfg, hok, inDomain_true]

/-- Settles O33: the loop begins with the output empty, as the command does. -/
theorem feedIsTheRuleLoop : Obligations.FeedIsTheRuleLoop := by
  intro s data w hr hok
  exact (exec_feed_of_running hr hok w).trans (feed_eq_feedLoop le_rfl)

end Sys2Proof.Machine

/-! ## LINE_PROCESS and the LINE rows (rules R205, R206, R238) -/

namespace Sys2Proof.Machine

open Sys2Proof

/-- A line that decodes to a value has the effect of the value's LINE row (log 11). -/
theorem exec_lineProcess_of_known {s : State} (hr : s.phase = .running) (hl : s.cfg.legal = true) {b : Bytes}
    (hnl : s.cfg.nl ∉ b) {l : Line} {verdict : Verdict} {v : Variant} (hparse : lineParse s.cfg b = .ok l verdict)
    (hknown : plDec s.cfg l = .known v) :
    exec (.lineProcess b) s = exec (lineOfVariant verdict.form v) s := by
  have hdecode : decodeLine s.cfg b = .ok (lineOfVariant verdict.form v) := by
    simp only [decodeLine, hparse, hknown]
  obtain ⟨hwf, -⟩ := decodedLinesAreWellFormed s.cfg b _ hl hnl hdecode
  rw [exec_lineProcess_of_running hr, State.lineProcess_of_known (s := s.begin) hparse hknown,
    exec_lineOfVariant hr hwf]

/-- A line that is dropped is one event (rule R205). -/
theorem exec_lineProcess_of_emit {s : State} (hr : s.phase = .running) {b : Bytes} {e : Event}
    (h : s.begin.lineProcess b = .next (s.begin.emit e)) :
    exec (.lineProcess b) s = .next { s with out := ⟨.none, [e]⟩ } :=
  (exec_lineProcess_of_running hr b).trans h

/-- Settles O39, by the answers of LINE_PARSE and then of PL_DEC. -/
theorem lineProcessReportsFirstClass : Obligations.LineProcessReportsFirstClass := by
  intro s b hr hl hnl
  cases hparse : lineParse s.cfg b with
  | structural =>
    simp only [decodeLine, hparse]
    exact exec_lineProcess_of_emit hr (by simp [State.lineProcess, hparse])
  | cksum received computed =>
    simp only [decodeLine, hparse]
    exact exec_lineProcess_of_emit hr (by simp [State.lineProcess, hparse])
  | ok l verdict =>
    cases hdec : plDec s.cfg l with
    | unknown =>
      simp only [decodeLine, hparse, hdec]
      exact exec_lineProcess_of_emit hr (by simp [State.lineProcess, hparse, hdec])
    | decodeError =>
      simp only [decodeLine, hparse, hdec]
      exact exec_lineProcess_of_emit hr (by simp [State.lineProcess, hparse, hdec])
    | known v =>
      have hrow := exec_lineProcess_of_known hr hl hnl hparse hdec
      simp only [decodeLine, hparse, hdec]
      cases v with
      | publish p | timeQuery q | timeReply r | profileStart p => exact hrow

end Sys2Proof.Machine

/-! ## The bytes of a sent line (rules R70, R83, R126) -/

namespace Sys2Proof

theorem legal_nl {c : Params} (h : c.legal = true) : c.nl < 0x20 := by
  simp only [Params.legal, Bool.and_eq_true, decide_eq_true_eq] at h
  obtain ⟨⟨⟨-, hnl⟩, -⟩, -⟩ := h
  exact hnl

/-- A byte of a framed TimeQuery or TimeReply: B64URL, or of the brackets and the comma of its array. -/
def isFrameByte (x : Byte) : Bool := isB64Url x || x == 0x5B || x == 0x5D || x == 0x2C

theorem isFrameByte_of_isB64Url {x : Byte} (h : isB64Url x = true) : isFrameByte x = true := by
  simp [isFrameByte, h]

theorem isFrameByte_ge : ∀ x : Byte, isFrameByte x = true → 0x20 ≤ x := by
  decide +kernel

/-- NL is a control byte, so no byte of a frame is NL (rules R7, R83). -/
theorem nl_not_mem_of_isFrameByte {c : Params} (hl : c.legal = true) {b : Bytes}
    (h : ∀ x ∈ b, isFrameByte x = true) : c.nl ∉ b :=
  fun hmem => absurd (legal_nl hl) (BitVec.not_lt.2 (isFrameByte_ge _ (h _ hmem)))

theorem isB64Url_of_isDigit {x : Byte} (h : isDigit x = true) : isB64Url x = true := by
  simp only [isDigit] at h
  simp only [isB64Url, isWord, h, Bool.or_true, Bool.true_or]

/-- ENC_INT writes digits and a minus (rule R82). -/
theorem isB64Url_of_mem_encInt {v : Int} : ∀ x ∈ encInt v, isB64Url x = true := by
  obtain ⟨d, ds, htext, hdigits, -⟩ := decimal_eq_cons v.natAbs
  have hdecimal : ∀ x ∈ decimal v.natAbs, isB64Url x = true := fun x hx =>
    isB64Url_of_isDigit (hdigits x (htext ▸ hx))
  unfold encInt
  split
  · exact List.forall_mem_cons.2 ⟨by decide, hdecimal⟩
  · exact hdecimal

/-- The bytes between commas, and the commas. -/
theorem forall_mem_joinComma {P : Byte → Prop} (hcomma : P 0x2C) {es : List Bytes} (h : ∀ e ∈ es, ∀ x ∈ e, P x) :
    ∀ x ∈ joinComma es, P x := by
  induction es with
  | nil => nofun
  | cons e es ih =>
    obtain ⟨he, hes⟩ := List.forall_mem_cons.1 h
    cases es with
    | nil => simpa [joinComma] using he
    | cons f es =>
      rw [joinComma_cons_cons]
      simp only [List.mem_append, List.mem_singleton]
      rintro x ((hx | rfl) | hx)
      · exact he x hx
      · exact hcomma
      · exact ih hes x hx

theorem isFrameByte_of_mem_arrayPayload {es : List Bytes} (h : ∀ e ∈ es, ∀ x ∈ e, isB64Url x = true) :
    ∀ x ∈ arrayPayload es, isFrameByte x = true := by
  have hjoin := forall_mem_joinComma (P := fun x => isFrameByte x = true) (by decide)
    fun e he x hx => isFrameByte_of_isB64Url (h e he x hx)
  simp only [arrayPayload, List.mem_append, List.mem_singleton]
  rintro x ((rfl | hx) | rfl)
  · decide
  · exact hjoin x hx
  · decide

/-- A value of the time synchronizer: what NEXT_SEND sends (rules R174, R175). -/
def Variant.IsTimeSync (v : Variant) : Prop := (∃ r, v = .timeReply r) ∨ ∃ q, v = .timeQuery q

/-- The fields of a time-sync value are INT (rules R88, R89). -/
theorem Variant.IsTimeSync.eq_int {v : Variant} (h : v.IsTimeSync) {fv : FieldValue} (hfv : fv ∈ v.values) :
    ∃ n, fv = .int n := by
  rcases h with ⟨r, rfl⟩ | ⟨q, rfl⟩
  · simp only [Variant.values, List.mem_cons, List.not_mem_nil, or_false] at hfv
    rcases hfv with rfl | rfl | rfl | rfl | rfl | rfl <;> exact ⟨_, rfl⟩
  · simp only [Variant.values, List.mem_cons, List.not_mem_nil, or_false] at hfv
    rcases hfv with rfl | rfl | rfl | rfl <;> exact ⟨_, rfl⟩

theorem Variant.IsTimeSync.rawContract {v : Variant} (h : v.IsTimeSync) (c : Params) : v.rawContract c = true :=
  rawContract_of_no_raw fun _ hb => by
    obtain ⟨_, hn⟩ := h.eq_int hb
    cases hn

/-- PL_ENC writes only frame bytes for a time-sync value (rule R141). -/
theorem isFrameByte_of_mem_plEnc_payload {v : Variant} (h : v.IsTimeSync) (c : Params) :
    ∀ x ∈ (plEnc c v).payload, isFrameByte x = true := by
  obtain ⟨kept, run, hfields, henc, -⟩ := exists_written c v
  rw [henc]
  refine isFrameByte_of_mem_arrayPayload fun e he => ?_
  obtain ⟨fv, hfv, rfl⟩ := List.mem_map.1 he
  have hvalue : fv ∈ v.values := by
    rw [← map_snd_fields c, hfields, List.map_append]
    exact List.mem_append_left _ hfv
  obtain ⟨n, rfl⟩ := h.eq_int hvalue
  exact isB64Url_of_mem_encInt

/-- A framed time-sync value holds no NL (rules R78, R83). -/
theorem nl_not_mem_frameLine {c : Params} (hl : c.legal = true) {v : Variant} (h : v.IsTimeSync) :
    c.nl ∉ frameLine (plEnc c v) (ckFieldOf c .value (framedBytes (plEnc c v)) (plEnc c v)) := by
  refine nl_not_mem_of_isFrameByte hl fun x hx => ?_
  rw [frameLine, framedBytes_of_structured (structuredShape_plEnc c v), List.mem_append, List.mem_append] at hx
  rcases hx with (hpfx | hpayload) | hfield
  · have hword := List.all_eq_true.1 (Machine.legal_pfx_word hl v) x hpfx
    exact isFrameByte_of_isB64Url (isB64Url_of_isWord hword)
  · exact isFrameByte_of_mem_plEnc_payload h c x hpayload
  · exact isFrameByte_of_isB64Url (isB64Url_of_mem_ckEnc hl _ x hfield)

/-- LINE_PARSE accepts a framed value as valid (rule R127). -/
theorem lineParse_frameLine {c : Params} (hl : c.legal = true) (v : Variant) :
    lineParse c (frameLine (plEnc c v) (ckFieldOf c .value (framedBytes (plEnc c v)) (plEnc c v))) =
      .ok (plEnc c v) .valid := by
  have hread := lineReading_framedBytes hl (Machine.legal_pfx_word hl v) (.inl (structuredShape_plEnc c v))
  obtain ⟨verdict, hform, hparse⟩ := lineParse_ckFieldOf hl hread .value
  cases verdict with
  | bypass => cases hform
  | valid => exact hparse

/-! ### The fields of a sent value (rules R10, R85) -/

/-- A packed stamp fits an INT of 29 bits or more (log 25). -/
theorem inInt_of_lt {c : Params} (hw : 29 ≤ c.intW) {v : Int} (h0 : 0 ≤ v) (h1 : v < 2 ^ 28) :
    c.inInt v = true := by
  have hpow : (2 : Int) ^ 28 ≤ 2 ^ (c.intW - 1) := pow_le_pow_right₀ (by norm_num) (by omega)
  simp only [Params.inInt, Bool.and_eq_true, decide_eq_true_eq]
  omega

theorem legal_tps {c : Params} (h : c.legal = true) : 1 ≤ c.tps := by
  simp only [Params.legal, Bool.and_eq_true, decide_eq_true_eq] at h
  obtain ⟨⟨-, ⟨⟨⟨⟨⟨-, htps⟩, -⟩, -⟩, -⟩, -⟩⟩, -⟩ := h
  exact htps

end Sys2Proof

namespace Sys2Proof.Machine

open Sys2Proof

theorem daysInMonth_le (y m : Nat) : daysInMonth y m ≤ 31 := by
  unfold daysInMonth
  split_ifs <;> omega

/-- The two numbers of a stamp have eight and at most nine digits, below 2 ^ 28 (rule R85). -/
theorem utcPack_bounds {c : Params} (htps : 1 ≤ c.tps) {now : Time} (h : c.inCalendar now = true) :
    (0 ≤ (utcPack c now).1 ∧ (utcPack c now).1 < 2 ^ 28) ∧ 0 ≤ (utcPack c now).2 ∧ (utcPack c now).2 < 2 ^ 28 := by
  obtain ⟨h0, h1⟩ := msSinceEpoch_bounds htps h
  obtain ⟨y, m, d, hciv, -, hy, -, hm, -, hd, -⟩ :=
    civilFromDays_spec (days := msSinceEpoch c now / 86400000) (by omega) (by omega)
  obtain ⟨hh, mi, sec, ms, hhour, hmi, hsec, hms, htime, -⟩ :=
    packTimeOfDay_spec (msod := msSinceEpoch c now % 86400000) (by omega) (by omega)
  have hday := hd.trans (daysInMonth_le y m)
  simp only [utcPack, hciv, packDate, htime]
  omega

/-- What TS_GET gives to be sent: a time-sync value whose fields are INT (rules R174, R175, R37 (c)). -/
theorem tsGet_payload {s u : State} (hs : s.Inv) (hw : 29 ≤ s.cfg.intW) {now : Time} {v : Variant}
    (h : s.tsGet now = .next (some v, u)) : v.IsTimeSync ∧ v.inRange s.cfg = true := by
  rcases State.tsGet_eq_next.1 h with ⟨hp, hmark, he⟩ | ⟨-, -, hcal, he⟩ | ⟨-, -, he⟩
  · obtain ⟨hv, -⟩ := Prod.mk.inj he
    cases hv
    obtain ⟨-, -, -, hrange⟩ := hs.pending_form hp
    refine ⟨.inl ⟨_, rfl⟩, ?_⟩
    rw [Variant.inRange_iff] at hrange ⊢
    simp only [Variant.values, List.mem_cons, List.not_mem_nil, or_false, FieldValue.int.injEq,
      forall_eq_or_imp, forall_eq] at hrange ⊢
    obtain ⟨hdate, htime, hrx, -, hid, hlen⟩ := hrange
    exact ⟨hdate, htime, hrx, hmark, hid, hlen⟩
  · obtain ⟨hv, -⟩ := Prod.mk.inj he
    cases hv
    obtain ⟨⟨hdate0, hdate1⟩, htime0, htime1⟩ := utcPack_bounds (legal_tps hs.legal) hcal
    refine ⟨.inr ⟨_, rfl⟩, Variant.inRange_iff.2 ?_⟩
    simp only [Variant.values, List.mem_cons, List.not_mem_nil, or_false, FieldValue.int.injEq,
      forall_eq_or_imp, forall_eq]
    exact ⟨inInt_of_lt hw hdate0 hdate1, inInt_of_lt hw htime0 htime1, by simp⟩
  · cases (Prod.mk.inj he).1

/-- Settles O47: a sent line frames a time-sync value, which LINE_PARSE and PL_DEC take back. -/
theorem sentLinesParseBackAsTimeSync : Obligations.SentLinesParseBackAsTimeSync := by
  intro s t now e b hs hw hexec hres
  obtain ⟨-, hsend⟩ := (whenRunning_eq_next (k := fun s => s.nextSend now e)).1 hexec
  rcases State.nextSend_eq_next (s := s.begin) hs.legal hsend with rfl | ⟨v, u, hget, -, rfl⟩
  · cases hres
    exact .inl rfl
  · have hcfg : u.cfg = s.cfg := State.tsGet_cfg (s := s.begin) hget
    obtain ⟨hsync, hrange⟩ := tsGet_payload (s := s.begin) { hs with } hw hget
    cases hres
    rw [hcfg]
    exact .inr ⟨_, plEnc s.cfg v, v, rfl, nl_not_mem_frameLine hs.legal hsync, lineParse_frameLine hs.legal v,
      plDec_plEnc hs.legal hrange (hsync.rawContract s.cfg), hsync⟩

end Sys2Proof.Machine

/-! ## SCHEMA_RESOLVE and MK_MSG (rules R207 to R209) -/

namespace Sys2Proof.Machine

open Sys2Proof

/-- A name of the form `json:` carries the schema itself. -/
theorem schemaResolve_json (lookup : Bytes → Bytes) (rest : Bytes) :
    schemaResolve lookup (ascii "json:" ++ rest) = rest := rfl

/-- A name of the form `fox:` is looked up. -/
theorem schemaResolve_fox (lookup : Bytes → Bytes) (name : Bytes) :
    schemaResolve lookup (ascii "fox:" ++ name) =
      if lookup name = [] then ascii "ERROR:NOTFOUND:" ++ name else lookup name := by
  have hjson : (ascii "fox:" ++ name).take 5 ≠ ascii "json:" := fun h => by
    cases congrArg List.head? h
  have hfox : (ascii "fox:" ++ name).take 4 = ascii "fox:" := rfl
  rw [schemaResolve, if_neg (by simp [ascii]), if_neg hjson, if_pos hfox]
  rfl

/-- A name of no known form is an error. -/
theorem schemaResolve_other {lookup : Bytes → Bytes} {n : Bytes} (hne : n ≠ []) (hjson : ¬ ascii "json:" <+: n)
    (hfox : ¬ ascii "fox:" <+: n) : schemaResolve lookup n = ascii "ERROR:INVALID:" ++ n := by
  have notPrefix : ∀ {k : Nat} {form : Bytes}, ¬ form <+: n → n.take k ≠ form :=
    fun hno h => hno (h ▸ List.take_prefix _ n)
  rw [schemaResolve, if_neg hne, if_neg (notPrefix hjson), if_neg (notPrefix hfox)]

theorem exec_schemaResolve_of_running {s : State} (hr : s.phase = .running) (n : Bytes) :
    exec (.schemaResolve n) s = .next { s with out := ⟨.bytes (schemaResolve Config.schemaLookup n), []⟩ } :=
  whenRunning_answer hr fun _ => .bytes (schemaResolve Config.schemaLookup n)

theorem exec_schemaLookup_of_running {s : State} (hr : s.phase = .running) (name : Bytes) :
    exec (.schemaLookup name) s = .next { s with out := ⟨.bytes (Config.schemaLookup name), []⟩ } :=
  whenRunning_answer hr fun _ => .bytes (Config.schemaLookup name)

theorem exec_mkMsg_of_inRange {s : State} (hr : s.phase = .running) {p : Publish}
    (hp : (Variant.publish p).inRange s.cfg = true) :
    exec (.mkMsg p) s = .next { s with out := ⟨.message (mkMsg Config.schemaLookup p), []⟩ } := by
  rw [exec, execMkMsg, whenRunning_of_running _ hr, State.begin_cfg, hp, inDomain_true]
  rfl

/-- Settles O42, form by form of the schema name. -/
theorem schemaNamesResolveByForm : Obligations.SchemaNamesResolveByForm := by
  intro s hr
  have resolve := exec_schemaResolve_of_running hr
  refine ⟨resolve [], fun rest => ?json, fun name => ⟨_, exec_schemaLookup_of_running hr name, ?fox⟩,
    fun n hne hjson hfox => ?other, fun p hp => ⟨_, resolve p.schemaName, exec_mkMsg_of_inRange hr hp⟩⟩
  case json => rw [resolve, schemaResolve_json]
  case fox => rw [resolve, schemaResolve_fox]
  case other => rw [resolve, schemaResolve_other hne hjson hfox]

end Sys2Proof.Machine

/-! ## DRAIN, and NEXT_SEND with nothing to send (rules R210 to R212) -/

namespace Sys2Proof.Machine

open Sys2Proof

/-- DRAIN hands the queue over and leaves it empty (rule R210). -/
theorem exec_drain_of_running {s : State} (hr : s.phase = .running) :
    exec .drain s = .next { s with mq := [], out := ⟨.messages s.mq, []⟩ } :=
  whenRunning_of_running (fun s => answer s.emptyQueue (.messages s.mq)) hr

/-- Settles O43: the second DRAIN is a DRAIN of an empty queue. -/
theorem drainReturnsAndEmptiesQueue : Obligations.DrainReturnsAndEmptiesQueue :=
  fun s hr => ⟨_, exec_drain_of_running hr, rfl,
    exec_drain_of_running (s := { s with mq := [], out := ⟨.messages s.mq, []⟩ }) hr⟩

/-- TS_HAS answers no while no reply is pending and no query due (rule R173). -/
theorem tsHas_eq_false {s : State} {now : Time} (hp : s.pendV = false) (hdue : now < s.nextQ) :
    s.tsHas now = false := by
  simp [State.tsHas, State.due, hp, hdue]

/-- Without something to send and an empty transmit buffer NEXT_SEND sends nothing (rule R211). -/
theorem nextSend_of_idle_or_gated {s : State} {now : Time} {e : Bool} (h : s.tsHas now = false ∨ e = false) :
    s.nextSend now e = answer s (.bytes []) := by
  unfold State.nextSend
  rcases h with hidle | hgated
  · simp [hidle]
  · simp [hgated]

/-- Settles O44: idle is TS_HAS answering no. -/
theorem nextSendIdleOrGatedChangesNothing : Obligations.NextSendIdleOrGatedChangesNothing := by
  intro s now e hr h
  have hquiet : s.begin.tsHas now = false ∨ e = false :=
    h.imp_left fun ⟨hp, hdue⟩ => tsHas_eq_false (s := s.begin) hp hdue
  rw [exec_nextSend_of_running hr, nextSend_of_idle_or_gated hquiet]
  rfl

end Sys2Proof.Machine

/-! ## The events of a FEED (rules R230, R241)

A line of the chunk emits at most one event and so does its tail; there are as many lines as newlines. -/

namespace Sys2Proof.Machine

open Sys2Proof

/-- A chunk has one line for each of its newlines (rule R203). -/
theorem length_splitLines_lines (nl : Byte) (data : Bytes) : (splitLines nl data).1.length = data.count nl := by
  induction data with
  | nil => rfl
  | cons b bs ih =>
    by_cases hb : b = nl
    · subst hb
      simp [splitLines_nl, ih]
    · rw [List.count_cons_of_ne hb, ← ih, splitLines, if_neg hb]
      cases (splitLines nl bs).1 <;> rfl

@[simp] theorem State.stampLine_out (s : State) (w : Time) : (s.stampLine w).out = s.out := by
  rw [State.stampLine_eq, State.setLineT_out]

/-- A line of a chunk emits at most one event, as LINE_PROCESS does (rules R205, R230). -/
theorem feedLine_events_length_le {s t : State} {w : Time} {part : Bytes} (h : s.feedLine w part = .next t) :
    t.out.events.length ≤ s.out.events.length + 1 := by
  simpa using (State.lineProcess_out h).2

theorem feedLines_events_length_le {w : Time} {parts : List Bytes} :
    ∀ {s t : State}, s.feedLines w parts = .next t →
      t.out.events.length ≤ s.out.events.length + parts.length := by
  induction parts with
  | nil =>
    intro s t h
    cases h
    exact le_rfl
  | cons part parts ih =>
    intro s t h
    obtain ⟨u, hline, hlines⟩ := Ans.andThen_eq_next.1 h
    have hfirst := feedLine_events_length_le hline
    have hrest := ih hlines
    rw [List.length_cons]
    omega

/-- The tail of a chunk emits OVERFLOW or nothing (rules R204, R236). -/
theorem feedTail_events_length_le (s : State) (w : Time) (tail : Bytes) :
    (s.feedTail w tail).out.events.length ≤ s.out.events.length + 1 := by
  rcases s.feedTail_cases w tail with h | h | ⟨n, h⟩ <;> simp [h]

/-- Settles O38: the lines first, then the tail. -/
theorem feedEventsBoundedByLines : Obligations.FeedEventsBoundedByLines := by
  intro s t data w h
  obtain ⟨-, -, hfeed⟩ := exec_feed_eq_next.1 h
  obtain ⟨u, hlines, rfl⟩ := State.feed_eq_next.1 hfeed
  calc (u.feedTail w _).out.events.length
      ≤ u.out.events.length + 1 := feedTail_events_length_le u w _
    _ ≤ 0 + (splitLines s.cfg.nl data).1.length + 1 := Nat.succ_le_succ (feedLines_events_length_le hlines)
    _ = data.count s.cfg.nl + 1 := by rw [Nat.zero_add, length_splitLines_lines]

end Sys2Proof.Machine

/-! ## The phases (rules R235, R261) and the event table (rule R230) -/

namespace Sys2Proof.Machine

open Sys2Proof

/-- Every row but RESET and the reserved code runs behind the phase check (rule R235, log 7). -/
theorem exec_eq_whenRunning {i : Instr} (hreserved : i ≠ .reservedOp3) (hreset : ∀ t0 a b, i ≠ .reset t0 a b) :
    ∃ k : State → Ans State, ∀ s, exec i s = whenRunning s k := by
  unfold exec
  cases i with
  | reservedOp3 => exact absurd rfl hreserved
  | reset t0 profileId profileLen => exact absurd rfl (hreset t0 profileId profileLen)
  | _ => exact ⟨_, fun _ => rfl⟩

theorem whenRunning_of_stuck {s : State} {p : Bytes} (k : State → Ans State) (h : s.phase = .stuck p) :
    whenRunning s k = .fault .stuckAfterContract := by
  rw [whenRunning, h]

theorem whenRunning_of_unconstructed {s : State} (k : State → Ans State) (h : s.phase = .unconstructed) :
    whenRunning s k = .refused .beforeReset := by
  rw [whenRunning, h]

/-- RESET constructs the block, in any phase (rules R260, R261, log 15). -/
theorem exec_reset_of_inInt (s : State) (t0 : Time) {profileId profileLen : Int}
    (hid : s.cfg.inInt profileId = true) (hlen : s.cfg.inInt profileLen = true) :
    exec (.reset t0 profileId profileLen) s = .next (s.construct t0 profileId profileLen) := by
  rw [exec, execReset, hid, hlen, Bool.and_self, inDomain_true, done]

/-- Settles O13: the phase check answers for every row that has it, and RESET has none. -/
theorem onlyResetLeavesStuckPhase : Obligations.OnlyResetLeavesStuckPhase := by
  intro s i hreserved hreset
  obtain ⟨k, hk⟩ := exec_eq_whenRunning hreserved hreset
  rw [hk]
  refine ⟨fun ⟨_, hstuck⟩ => ?stuck, fun hunconstructed => ?unconstructed, fun t0 a b ha hb => ?reset⟩
  case stuck => exact whenRunning_of_stuck k hstuck
  case unconstructed => exact whenRunning_of_unconstructed k hunconstructed
  case reset => exact ⟨_, exec_reset_of_inInt s t0 ha hb, State.construct_phase s t0 a b⟩

/-- Settles O54: each line is one row of the table as the model writes it. -/
theorem eventTableCodesAndSeverities : Obligations.EventTableCodesAndSeverities :=
  ⟨rfl, rfl, rfl, rfl, rfl, rfl, rfl⟩

end Sys2Proof.Machine

/-! ## The length of a sent line (rule R268) -/

namespace Sys2Proof

/-- A number below `10 ^ k` has at most `k` decimal digits (rule R82). -/
theorem length_decimal_le {n k : Nat} (hk : 0 < k) (h : n < 10 ^ k) : (decimal n).length ≤ k := by
  rcases Nat.eq_zero_or_pos n with rfl | hpos
  · exact hk
  · rw [decimal_of_pos hpos, List.length_map, List.length_reverse]
    exact (Nat.digits_length_le_iff (by omega) n).2 h

/-- ENC_INT writes the digits and at most a minus (rule R144). -/
theorem length_encInt_le {v : Int} {k : Nat} (hk : 0 < k) (h : v.natAbs < 10 ^ k) : (encInt v).length ≤ k + 1 := by
  have hdigits := length_decimal_le hk h
  unfold encInt
  split
  · exact Nat.succ_le_succ hdigits
  · exact hdigits.trans (Nat.le_succ k)

/-- An INT of 64 bits has at most 19 digits and a minus (rule R268). -/
theorem length_encInt_le_of_inInt_default {v : Int} (h : Params.default.inInt v = true) :
    (encInt v).length ≤ 20 := by
  refine length_encInt_le (k := 19) (by omega) ?_
  have hwidth : Params.default.intW = 64 := rfl
  simp only [Params.inInt, hwidth, Bool.and_eq_true, decide_eq_true_eq] at h
  omega

/-- One comma stands between two parts. -/
theorem length_joinComma_le {k : Nat} {es : List Bytes} (h : ∀ e ∈ es, e.length ≤ k) :
    (joinComma es).length ≤ es.length * (k + 1) - 1 := by
  induction es with
  | nil => exact Nat.zero_le _
  | cons e es ih =>
    obtain ⟨he, hes⟩ := List.forall_mem_cons.1 h
    cases es with
    | nil => simpa [joinComma] using he
    | cons f es =>
      have hrest := ih hes
      rw [joinComma_cons_cons]
      simp only [List.length_append, List.length_cons, List.length_nil, Nat.succ_mul] at hrest ⊢
      omega

/-- An array has its parts, the commas between them and two brackets (rule R79). -/
theorem length_arrayPayload_le {n k : Nat} (hn : 0 < n) {es : List Bytes} (hlen : es.length ≤ n)
    (h : ∀ e ∈ es, e.length ≤ k) : (arrayPayload es).length ≤ n * (k + 1) + 1 := by
  have hjoin := length_joinComma_le h
  have hparts : es.length * (k + 1) ≤ n * (k + 1) := Nat.mul_le_mul_right _ hlen
  have hpos : 0 < n * (k + 1) := Nat.mul_pos hn (Nat.succ_pos k)
  simp only [arrayPayload, List.length_append, List.length_cons, List.length_nil]
  omega

/-- A TimeReply has the six fields, a TimeQuery four (rules R88, R89). -/
theorem Variant.IsTimeSync.length_values_le {v : Variant} (h : v.IsTimeSync) : v.values.length ≤ 6 := by
  rcases h with ⟨r, rfl⟩ | ⟨q, rfl⟩
  · exact le_rfl
  · exact Nat.le_add_right 4 2

/-- By default the registered words of both are two bytes (rules R7, R86). -/
theorem Variant.IsTimeSync.length_pfx_default {v : Variant} (h : v.IsTimeSync) :
    (plEnc Params.default v).pfx.length = 2 := by
  rcases h with ⟨r, rfl⟩ | ⟨q, rfl⟩ <;> rfl

/-- Six integers of at most 20 bytes, five commas and two brackets (rule R268). -/
theorem length_plEnc_payload_le {v : Variant} (h : v.IsTimeSync) (hrange : v.inRange Params.default = true) :
    (plEnc Params.default v).payload.length ≤ 127 := by
  obtain ⟨kept, run, hfields, henc, -⟩ := exists_written Params.default v
  have hvalues : v.values = kept.map Prod.snd ++ run.map Prod.snd := by
    rw [← map_snd_fields Params.default, hfields, List.map_append]
  have hcount : ((kept.map Prod.snd).map encField).length ≤ 6 :=
    calc ((kept.map Prod.snd).map encField).length
        ≤ v.values.length := by simp [hvalues]
      _ ≤ 6 := h.length_values_le
  rw [henc]
  refine length_arrayPayload_le (n := 6) (k := 20) (by omega) hcount fun e he => ?_
  obtain ⟨fv, hfv, rfl⟩ := List.mem_map.1 he
  have hvalue : fv ∈ v.values := hvalues ▸ List.mem_append_left _ hfv
  obtain ⟨n, rfl⟩ := h.eq_int hvalue
  exact length_encInt_le_of_inInt_default (Variant.inRange_iff.1 hrange n hvalue)

/-- The line of a time-sync value: two bytes, the payload and the checksum field (rules R70, R268). -/
theorem length_frameLine_le {v : Variant} (h : v.IsTimeSync) (hrange : v.inRange Params.default = true) :
    (frameLine (plEnc Params.default v) (ckFieldOf Params.default .value (framedBytes (plEnc Params.default v))
      (plEnc Params.default v))).length ≤ 132 := by
  have hpayload := length_plEnc_payload_le h hrange
  have hpfx := h.length_pfx_default
  rw [frameLine, framedBytes_of_structured (structuredShape_plEnc _ v), ckFieldOf]
  simp only [List.length_append, ckEnc_length]
  omega

end Sys2Proof

namespace Sys2Proof.Machine

open Sys2Proof

/-- Settles O48: what is sent is the line of a time-sync value, or nothing. -/
theorem sentLinesAreAtMost133Bytes : Obligations.SentLinesAreAtMost133Bytes := by
  intro s t now e b hs hdefault hexec hres
  obtain ⟨-, hsend⟩ := (whenRunning_eq_next (k := fun s => s.nextSend now e)).1 hexec
  rcases State.nextSend_eq_next (s := s.begin) hs.legal hsend with rfl | ⟨v, u, hget, -, rfl⟩
  · cases hres
    exact Nat.zero_le _
  · have hcfg : u.cfg = Params.default := (State.tsGet_cfg (s := s.begin) hget).trans hdefault
    obtain ⟨hsync, hrange⟩ := tsGet_payload (s := s.begin) { hs with } (hdefault ▸ by decide) hget
    cases hres
    rw [State.begin_cfg, hdefault] at hrange ⊢
    rw [hcfg, List.length_append]
    exact Nat.succ_le_succ (length_frameLine_le hsync hrange)

end Sys2Proof.Machine

/-! ## A sent query fed back (rules R178, R206, R273) -/

namespace Sys2Proof.Machine

open Sys2Proof

/-- A whole line fed on an empty accumulator is processed with the chunk's arrival time (rules R202, R203). -/
theorem State.feed_line_of_acc_nil {s : State} (hacc : s.acc = []) {line : Bytes} (hnl : s.cfg.nl ∉ line) (w : Time) :
    s.feed (line ++ [s.cfg.nl]) w = (s.setLineT w).lineProcess line := by
  have hclear : (s.setLineT w).accClear = s.setLineT w := by
    rw [State.accClear, ← hacc]
    rfl
  have hline : s.feedLine w line = (s.setLineT w).lineProcess line := by
    rw [State.feedLine, State.stampLine_eq, if_pos hacc, hclear, hacc, List.nil_append]
  have hempty : ∀ t : State, t.feed [] w = .next t := fun t => State.feed_of_no_nl List.not_mem_nil w
  rw [State.feed_append_nl hnl, hline]
  cases (s.setLineT w).lineProcess line with
  | next t => exact hempty t
  | fault _ | refused _ => rfl

/-- LINE_SER of a variant value is its frame (rules R7, R126). -/
theorem lineSer_plEnc {c : Params} (hl : c.legal = true) (v : Variant) :
    lineSer c (plEnc c v) =
      some (frameLine (plEnc c v) (ckFieldOf c .value (framedBytes (plEnc c v)) (plEnc c v))) :=
  if_pos (legal_pfx_word hl v)

/-- The line of a time-sync value, once serialized, is processed as a DISPATCH of that value (rules R205, R206). -/
theorem lineProcess_of_lineSer {s : State} (hl : s.cfg.legal = true) {v : Variant} (hsync : v.IsTimeSync)
    (hrange : v.inRange s.cfg = true) {line : Bytes} (hser : lineSer s.cfg (plEnc s.cfg v) = some line) :
    s.lineProcess line = s.dispatch v := by
  cases (lineSer_plEnc hl v).symm.trans hser
  exact State.lineProcess_of_known (lineParse_frameLine hl v)
    (plDec_plEnc hl hrange (hsync.rawContract s.cfg))

/-- FEED of the line of a TimeQuery on an empty accumulator is the DISPATCH of the query (rules R201, R206). -/
theorem exec_feed_timeQuery {s : State} (hr : s.phase = .running) (hl : s.cfg.legal = true)
    (hchunk : s.cfg.chunkMax = none) (hacc : s.acc = []) {q : TimeQuery}
    (hrange : (Variant.timeQuery q).inRange s.cfg = true) {w : Time}
    (hmark : s.cfg.inInt (msecMark s.cfg s.start w) = true) {line : Bytes}
    (hser : lineSer s.cfg (plEnc s.cfg (.timeQuery q)) = some line) :
    exec (.feed (line ++ [s.cfg.nl]) w) s = .next { s with
      lineT := w
      pendV := true
      pend := ⟨q.yyyymmdd, q.hhmmssmmm, msecMark s.cfg s.start w, 0, s.fpId, s.fpLen⟩
      out := ⟨.none, []⟩ } := by
  have hsync : (Variant.timeQuery q).IsTimeSync := .inr ⟨q, rfl⟩
  have hnl : s.cfg.nl ∉ line := by
    cases (lineSer_plEnc hl (.timeQuery q)).symm.trans hser
    exact nl_not_mem_frameLine hl hsync
  calc exec (.feed (line ++ [s.cfg.nl]) w) s
      = s.begin.feed (line ++ [s.cfg.nl]) w := exec_feed_of_running hr (Params.chunkOk_of_unbounded hchunk _) w
    _ = (s.begin.setLineT w).lineProcess line := State.feed_line_of_acc_nil (s := s.begin) hacc hnl w
    _ = (s.setLineT w).begin.dispatch (.timeQuery q) :=
      lineProcess_of_lineSer (s := s.begin.setLineT w) hl hsync hrange hser
    _ = _ := dispatch_begin_timeQuery (s := s.setLineT w) hmark q

/-- Settles O49: sending the query writes only the schedule, so the line meets an empty accumulator. -/
theorem loopedBackQuerySetsOwnReply : Obligations.LoopedBackQuerySetsOwnReply := by
  intro s now w hs hr hw hchunk hacc hp hdue hcal hmark
  obtain ⟨line, hser, hsend⟩ := exec_nextSend_of_due hr hs.legal hp hdue hcal
  obtain ⟨-, hrange⟩ := tsGet_payload (s := s.begin) { hs with } hw (tsGet_begin_of_due hp hdue hcal)
  have hfeed := fun (next : Time) (sent : Output) =>
    exec_feed_timeQuery (s := { s with nextQ := next, out := sent }) hr hs.legal hchunk hacc hrange hmark hser
  exact ⟨_, _, _, hsend, rfl, hfeed _ _, rfl⟩

end Sys2Proof.Machine
